-- ==== Sys2Proof/Word.lean ====
section
/-! DEFINITION. The two words of the block: a byte of the wire, of a packet or of a buffer, and the 32-bit word of TICKCNT
and of the delay operands (00_scope.md R12, R18). -/

namespace Sys2Proof

/-- One byte: FRAME_W = 8 (00_scope.md R12). -/
abbrev Byte := BitVec 8

/-- TICK_W = DLY_W = 32 (00_scope.md R18). -/
abbrev Word := BitVec 32

/-- A command packet: a byte string whose byte 0 is the opcode (30_encoding.md R91). -/
abbrev Packet := List Byte

end Sys2Proof
end

