-- ==== Sys2Proof/Config.lean ====
section
/-! DEFINITION. What an implementation fixes (the OPEN parameters of 00_scope.md section 5) and the free values: the
environment's choices where State names none, and the one register value the spec leaves unstated. The opaque constants have
no body, so nothing can be proved of the values they take. -/

namespace Sys2Proof

/-- The OPEN parameters (00_scope.md R13 to R17, 92_eei_decisions.md "Open parameters in one list"). A positive natural is used
where the spec says "integer ≥ 1". No step writes them but a reset with other parameters (70_reset_and_hazards.md R243; DESIGN
CHOICE, assumption log 1). -/
structure Params where
  /-- RETRY_BUDGET, the most flag checks one poll makes (R13). -/
  retryBudget : ℕ+
  /-- CPOL_CFG, the clock polarity INIT writes (R14). -/
  cpol : Bool
  /-- CPHA_CFG, the clock phase INIT writes (R14). -/
  cpha : Bool
  /-- BR_CFG, the clock-divider field INIT writes (R15). -/
  br : BitVec 3
  /-- GPIO_SPEED, the configured output speed of the pins: no rule reads it (00_scope.md section 5, 10_state.md R42). -/
  gpioSpeed : ℕ
  /-- CORE_CLK_HZ (R16). -/
  coreClkHz : ℕ
  /-- TG_PERIOD_MAX (R16). -/
  tgPeriodMax : ℕ+
  /-- US_LOOP_K (R17). -/
  usLoopK : ℕ
  /-- POLLS_PER_FRAME_MAX, the parameter form of premise T1 (70_reset_and_hazards.md R245): no step reads it. -/
  pollsPerFrameMax : ℕ
deriving DecidableEq, Repr, Inhabited

/-- Which agent is offered the next step (00_scope.md R10, R11). RESPONDER takes no step of its own: it supplies MISO to
SHIFTER's sample actions (43_shifter.md R186). `rst` is the environment's reset input (70_reset_and_hazards.md R220): a reset
that keeps the parameters, or one "with other parameters" (R243). -/
inductive Turn where
  | host
  | seq
  | shifter
  | tick
  | rst (params : Option Params)
deriving DecidableEq, Repr, Inhabited

/-- A step of the reset input, with or without other parameters. -/
def Turn.isReset : Turn → Bool
  | .rst _ => true
  | .host | .seq | .shifter | .tick => false

namespace Config

/-- The configuration of the machine that `State.reset` describes: OPEN, so a free value (DESIGN CHOICE, assumption log 1). -/
opaque params : Params

/-- The n-th packet HOST issues once State names no further one: free (10_state.md R25, DESIGN CHOICE, assumption log 2). -/
opaque freePacket : ℕ → Packet

/-- The n-th scheduling choice once State names no further one: free (00_scope.md R11, DESIGN CHOICE, assumption log 2). -/
opaque freeTurn : ℕ → Turn

/-- The n-th MISO level once State names no further one: free (43_shifter.md R186, DESIGN CHOICE, assumption log 2). -/
opaque freeMiso : ℕ → Bool

/-- What TGPERIOD holds when a representable period has more than 32 bits: the spec states no value (10_state.md R49,
40_timing.md R116), so it is free (DESIGN CHOICE, assumption log 7). -/
opaque widePeriod : ℕ → Word

end Config

end Sys2Proof
end

