-- ==== Sys2Proof/Syntax.lean ====
section
/-! DEFINITION. The thirteen commands of 30_encoding.md R90 with their operands (R92), one constructor per row of
spec/opcode_table.json, their opcodes and formats (R94), and the two ways a packet can have no meaning (R99, R100). -/

namespace Sys2Proof

/-- The commands (30_encoding.md R90). Operands are the unsigned immediates of R97; the counts `n` and `txlen` of WRA and WRRD
are the lengths of their byte lists. -/
inductive Instr where
  /-- 41_init_cs.md R136 -/
  | init
  /-- 41_init_cs.md R139 -/
  | sel
  /-- 41_init_cs.md R140 -/
  | desel
  /-- 41_init_cs.md R141 -/
  | outlo (pin : Byte)
  /-- 41_init_cs.md R142 -/
  | outhi (pin : Byte)
  /-- 42_transactions.md R158 -/
  | wrb (value : Byte)
  /-- 42_transactions.md R159 -/
  | rd (command length : Byte)
  /-- 42_transactions.md R160 -/
  | wra (data : List Byte)
  /-- 42_transactions.md R161 -/
  | wrrd (data : List Byte) (rxlen : Byte)
  /-- 40_timing.md R117 -/
  | tkstart
  /-- 40_timing.md R121 -/
  | dlyms (n : Word)
  /-- 40_timing.md R127 -/
  | dlyus (n : Word)
  /-- 40_timing.md R124 -/
  | dlys
deriving DecidableEq, Repr

/-- The opcode alone, one constructor per row of 30_encoding.md R94. -/
inductive Opcode where
  | init | sel | desel | outlo | outhi | wrb | rd | wra | wrrd | tkstart | dlyms | dlyus | dlys
deriving DecidableEq, Repr

/-- The six packet formats (30_encoding.md R92). -/
inductive Format where
  | z | b | c | w | v | x
deriving DecidableEq, Repr

/-- Why a packet has no behaviour: `Refuse(reserved_opcode)` (30_encoding.md R99) and `Refuse(bad_packet_length)` (R100). -/
inductive DecodeError where
  | reservedOpcode
  | badPacketLength
deriving DecidableEq, Repr

end Sys2Proof
end

