-- ==== Sys2Proof/WellFormed.lean ====
section
/-! DEFINITION. The commands a packet can carry: every count is 8 bits, so a byte list has at most 255 elements
(30_encoding.md R92, R97, R103). Every other operand is of its exact width by its type. -/

namespace Sys2Proof

/-- LEN_W = 8: the longest byte list a length byte can announce (00_scope.md R18). -/
abbrev maxCount : ℕ := 255

/-- The check: the byte lists of WRA and WRRD fit their count byte (30_encoding.md R103 "0 .. 255"). -/
def Instr.wellFormed : Instr → Bool
  | .wra data => data.length ≤ maxCount
  | .wrrd data _ => data.length ≤ maxCount
  | .init | .sel | .desel | .outlo _ | .outhi _ | .wrb _ | .rd _ _ | .tkstart | .dlyms _ | .dlyus _ | .dlys => true

/-- A command some packet carries. -/
abbrev Instr.WellFormed (i : Instr) : Prop := i.wellFormed = true

end Sys2Proof
end

