-- ==== Sys2Proof/Decode.lean ====
section
/-! DEFINITION. Packets to commands and back (30_encoding.md). The decoder is total on byte strings and refuses by name; the
encoder is written from the same format table. -/

namespace Sys2Proof

/-- The opcode values (30_encoding.md R94). -/
def opcodeByte : Opcode → Byte
  | .init => 0x01
  | .sel => 0x10
  | .desel => 0x11
  | .outlo => 0x12
  | .outhi => 0x13
  | .wrb => 0x20
  | .rd => 0x21
  | .wra => 0x22
  | .wrrd => 0x23
  | .tkstart => 0x30
  | .dlyms => 0x31
  | .dlyus => 0x32
  | .dlys => 0x33

/-- The formats (30_encoding.md R94, column "format"). -/
def opcodeFormat : Opcode → Format
  | .init | .sel | .desel | .tkstart | .dlys => .z
  | .outlo | .outhi | .wrb => .b
  | .rd => .c
  | .dlyms | .dlyus => .w
  | .wra => .v
  | .wrrd => .x

/-- The rows of 30_encoding.md R94, in order. -/
def allOpcodes : List Opcode :=
  [.init, .sel, .desel, .outlo, .outhi, .wrb, .rd, .wra, .wrrd, .tkstart, .dlyms, .dlyus, .dlys]

/-- The row a byte 0 selects: the whole byte is matched (mask 0xFF); every other value is reserved (R94, R99). -/
def opcodeOfByte (b : Byte) : Option Opcode :=
  allOpcodes.find? fun o => opcodeByte o = b

/-- `MemRead(a, n)`: packet bytes a … a+n−1, little-endian (00_scope.md R21, 30_encoding.md R96). A byte beyond the packet's
end, which no well-sized packet has, counts as 0. -/
def memRead (p : Packet) (a : ℕ) : ℕ → ℕ
  | 0 => 0
  | n + 1 => (p.getD a 0).toNat + 256 * memRead p (a + 1) n

/-- The low `n` bytes of `v`, least significant first (20_memory.md R68). -/
def leBytes : ℕ → ℕ → List Byte
  | 0, _ => []
  | n + 1, v => BitVec.ofNat 8 v :: leBytes n (v / 256)

/-- Packet length in bytes from the format and byte 1 alone (30_encoding.md R93). -/
def formatLength (f : Format) (byte1 : Byte) : ℕ :=
  match f with
  | .z => 1
  | .b => 2
  | .c => 3
  | .w => 5
  | .v => 2 + byte1.toNat
  | .x => 3 + byte1.toNat

/-- The length R93 gives a packet with this opcode; byte 1 is read as 0 where the packet has none. -/
def packetLength (o : Opcode) (p : Packet) : ℕ :=
  formatLength (opcodeFormat o) (p.getD 1 0)

/-- The command of a packet whose opcode is `o` and whose length is the one R93 gives (30_encoding.md R92, R96). -/
def decodeOperands (o : Opcode) (p : Packet) : Instr :=
  match o with
  | .init => .init
  | .sel => .sel
  | .desel => .desel
  | .outlo => .outlo (p.getD 1 0)
  | .outhi => .outhi (p.getD 1 0)
  | .wrb => .wrb (p.getD 1 0)
  | .rd => .rd (p.getD 1 0) (p.getD 2 0)
  | .wra => .wra (p.drop 2)
  | .wrrd => .wrrd (p.drop 3) (p.getD 2 0)
  | .tkstart => .tkstart
  | .dlyms => .dlyms (BitVec.ofNat 32 (memRead p 1 4))
  | .dlyus => .dlyus (BitVec.ofNat 32 (memRead p 1 4))
  | .dlys => .dlys

/-- The decoder: a reserved byte 0 is refused whatever follows (30_encoding.md R99); a packet of another length than R93's,
the empty one included, is refused (R100, 95_test_vectors.md V19). -/
def decode (p : Packet) : Except DecodeError Instr :=
  match p with
  | [] => .error .badPacketLength
  | b :: _ =>
    match opcodeOfByte b with
    | none => .error .reservedOpcode
    | some o => if p.length = packetLength o p then .ok (decodeOperands o p) else .error .badPacketLength

/-- The opcode row of a command. -/
def opcodeOf : Instr → Opcode
  | .init => .init
  | .sel => .sel
  | .desel => .desel
  | .outlo _ => .outlo
  | .outhi _ => .outhi
  | .wrb _ => .wrb
  | .rd _ _ => .rd
  | .wra _ => .wra
  | .wrrd _ _ => .wrrd
  | .tkstart => .tkstart
  | .dlyms _ => .dlyms
  | .dlyus _ => .dlyus
  | .dlys => .dlys

/-- The operand bytes of a command, from offset 1 on (30_encoding.md R92). -/
def operandBytes : Instr → List Byte
  | .init | .sel | .desel | .tkstart | .dlys => []
  | .outlo pin => [pin]
  | .outhi pin => [pin]
  | .wrb value => [value]
  | .rd command length => [command, length]
  | .wra data => BitVec.ofNat 8 data.length :: data
  | .wrrd data rxlen => BitVec.ofNat 8 data.length :: rxlen :: data
  | .dlyms n => leBytes 4 n.toNat
  | .dlyus n => leBytes 4 n.toNat

/-- The packet of a command (30_encoding.md R91 to R94). -/
def encode (i : Instr) : Packet :=
  opcodeByte (opcodeOf i) :: operandBytes i

/-- The longest packet: format X with 255 data bytes (30_encoding.md R93). -/
def maxPacketLength : ℕ := 258

/-- The packet whose bits are `w`, numbered as the opcode table numbers them (byte 0 is bits 7 to 0), every bit from `nbits` up
being 0, cut to the length R93 gives for its own opcode and byte 1; a reserved byte 0 stands alone. -/
def tablePacket (nbits w : ℕ) : Packet :=
  let bytes := leBytes maxPacketLength (w % 2 ^ nbits)
  match opcodeOfByte (bytes.getD 0 0) with
  | none => bytes.take 1
  | some o => bytes.take (packetLength o bytes)

/-- The instruction the decoder reads from an instruction of the opcode table whose bits are `w`. -/
def decodeTableWord (nbits w : ℕ) : Option Instr :=
  match decode (tablePacket nbits w) with
  | .ok i => some i
  | .error _ => none

end Sys2Proof
end

