-- ==== Sys2Proof/Machine/State.lean ====
section
/-! DEFINITION. The machine's state as plain data: every register, flag, pin, latch and buffer of 10_state.md, the pending
micro-steps of the command in execution, the observation trace, and the environment's inputs (INVENTORY.md, "State"). -/

namespace Sys2Proof.Machine

/-- No command, frame or tick can fault: "Nothing in this core is fatal in the sense of halting the system"
(60_exceptions.md R195); nothing raises this type's values because it has none. Safe. -/
inductive Fault
deriving DecidableEq, Repr

/-- The points at which the spec gives no behaviour. -/
inductive Refusal where
  /-- Raised by exec's arm of an instruction that has no meaning yet; no arm of this model raises it. Safe. -/
  | notModelled (mnemonic : String)
  /-- Raised by HOST's issue of a packet whose byte 0 is reserved: `Refuse(reserved_opcode)` (30_encoding.md R99). Safe. -/
  | reservedOpcode
  /-- Raised by HOST's issue of a truncated or overlong packet: `Refuse(bad_packet_length)` (30_encoding.md R100). Safe. -/
  | badPacketLength
  /-- Raised by SEQ's ApplyInit while an enabled peripheral still has a transfer under way: `Refuse(init_during_transfer)`
  (41_init_cs.md R147). Safe. -/
  | initDuringTransfer
  /-- Raised by exec of any command while SEQ.BUSY = 1, which HOST's discipline excludes ("refuse in the sense 'no
  behaviour'", 93_implementation_defined.md U19; 20_memory.md R73). HOST's own step waits instead (DEDUCED, assumption log 6). Safe. -/
  | commandInExecution
deriving DecidableEq, Repr

/-- The level of an output pin: U is "not driven by the block, level unspecified" (10_state.md R51). -/
inductive Level where
  | low
  | high
  | u
deriving DecidableEq, Repr

/-- The two status flags SEQ can poll (10_state.md R35, R36). -/
inductive Flag where
  | txe
  | rxne
deriving DecidableEq, Repr

/-- Where a byte to send comes from (42_transactions.md R171). -/
inductive ByteSrc where
  /-- the immediate operand latched in SEQ.A0: the `value` of WRB, the `command` of RD -/
  | value
  /-- the constant 0xFF, "a dummy all-ones byte" -/
  | dummy
  /-- the buffer element SEQ.TXBUF[i] -/
  | txbuf (i : ℕ)
deriving DecidableEq, Repr

/-- Where SetTick's duration comes from: the operand of DLYMS latched in SEQ.A0 (40_timing.md R121) or the constant 1 of a
DLYS repetition (R124). -/
inductive WordSrc where
  | operand
  | one
deriving DecidableEq, Repr

/-- The micro-steps (42_transactions.md R150), as they wait in SEQ.CONT. A loop whose trip count the run decides stands as one
entry that carries its own counter. -/
inductive MicroOp where
  /-- ApplyInit (41_init_cs.md R136) -/
  | applyInit
  /-- DriveCS(level), true = 1 = Idle (41_init_cs.md R138) -/
  | driveCS (level : Bool)
  /-- SendByte (42_transactions.md R152) -/
  | sendByte (src : ByteSrc)
  /-- a PollFlag in progress, `count` of its FlagChecks done (SEQ.K; 42_transactions.md R151, R154) -/
  | flagCheck (f : Flag) (count : ℕ)
  /-- ReceiveByte with the MemWrite that stores its result at an index of SEQ.RSP, or none where it is dropped
  (42_transactions.md R153, R159; 20_memory.md R74) -/
  | receiveByte (dst : Option ℕ)
  /-- TickStart; `onFail` pending micro-steps are dropped when it FAILs (40_timing.md R116, R117, R121) -/
  | tickStart (onFail : ℕ)
  /-- SetTick (40_timing.md R119) -/
  | setTick (src : WordSrc)
  /-- the ReadTick spin (40_timing.md R120, R121) -/
  | readTick
  /-- the DLYUS loop with `left` SpinIter steps still to run (SEQ.N; 40_timing.md R127) -/
  | spinIter (left : ℕ)
deriving DecidableEq, Repr

/-- The events of HIST (10_state.md R58). -/
inductive Event where
  | csl
  | csh
  | xstart (t : Byte)
  | xend (r : Byte)
  | tick
  | done (op : Byte) (rsp : List Byte)
deriving DecidableEq, Repr

/-- An input of the environment as plain data: the values still `given`, and how many free values were `drawn` after those ran
out (DESIGN CHOICE, assumption log 2). -/
structure Feed (α : Type) where
  given : List α
  drawn : ℕ
deriving DecidableEq, Repr

/-- The state of the block (10_state.md R25) with the configuration and the environment's inputs beside it. -/
structure State where
  /-- the OPEN parameters; no step but a reset with other parameters writes them (DESIGN CHOICE, assumption log 1) -/
  cfg : Params
  /-- TXDR (R26) -/
  txdr : Byte
  /-- RXDR (R27) -/
  rxdr : Byte
  /-- SHTX (R28) -/
  shtx : Byte
  /-- SHRX (R29) -/
  shrx : Byte
  /-- TICKCNT (R30) -/
  tickcnt : Word
  /-- RXNE (R36) -/
  rxne : Bool
  /-- TXPEND (R37) -/
  txpend : Bool
  /-- SHBUSY (R38) -/
  shbusy : Bool
  /-- EDGE (R38) -/
  edge : BitVec 5
  /-- CLKEN (R41) -/
  clken : BitVec 2
  /-- PINCFG (R42) -/
  pincfg : BitVec 8
  /-- SPICFG (R43) -/
  spicfg : BitVec 16
  /-- CSOUT.LEVEL, true = 1 = Idle (R47) -/
  csout : Bool
  /-- TGCTRL.EN (R48) -/
  tgen : Bool
  /-- TGPERIOD (R49) -/
  tgperiod : Word
  /-- pin SCK (R51) -/
  sck : Level
  /-- pin MOSI (R52) -/
  mosi : Level
  /-- SEQ.BUSY (R34) -/
  busy : Bool
  /-- SEQ.OP (R31) -/
  op : Byte
  /-- SEQ.A0 (R31) -/
  a0 : Word
  /-- SEQ.A1 (R31) -/
  a1 : Byte
  /-- SEQ.TXBUF, 255 bytes (R31, R63) -/
  txbuf : List Byte
  /-- SEQ.RSP (R31, R63) -/
  rsp : List Byte
  /-- SEQ.CONT (R34) -/
  cont : List MicroOp
  /-- the response port (R55, R74): the model's own field (DESIGN CHOICE, assumption log 8) -/
  respPort : Option (List Byte)
  /-- HIST (R58) -/
  hist : List Event
  /-- HOST's packets still to be issued (R33, DESIGN CHOICE, assumption log 2) -/
  packets : Feed Packet
  /-- the schedule still to be followed (DESIGN CHOICE, assumption log 2) -/
  sched : Feed Turn
  /-- RESPONDER's MISO levels still to be supplied (43_shifter.md R186, DESIGN CHOICE, assumption log 2) -/
  miso : Feed Bool
deriving DecidableEq, Repr

/-- The machine right after reset (10_state.md R59, 70_reset_and_hazards.md R220), in an environment that names no input yet
(DESIGN CHOICE, assumption logs 1 and 2). -/
def State.reset : State where
  cfg := Config.params
  txdr := 0x00
  rxdr := 0x00
  shtx := 0x00
  shrx := 0x00
  tickcnt := 0
  rxne := false
  txpend := false
  shbusy := false
  edge := 0
  clken := 0b00
  pincfg := 0x00
  spicfg := 0x0000
  csout := true
  tgen := false
  tgperiod := 0
  sck := .u
  mosi := .u
  busy := false
  op := 0x00
  a0 := 0
  a1 := 0x00
  txbuf := List.replicate maxCount 0x00
  rsp := []
  cont := []
  respPort := none
  hist := []
  packets := ⟨[], 0⟩
  sched := ⟨[], 0⟩
  miso := ⟨[], 0⟩

end Sys2Proof.Machine
end

