-- ==== Sys2Proof/Machine/Flags.lean ====
section
/-! DEFINITION. The flags, the fields of the control registers, and the views of registers that have no storage of their own
(10_state.md sections 4 to 6). -/

namespace Sys2Proof.Machine

/-- TXE, derived: no byte waits in TXDR and no frame is in flight (10_state.md R35). -/
def txe (s : State) : Bool := !s.txpend && !s.shbusy

/-- The flag FlagCheck reads (42_transactions.md R151). -/
def flagValue (f : Flag) (s : State) : Bool :=
  match f with
  | .txe => txe s
  | .rxne => s.rxne

/-- SPISR: bit 0 RXNE, bit 1 TXE (10_state.md R45). -/
def spisr (s : State) : BitVec 2 := BitVec.ofBool (txe s) ++ BitVec.ofBool s.rxne

/-- CLKEN.SPI, bit 0 (10_state.md R41). -/
def clkenSpi (s : State) : Bool := s.clken.getLsbD 0

/-- CLKEN.GPIO, bit 1 (10_state.md R41). -/
def clkenGpio (s : State) : Bool := s.clken.getLsbD 1

/-- SPICFG.CPHA, bit 0 (10_state.md R43). -/
def spicfgCpha (s : State) : Bool := s.spicfg.getLsbD 0

/-- SPICFG.CPOL, bit 1 (10_state.md R43). -/
def spicfgCpol (s : State) : Bool := s.spicfg.getLsbD 1

/-- SPICFG.MSTR, bit 2 (10_state.md R43). -/
def spicfgMstr (s : State) : Bool := s.spicfg.getLsbD 2

/-- SPICFG.BR, bits 5:3 (10_state.md R43). -/
def spicfgBr (s : State) : BitVec 3 := s.spicfg.extractLsb' 3 3

/-- SPICFG.SPE, bit 6 (10_state.md R43). -/
def spicfgSpe (s : State) : Bool := s.spicfg.getLsbD 6

/-- SPICFG.LSBFIRST, bit 7 (10_state.md R43). -/
def spicfgLsbfirst (s : State) : Bool := s.spicfg.getLsbD 7

/-- SPICFG.SSM, bit 8 (10_state.md R43). -/
def spicfgSsm (s : State) : Bool := s.spicfg.getLsbD 8

/-- SPICFG.DFF16, bit 9 (10_state.md R43). -/
def spicfgDff16 (s : State) : Bool := s.spicfg.getLsbD 9

/-- SPICFG.FDX, bit 10 (10_state.md R43). -/
def spicfgFdx (s : State) : Bool := s.spicfg.getLsbD 10

/-- SPICFG's reserved bits 15:11 (10_state.md R43). -/
def spicfgReserved (s : State) : BitVec 5 := s.spicfg.extractLsb' 11 5

/-- What INIT writes into SPICFG: `0x0544 | (BR_CFG << 3) | (CPOL_CFG << 1) | CPHA_CFG` (10_state.md R43, 41_init_cs.md R136). -/
def spicfgInit (p : Params) : BitVec 16 :=
  0x0544#16 ||| (p.br.setWidth 16 <<< 3) ||| ((BitVec.ofBool p.cpol).setWidth 16 <<< 1) ||| (BitVec.ofBool p.cpha).setWidth 16

/-- The mode field of PINCFG at bits `2 * i + 1 : 2 * i`, pins in the order SCK, MOSI, MISO, CS; codes 0 UNCONF, 1 AF_OUT,
2 FLOAT_IN, 3 GP_OUT (10_state.md R42). -/
def pinMode (i : ℕ) (s : State) : BitVec 2 := s.pincfg.extractLsb' (2 * i) 2

/-- What INIT writes into PINCFG: SCK = AF_OUT, MOSI = AF_OUT, MISO = FLOAT_IN, CS = GP_OUT (10_state.md R42). -/
def pincfgInit : BitVec 8 := 0xE5

/-- Pin CS, always equal to CSOUT.LEVEL (10_state.md R54). -/
def csPin (s : State) : Bool := s.csout

/-- The registers by number, as a trace or a debugger view names them (10_state.md R40); no command uses a number. SPIDR shows
its read side RXDR (R46). -/
def regView (number : ℕ) (s : State) : Option Word :=
  match number with
  | 0 => some (s.clken.setWidth 32)
  | 1 => some (s.pincfg.setWidth 32)
  | 2 => some (s.spicfg.setWidth 32)
  | 3 => some ((spisr s).setWidth 32)
  | 4 => some (s.rxdr.setWidth 32)
  | 5 => some ((BitVec.ofBool s.csout).setWidth 32)
  | 6 => some ((BitVec.ofBool s.tgen).setWidth 32)
  | 7 => some s.tgperiod
  | 8 => some s.tickcnt
  | _ => none

/-- A driven level of a 1-bit output. -/
def levelOfBit (b : Bool) : Level := if b then .high else .low

/-- `not SCK` (43_shifter.md R177). The complement of U stays U; R183 shows that no EDGE step meets it (DESIGN CHOICE, assumption log 13). -/
def levelNot : Level → Level
  | .low => .high
  | .high => .low
  | .u => .u

end Sys2Proof.Machine
end

