-- ==== Sys2Proof/Machine/Operands.lean ====
section
/-! DEFINITION. Operand forms: how each packet format is latched (30_encoding.md R96), where a micro-step's operand comes from
(42_transactions.md R171), and the two byte buffers SEQ.TXBUF and SEQ.RSP (20_memory.md R63). -/

namespace Sys2Proof.Machine

/-- DUMMY, "all-ones" (00_scope.md section 5, 42_transactions.md R159). -/
def dummyByte : Byte := 0xFF

/-- PIN_CS, the one recognised pin identifier (00_scope.md R19). -/
abbrev pinCs : Byte := 0x01

/-- SEC_MS, the one-millisecond delays of the one-second delay (40_timing.md R124). -/
abbrev secMs : ℕ := 1000

/-- One byte of a buffer. An index beyond the buffer, which no loop counter reaches (20_memory.md R63), reads 0
(DESIGN CHOICE, assumption log 12). -/
def bufRead (buf : List Byte) (i : ℕ) : Byte := buf.getD i 0

/-- `MemWrite(j, 1, b)` into SEQ.RSP (20_memory.md R74): within the list the element is replaced, at its end it is appended. A
gap, which no command leaves, is filled with 0 (DESIGN CHOICE, assumption log 12). -/
def bufWrite (buf : List Byte) (j : ℕ) (b : Byte) : List Byte :=
  if j < buf.length then buf.set j b else buf ++ List.replicate (j - buf.length) 0 ++ [b]

/-- The loops of formats V and X: `SEQ.TXBUF[i] <- d[i]` for every data byte; the other elements keep their value
(30_encoding.md R96, DEDUCED, assumption log 15). -/
def bufLoad (buf data : List Byte) : List Byte := data ++ buf.drop data.length

/-- The byte a SendByte micro-step sends (42_transactions.md R171). -/
def readByteSrc (src : ByteSrc) (s : State) : Byte :=
  match src with
  | .value => s.a0.setWidth 8
  | .dummy => dummyByte
  | .txbuf i => bufRead s.txbuf i

/-- The duration a SetTick micro-step sets (40_timing.md R121, R124). -/
def readWordSrc (src : WordSrc) (s : State) : Word :=
  match src with
  | .operand => s.a0
  | .one => 1

/-- Format Z latches the opcode alone (30_encoding.md R96). -/
def latchZ (o : Opcode) (s : State) : State :=
  { s with op := opcodeByte o }

/-- Format B: `SEQ.A0 <- zext_32(b)` (30_encoding.md R96). -/
def latchB (o : Opcode) (b : Byte) (s : State) : State :=
  { s with op := opcodeByte o, a0 := b.setWidth 32 }

/-- Format C: `SEQ.A0 <- zext_32(command)`, `SEQ.A1 <- length` (30_encoding.md R96). -/
def latchC (o : Opcode) (command length : Byte) (s : State) : State :=
  { s with op := opcodeByte o, a0 := command.setWidth 32, a1 := length }

/-- Format W: `SEQ.A0 <- n` (30_encoding.md R96). -/
def latchW (o : Opcode) (n : Word) (s : State) : State :=
  { s with op := opcodeByte o, a0 := n }

/-- Format V: `SEQ.A0 <- n`, then the data bytes (30_encoding.md R96). -/
def latchV (o : Opcode) (data : List Byte) (s : State) : State :=
  { s with op := opcodeByte o, a0 := BitVec.ofNat 32 data.length, txbuf := bufLoad s.txbuf data }

/-- Format X: `SEQ.A0 <- txlen`, `SEQ.A1 <- rxlen`, then the data bytes (30_encoding.md R96). -/
def latchX (o : Opcode) (data : List Byte) (rxlen : Byte) (s : State) : State :=
  { s with op := opcodeByte o, a0 := BitVec.ofNat 32 data.length, a1 := rxlen, txbuf := bufLoad s.txbuf data }

end Sys2Proof.Machine
end

