-- ==== Sys2Proof/Machine/Ops.lean ====
section
/-! DEFINITION. The register-level primitives (42_transactions.md section 2, 40_timing.md sections 2 and 4, 41_init_cs.md section
3), issue and completion of a command (20_memory.md section 5), the tick interrupt with its return (60_exceptions.md sections 4
to 6), reset (70_reset_and_hazards.md R220) and the environment's inputs. -/

namespace Sys2Proof.Machine

/-- DriveCS(level), true = 1 (41_init_cs.md R138): an event only when the level changes; nothing else is read or written. -/
def driveCS (level : Bool) (s : State) : State :=
  { s with
    csout := level
    hist := s.hist ++ (if s.csout = level then [] else [if level then Event.csh else Event.csl]) }

/-- The guard of ApplyInit: an enabled peripheral with a transfer under way (41_init_cs.md R136, R147). -/
def initBlocked (s : State) : Bool := spicfgSpe s && !txe s

/-- ApplyInit past its guard (41_init_cs.md R136). -/
def applyInit (s : State) : State :=
  { driveCS true s with
    clken := 0b11
    pincfg := pincfgInit
    spicfg := spicfgInit s.cfg
    sck := levelOfBit s.cfg.cpol }

/-- SendByte(v): unconditional; sets TXPEND, so TXE becomes 0 (42_transactions.md R152). -/
def sendByte (v : Byte) (s : State) : State :=
  { s with txdr := v, txpend := true }

/-- ReceiveByte() with the MemWrite that is part of its step: returns RXDR as it stands, clears RXNE, and stores the byte at
`dst` of SEQ.RSP or drops it (42_transactions.md R153, R159; 20_memory.md R74). -/
def receiveByte (dst : Option ℕ) (s : State) : State :=
  { s with
    rxne := false
    rsp := match dst with
      | none => s.rsp
      | some j => bufWrite s.rsp j s.rxdr }

/-- P, the core-clock cycles per millisecond (40_timing.md R116). -/
abbrev tickPeriod (p : Params) : ℕ := p.coreClkHz / 1000

/-- Whether TickStart returns OK: the period can be represented in the tick generator's range (40_timing.md R116). -/
def tickArmable (p : Params) : Bool := 1 ≤ tickPeriod p && tickPeriod p ≤ p.tgPeriodMax

/-- What TGPERIOD holds for a representable period: the period itself, and a free value where it has more than 32 bits
(10_state.md R49, DESIGN CHOICE, assumption log 7). -/
def periodWord (n : ℕ) : Word := if n < 2 ^ 32 then BitVec.ofNat 32 n else Config.widePeriod n

/-- TickStart(): on FAIL no state is changed (40_timing.md R116). -/
def tickStart (s : State) : State :=
  { s with
    tgperiod := if tickArmable s.cfg then periodWord (tickPeriod s.cfg) else s.tgperiod
    tgen := tickArmable s.cfg || s.tgen }

/-- SetTick(n) (40_timing.md R119). -/
def setTick (n : Word) (s : State) : State :=
  { s with tickcnt := n }

/-- The value ReadTick() returns (40_timing.md R120). -/
def readTick (s : State) : Word := s.tickcnt

/-- The number of SpinIter steps of DLYUS n: `(US_LOOP_K * n) mod 2^32` (40_timing.md R127). -/
def spinCount (p : Params) (n : Word) : ℕ := (p.usLoopK * n.toNat) % 2 ^ 32

/-- The bytes handed to HOST at completion: SEQ.RSP[0 … len−1], len being the `length` of RD or the `rxlen` of WRRD, and the
empty list for every other command (20_memory.md R74). -/
def response (s : State) : List Byte :=
  if s.op = opcodeByte .rd ∨ s.op = opcodeByte .wrrd then s.rsp.take s.a1.toNat else []

/-- Completion: SEQ clears SEQ.BUSY, appends DONE to HIST and hands HOST the response (20_memory.md R74). The latches keep
their values (10_state.md R31, DEDUCED, assumption log 15). -/
def complete (s : State) : State :=
  { s with
    busy := false
    cont := []
    respPort := some (response s)
    hist := s.hist ++ [Event.done s.op (response s)] }

/-- SEQ goes on with the pending micro-steps `rest`: "if no further primitive follows on the path taken, completes the command
in the same step" (42_transactions.md R150). -/
def continueWith (rest : List MicroOp) (s : State) : State :=
  match rest with
  | [] => complete s
  | op :: ops => { s with cont := op :: ops }

/-- The part of HOST's issue step that every command shares: SEQ.RSP is emptied and SEQ.BUSY set (20_memory.md R73); nothing
is on the response port until the command completes. -/
def beginCommand (s : State) : State :=
  { s with busy := true, rsp := [], respPort := none }

/-- HOST's issue step (20_memory.md R73): guard SEQ.BUSY = 0; the packet is latched and SEQ.CONT loaded with the command's
micro-steps `prog`; a command without any completes in this step. -/
def issue (latch : State → State) (prog : List MicroOp) (s : State) : Host.Outcome State Fault Refusal :=
  if s.busy then .refused .commandInExecution
  else .next (continueWith prog (beginCommand (latch s)))

/-- The tick interrupt: entry has no effect (60_exceptions.md R202), the handler decrements TICKCNT if and only if it is
nonzero and is recorded in HIST (R203), and the return restores nothing because nothing was saved (R204). -/
def takeTick (s : State) : State :=
  { s with
    tickcnt := if s.tickcnt = 0 then 0 else s.tickcnt - 1
    hist := s.hist ++ [Event.tick] }

/-- RST: every state element of the block takes its reset value (70_reset_and_hazards.md R220). The parameters are the ones the
reset comes with, where it comes with other ones: "the only road to another clock mode or divider" (R243). The environment's
inputs are no state elements of the block (DEDUCED, assumption log 9). -/
def resetBlock (params : Option Params) (s : State) : State :=
  { State.reset with cfg := params.getD s.cfg, packets := s.packets, sched := s.sched, miso := s.miso }

/-- The next value of an environment input: the next given one, then free ones (DESIGN CHOICE, assumption log 2). -/
def feedHead {α : Type} (free : ℕ → α) (f : Feed α) : α :=
  match f.given with
  | [] => free f.drawn
  | a :: _ => a

/-- The input after its next value has been taken. -/
def feedTail {α : Type} (f : Feed α) : Feed α :=
  match f.given with
  | [] => ⟨[], f.drawn + 1⟩
  | _ :: as => ⟨as, f.drawn⟩

/-- The agent the schedule offers the next step. -/
def nextTurn (s : State) : Turn := feedHead Config.freeTurn s.sched

/-- The schedule moves on. -/
def dropTurn (s : State) : State := { s with sched := feedTail s.sched }

/-- The packet HOST issues next. -/
def nextPacket (s : State) : Packet := feedHead Config.freePacket s.packets

/-- HOST has presented its packet. -/
def dropPacket (s : State) : State := { s with packets := feedTail s.packets }

/-- `input MISO` (43_shifter.md R186). -/
def nextMiso (s : State) : Bool := feedHead Config.freeMiso s.miso

end Sys2Proof.Machine
end

