-- ==== Sys2Proof/Machine/Sequencer.lean ====
section
/-! DEFINITION. The sequencer: the procedures of 42_transactions.md section 4 as lists of micro-steps, and the SEQ step that
performs the next one (R150). -/

namespace Sys2Proof.Machine

/-- PollFlag(f), none of its checks done (42_transactions.md R154). -/
def pollFlag (f : Flag) : List MicroOp := [.flagCheck f 0]

/-- WriteByteProc(v): send, then poll TXE (42_transactions.md R155). -/
def writeByteProc (src : ByteSrc) : List MicroOp := .sendByte src :: pollFlag .txe

/-- ReadByteProc(): poll RXNE, then read whichever way the poll ended (42_transactions.md R156). -/
def readByteProc (dst : Option ℕ) : List MicroOp := pollFlag .rxne ++ [.receiveByte dst]

/-- ExchangeByte(v) (42_transactions.md R157). -/
def exchangeByte (src : ByteSrc) (dst : Option ℕ) : List MicroOp := writeByteProc src ++ readByteProc dst

/-- The transmit loop over SEQ.TXBUF[0 … n−1] (42_transactions.md R160, R161). -/
def transmitLoop (n : ℕ) : List MicroOp := (List.range n).flatMap fun i => writeByteProc (.txbuf i)

/-- The loop that clocks `n` bytes out of the responder into SEQ.RSP (42_transactions.md R159, R161). -/
def receiveLoop (n : ℕ) : List MicroOp := (List.range n).flatMap fun i => exchangeByte .dummy (some i)

/-- The body of DLYMS (40_timing.md R121): on FAIL the two pending micro-steps of the body are dropped. -/
def delayBody (src : WordSrc) : List MicroOp := [.tickStart 2, .setTick src, .readTick]

/-- The SpinIter loop of DLYUS with `n` steps to run (40_timing.md R127). -/
def spinLoop (n : ℕ) : List MicroOp := if n = 0 then [] else [.spinIter n]

/-- One FlagCheck of a poll, `count` checks being done already: a set flag ends the poll, and so does the RETRY_BUDGET-th
check, silently (42_transactions.md R154). -/
def afterFlagCheck (f : Flag) (count : ℕ) (rest : List MicroOp) (s : State) : List MicroOp :=
  if flagValue f s || s.cfg.retryBudget ≤ count + 1 then rest else .flagCheck f (count + 1) :: rest

/-- One micro-step with the micro-steps `rest` behind it (42_transactions.md R150 and the rule of each primitive). -/
def microStep (op : MicroOp) (rest : List MicroOp) (s : State) : Host.Outcome State Fault Refusal :=
  match op with
  | .applyInit => if initBlocked s then .refused .initDuringTransfer else .next (continueWith rest (applyInit s))
  | .driveCS level => .next (continueWith rest (driveCS level s))
  | .sendByte src => .next (continueWith rest (sendByte (readByteSrc src s) s))
  | .flagCheck f count => .next (continueWith (afterFlagCheck f count rest s) s)
  | .receiveByte dst => .next (continueWith rest (receiveByte dst s))
  | .tickStart onFail => .next (continueWith (if tickArmable s.cfg then rest else rest.drop onFail) (tickStart s))
  | .setTick src => .next (continueWith rest (setTick (readWordSrc src s) s))
  | .readTick => .next (continueWith (if readTick s = 0 then rest else .readTick :: rest) s)
  | .spinIter left => .next (continueWith (if left ≤ 1 then rest else .spinIter (left - 1) :: rest) s)

/-- The SEQ step, enabled iff SEQ.BUSY = 1 (42_transactions.md R150); an offer to an idle sequencer changes nothing (DESIGN CHOICE, assumption
log 3). A busy sequencer with nothing pending, which no run reaches, completes (DESIGN CHOICE, assumption log 12). -/
def seqStep (s : State) : Host.Outcome State Fault Refusal :=
  if s.busy then
    match s.cont with
    | [] => .next (complete s)
    | op :: rest => microStep op rest s
  else .next s

/-- SEQ.PH: the phase inside the command, which is the micro-step to perform next (10_state.md R34, DEDUCED, assumption log 5). -/
def seqPH (s : State) : Option MicroOp := s.cont.head?

/-- SEQ.K: flag checks done in the current poll (10_state.md R34). -/
def seqK (s : State) : ℕ :=
  match s.cont with
  | .flagCheck _ count :: _ => count
  | _ => 0

/-- SEQ.N: DLYUS iterations left (10_state.md R34). -/
def seqN (s : State) : ℕ :=
  match s.cont with
  | .spinIter left :: _ => left
  | _ => 0

/-- A TXE poll: the last micro-step of every WriteByteProc. -/
def isTxePoll : MicroOp → Bool
  | .flagCheck .txe _ => true
  | _ => false

/-- A ReceiveByte that stores its byte in SEQ.RSP. -/
def isStore : MicroOp → Bool
  | .receiveByte (some _) => true
  | _ => false

/-- A ReadTick spin: the last micro-step of every armed delay body. -/
def isSpin : MicroOp → Bool
  | .readTick => true
  | _ => false

/-- SEQ.I: the byte index of the loop in progress (10_state.md R34): in RD and in WRRD's receive phase the dummy exchanges
completed, in WRA and in WRRD's transmit phase the WriteByteProcs completed; 0 in every other command. -/
def seqI (s : State) : ℕ :=
  let writes := s.cont.countP isTxePoll
  let stores := s.cont.countP isStore
  if s.busy then
    if s.op = opcodeByte .rd then s.a1.toNat - stores
    else if s.op = opcodeByte .wra then s.a0.toNat - writes
    else if s.op = opcodeByte .wrrd then
      if s.a1.toNat < writes then s.a0.toNat + s.a1.toNat - writes else s.a1.toNat - stores
    else 0
  else 0

/-- SEQ.M: the repetitions of DLYS completed (10_state.md R34); 0 in every other command. -/
def seqM (s : State) : ℕ :=
  if s.busy && s.op = opcodeByte .dlys then secMs - s.cont.countP isSpin else 0

end Sys2Proof.Machine
end

