-- ==== Sys2Proof/Machine/InitCs.lean ====
section
/-! DEFINITION. The meanings of INIT, SEL, DESEL, OUTLO and OUTHI (41_init_cs.md). A meaning is HOST's issue of the command: the
latched packet and the command's micro-steps, which SEQ then performs one by one (20_memory.md R73, 42_transactions.md R150). -/

namespace Sys2Proof.Machine

/-- INIT: one ApplyInit (41_init_cs.md R136). -/
def execInit (s : State) : Host.Outcome State Fault Refusal :=
  issue (latchZ .init) [.applyInit] s

/-- SEL: one DriveCS(0) (41_init_cs.md R139). -/
def execSel (s : State) : Host.Outcome State Fault Refusal :=
  issue (latchZ .sel) [.driveCS false] s

/-- DESEL: one DriveCS(1) (41_init_cs.md R140). -/
def execDesel (s : State) : Host.Outcome State Fault Refusal :=
  issue (latchZ .desel) [.driveCS true] s

/-- OUTLO pin: DriveCS(0) for PIN_CS, no micro-step for any other pin (41_init_cs.md R141, DEDUCED, assumption log 17). -/
def execOutlo (pin : Byte) (s : State) : Host.Outcome State Fault Refusal :=
  issue (latchB .outlo pin) (if pin = pinCs then [.driveCS false] else []) s

/-- OUTHI pin: DriveCS(1) for PIN_CS, no micro-step for any other pin (41_init_cs.md R142, DEDUCED, assumption log 17). -/
def execOuthi (pin : Byte) (s : State) : Host.Outcome State Fault Refusal :=
  issue (latchB .outhi pin) (if pin = pinCs then [.driveCS true] else []) s

end Sys2Proof.Machine
end

