-- ==== Sys2Proof/Machine/Timing.lean ====
section
/-! DEFINITION. The meanings of TKSTART, DLYMS, DLYUS and DLYS (40_timing.md): HOST's issue of the command with the micro-steps of
its pseudocode. -/

namespace Sys2Proof.Machine

/-- TKSTART: one TickStart, its result discarded (40_timing.md R117). -/
def execTkstart (s : State) : Host.Outcome State Fault Refusal :=
  issue (latchZ .tkstart) [.tickStart 0] s

/-- DLYMS n: arm, set, spin (40_timing.md R121). -/
def execDlyms (n : Word) (s : State) : Host.Outcome State Fault Refusal :=
  issue (latchW .dlyms n) (delayBody .operand) s

/-- DLYUS n: the calibrated number of SpinIter steps (40_timing.md R127, DEDUCED, assumption log 16). -/
def execDlyus (n : Word) (s : State) : Host.Outcome State Fault Refusal :=
  issue (latchW .dlyus n) (spinLoop (spinCount s.cfg n)) s

/-- DLYS: a thousand bodies of DLYMS 1 (40_timing.md R124). -/
def execDlys (s : State) : Host.Outcome State Fault Refusal :=
  issue (latchZ .dlys) (List.replicate secMs (delayBody .one)).flatten s

end Sys2Proof.Machine
end

