-- ==== Sys2Proof/Machine/Transactions.lean ====
section
/-! DEFINITION. The meanings of WRB, RD, WRA and WRRD (42_transactions.md sections 5 to 8): HOST's issue of the command with the
micro-steps of its pseudocode. -/

namespace Sys2Proof.Machine

/-- WRB value (42_transactions.md R158). -/
def execWrb (value : Byte) (s : State) : Host.Outcome State Fault Refusal :=
  issue (latchB .wrb value) (writeByteProc .value) s

/-- RD command, length: the command's exchange, whose byte is dropped, then `length` dummy exchanges (42_transactions.md R159). -/
def execRd (command length : Byte) (s : State) : Host.Outcome State Fault Refusal :=
  issue (latchC .rd command length) (exchangeByte .value none ++ receiveLoop length.toNat) s

/-- WRA: a WriteByteProc per data byte (42_transactions.md R160). -/
def execWra (data : List Byte) (s : State) : Host.Outcome State Fault Refusal :=
  issue (latchV .wra data) (transmitLoop data.length) s

/-- WRRD: the transmit phase, then `rxlen` dummy exchanges (42_transactions.md R161). -/
def execWrrd (data : List Byte) (rxlen : Byte) (s : State) : Host.Outcome State Fault Refusal :=
  issue (latchX .wrrd data rxlen) (transmitLoop data.length ++ receiveLoop rxlen.toNat) s

end Sys2Proof.Machine
end

