-- ==== Sys2Proof/Machine/Dispatch.lean ====
section
/-! DEFINITION. One arm per command. -/

namespace Sys2Proof.Machine

def exec (i : Instr) (s : State) : Host.Outcome State Fault Refusal :=
  match i with
  | .init => Sys2Proof.Machine.execInit s
  | .sel => Sys2Proof.Machine.execSel s
  | .desel => Sys2Proof.Machine.execDesel s
  | .outlo pin => Sys2Proof.Machine.execOutlo pin s
  | .outhi pin => Sys2Proof.Machine.execOuthi pin s
  | .wrb value => Sys2Proof.Machine.execWrb value s
  | .rd command length => Sys2Proof.Machine.execRd command length s
  | .wra data => Sys2Proof.Machine.execWra data s
  | .wrrd data rxlen => Sys2Proof.Machine.execWrrd data rxlen s
  | .tkstart => Sys2Proof.Machine.execTkstart s
  | .dlyms n => Sys2Proof.Machine.execDlyms n s
  | .dlyus n => Sys2Proof.Machine.execDlyus n s
  | .dlys => Sys2Proof.Machine.execDlys s

end Sys2Proof.Machine
end

