-- ==== Sys2Proof/Machine/Shifter.lean ====
section
/-! DEFINITION. The agent SHIFTER: LOAD, EDGE and END of one 8-bit full-duplex frame (43_shifter.md). -/

namespace Sys2Proof.Machine

/-- The SCK transitions of a frame: two per bit slot, eight slots (43_shifter.md R177). -/
abbrev frameEdges : ℕ := 16

/-- The guard of LOAD (43_shifter.md R176). -/
def loadEnabled (s : State) : Bool := clkenSpi s && spicfgSpe s && s.txpend && !s.shbusy

/-- The guard of EDGE (43_shifter.md R177). -/
def edgeEnabled (s : State) : Bool := s.shbusy && s.edge.toNat < frameEdges

/-- The guard of END (43_shifter.md R180). -/
def endEnabled (s : State) : Bool := s.shbusy && s.edge.toNat = frameEdges

/-- LOAD: start a frame; with CPHA = 0 the first bit is out at once (43_shifter.md R176). -/
def shifterLoad (s : State) : State :=
  { s with
    shtx := s.txdr
    txpend := false
    shbusy := true
    edge := 0
    mosi := if spicfgCpha s then s.mosi else levelOfBit (s.txdr.getLsbD 7)
    hist := s.hist ++ [Event.xstart s.txdr] }

/-- Bit slot `c` of the next transition: `c = (k − 1) div 2`, k = EDGE + 1 (43_shifter.md R177). -/
def bitSlot (s : State) : ℕ := s.edge.toNat / 2

/-- Whether the next transition is a leading edge: k = EDGE + 1 is odd (43_shifter.md R177). -/
def leadingEdge (s : State) : Bool := s.edge.toNat % 2 = 0

/-- Whether the next transition samples MISO: the leading ones with CPHA = 0, the trailing ones with CPHA = 1
(43_shifter.md R178, R179). -/
def samplesNext (s : State) : Bool := leadingEdge s != spicfgCpha s

/-- MOSI after the next transition (43_shifter.md R178, R179): with CPHA = 1 a leading edge presents bit 7 − c; with CPHA = 0 a
trailing edge presents bit 6 − c while c < 7 and leaves the line alone after the last slot. -/
def mosiAfterEdge (s : State) : Level :=
  if samplesNext s then s.mosi
  else if spicfgCpha s then levelOfBit (s.shtx.getLsbD (7 - bitSlot s))
  else if bitSlot s < 7 then levelOfBit (s.shtx.getLsbD (6 - bitSlot s))
  else s.mosi

/-- `SHRX[6:0] ++ m` (43_shifter.md R178, R179). -/
def shiftIn (r : Byte) (m : Bool) : Byte := (r.setWidth 7).concat m

/-- EDGE: one transition of SCK with the sample or the shift that belongs to it, atomically (43_shifter.md R177). A sampling
transition takes one bit from RESPONDER (R186). -/
def shifterEdge (s : State) : State :=
  { s with
    sck := levelNot s.sck
    mosi := mosiAfterEdge s
    shrx := if samplesNext s then shiftIn s.shrx (nextMiso s) else s.shrx
    miso := if samplesNext s then feedTail s.miso else s.miso
    edge := s.edge + 1 }

/-- END: finish a frame, overwriting RXDR whatever RXNE says (43_shifter.md R180). -/
def shifterEnd (s : State) : State :=
  { s with
    rxdr := s.shrx
    rxne := true
    shbusy := false
    edge := 0
    hist := s.hist ++ [Event.xend s.shrx] }

/-- The SHIFTER step: the one of the three that is enabled (43_shifter.md R175); an offer with none enabled changes nothing
(DESIGN CHOICE, assumption log 3). -/
def shifterStep (s : State) : State :=
  if loadEnabled s then shifterLoad s
  else if edgeEnabled s then shifterEdge s
  else if endEnabled s then shifterEnd s
  else s

end Sys2Proof.Machine
end

