-- ==== Sys2Proof/Machine/Agents.lean ====
section
/-! DEFINITION. The step of each agent (00_scope.md R10, INDEX.md "How to read the spec"): HOST, SEQ, SHIFTER, TICK and the
environment's reset. -/

namespace Sys2Proof.Machine

/-- The refusal of a packet that has no behaviour (30_encoding.md R99, R100). -/
def refusalOf : DecodeError → Refusal
  | .reservedOpcode => .reservedOpcode
  | .badPacketLength => .badPacketLength

/-- HOST's step: while a command is in execution HOST waits and keeps its packet; otherwise it issues the packet
(20_memory.md R73). -/
def hostStep (s : State) : Host.Outcome State Fault Refusal :=
  if s.busy then .next s
  else
    match decode (nextPacket s) with
    | .ok i => exec i (dropPacket s)
    | .error e => .refused (refusalOf e)

/-- The TICK step, enabled iff TGCTRL.EN = 1 (60_exceptions.md R203). -/
def tickStep (s : State) : State := if s.tgen then takeTick s else s

/-- The step of the agent that is offered one; an offer whose guard is false changes nothing (DESIGN CHOICE, assumption log 3). -/
def turnStep (t : Turn) (s : State) : Host.Outcome State Fault Refusal :=
  match t with
  | .host => hostStep s
  | .seq => seqStep s
  | .shifter => .next (shifterStep s)
  | .tick => .next (tickStep s)
  | .rst params => .next (resetBlock params s)

/-- What placing a packet for the next step takes: HOST holds it as its next packet, the schedule offers HOST the next step,
and the sequencer is idle (20_memory.md R73, DESIGN CHOICE, assumption log 4). -/
def presentPacket (p : Packet) (s : State) : State :=
  { s with
    packets := ⟨p :: s.packets.given, s.packets.drawn⟩
    sched := ⟨Turn.host :: s.sched.given, s.sched.drawn⟩
    busy := false
    cont := [] }

end Sys2Proof.Machine
end

