-- ==== Sys2Proof/Machine/Step.lean ====
section
/-! DEFINITION. One step of the machine: the agent the schedule names takes its step (00_scope.md R11). -/

namespace Sys2Proof.Machine

/-- One step: the schedule names an agent and that agent steps. -/
def step (s : State) : Host.Outcome State Fault Refusal :=
  turnStep (nextTurn s) (dropTurn s)

/-- The state in which the next step issues the packet whose bits are `w` (DESIGN CHOICE, assumption log 4). -/
def State.withFetchWord (s : State) (nbits w : Nat) : State :=
  presentPacket (tablePacket nbits w) s

end Sys2Proof.Machine
end

