-- ==== Sys2Proof/Safety.lean ====
section
/-! DEFINITION. The terms claims are stated in: runs under a schedule, what a run performs, the conditions on states and the
premises and fairness of 70_reset_and_hazards.md sections 2 and 4, the invariants of R247, and well-formed host scripts (R225). -/

namespace Sys2Proof.Machine

/-- The run in which the agents of `ts` are offered steps in that order (00_scope.md R11), up to the first refusal. -/
def runTurns : List Turn → State → Host.Outcome State Fault Refusal
  | [], s => .next s
  | t :: ts, s =>
    match turnStep t s with
    | .next s' => runTurns ts s'
    | .fault r => .fault r
    | .refused r => .refused r

/-- The micro-step SEQ performs when `t` is offered a step (42_transactions.md R150). -/
def performed (t : Turn) (s : State) : List MicroOp :=
  if t = .seq ∧ s.busy = true then s.cont.head?.toList else []

/-- The micro-steps a run performs, in order; one entry per SEQ step. -/
def microTrace : List Turn → State → List MicroOp
  | [], _ => []
  | t :: ts, s =>
    performed t s ++
      match turnStep t s with
      | .next s' => microTrace ts s'
      | .fault _ => []
      | .refused _ => []

/-- A SendByte micro-step. -/
def isSend : MicroOp → Bool
  | .sendByte _ => true
  | _ => false

/-- A ReceiveByte micro-step. -/
def isReceive : MicroOp → Bool
  | .receiveByte _ => true
  | _ => false

/-- A FlagCheck micro-step. -/
def isFlagCheck : MicroOp → Bool
  | .flagCheck _ _ => true
  | _ => false

/-- The micro-steps that may write the chip-select line (41_init_cs.md R144). -/
def drivesChipSelect : MicroOp → Bool
  | .driveCS _ => true
  | .applyInit => true
  | _ => false

/-- The TICK events a trace has gained since `before`. -/
def ticksSince (before after : List Event) : ℕ := (after.drop before.length).count Event.tick

/-- Schedules in which neither HOST nor RST steps: what can happen while one command is in execution (20_memory.md R73,
70_reset_and_hazards.md R220). -/
abbrev DuringCommand (ts : List Turn) : Prop := ∀ t ∈ ts, t ≠ .host ∧ t.isReset = false

/-- "TXPEND = 0 and SHBUSY = 0" (42_transactions.md section 10). -/
abbrev Quiescent (s : State) : Prop := s.txpend = false ∧ s.shbusy = false

/-- INITED (70_reset_and_hazards.md R224). -/
abbrev Inited (s : State) : Prop :=
  s.clken = 0b11 ∧ s.pincfg = pincfgInit ∧ s.spicfg = spicfgInit s.cfg

/-- The transaction commands (70_reset_and_hazards.md R225). -/
def isTransaction : Instr → Bool
  | .wrb _ | .rd _ _ | .wra _ | .wrrd _ _ => true
  | .init | .sel | .desel | .outlo _ | .outhi _ | .tkstart | .dlyms _ | .dlyus _ | .dlys => false

/-- A transaction command is in execution. -/
def inTransaction (s : State) : Bool :=
  s.busy && [Opcode.wrb, .rd, .wra, .wrrd].any fun o => s.op = opcodeByte o

/-- The command HOST issues when `t` is offered a step (20_memory.md R73). -/
def issues (t : Turn) (s : State) : Option Instr :=
  if t = .host ∧ s.busy = false then (decode (nextPacket s)).toOption else none

/-- "INITED holds from the first transaction command on" (70_reset_and_hazards.md R245): in every state of the run from the issue
of the first one, or from its first state where one is in execution there; `begun` says that one came before. -/
def initedFrom : Bool → List Turn → State → Bool
  | begun, [], s => !(begun || inTransaction s) || Inited s
  | begun, t :: ts, s =>
    let begun := begun || inTransaction s || (issues t s).any isTransaction
    (!begun || Inited s) &&
      match turnStep t s with
      | .next s' => initedFrom begun ts s'
      | .fault _ => true
      | .refused _ => true

/-- The run after a SendByte contains the END of the frame that carries its byte, with at most `checks` FlagChecks before it
(70_reset_and_hazards.md R245); `loaded` says that the frame's LOAD has been taken. A run that ends before that END, a reset, or
a SendByte that overwrites the waiting byte leaves the byte without its frame. -/
def frameEnds : ℕ → Bool → List Turn → State → Bool
  | _, _, [], _ => false
  | checks, loaded, t :: ts, s =>
    if loaded = true ∧ t = .shifter ∧ endEnabled s = true then true
    else
      let polls := (performed t s).countP isFlagCheck
      polls ≤ checks && !t.isReset && (loaded || !(performed t s).any isSend) &&
        match turnStep t s with
        | .next s' => frameEnds (checks - polls) (loaded || (t = .shifter && loadEnabled s)) ts s'
        | .fault _ => false
        | .refused _ => false

/-- For every SendByte of the run, the END of its byte's frame comes with at most `bound` FlagChecks between them. -/
def framesEndWithin (bound : Params → ℕ) : List Turn → State → Bool
  | [], _ => true
  | t :: ts, s =>
    match turnStep t s with
    | .next s' =>
      (!(performed t s).any isSend || frameEnds (bound s.cfg) false ts s') && framesEndWithin bound ts s'
    | .fault _ => true
    | .refused _ => true

/-- Premise T1 of a run, "responsive" (70_reset_and_hazards.md R245): INITED holds from the first transaction command on, and the
frame of every SendByte ends before SEQ performs its RETRY_BUDGET-th FlagCheck after it (assumption log 14). -/
def responsive (ts : List Turn) (s : State) : Bool :=
  initedFrom false ts s && framesEndWithin (fun p => p.retryBudget - 1) ts s

/-- Every configuration that a run goes through meets `P`. -/
def paramsAlong (P : Params → Bool) : List Turn → State → Bool
  | [], s => P s.cfg
  | t :: ts, s =>
    P s.cfg &&
      match turnStep t s with
      | .next s' => paramsAlong P ts s'
      | .fault _ => true
      | .refused _ => true

/-- The parameter form of premise T1 (70_reset_and_hazards.md R245): POLLS_PER_FRAME_MAX < RETRY_BUDGET, where no more than
POLLS_PER_FRAME_MAX FlagChecks fall between a SendByte and the END of its frame. -/
def responsiveByParameter (ts : List Turn) (s : State) : Bool :=
  paramsAlong (fun p => p.pollsPerFrameMax < p.retryBudget) ts s && initedFrom false ts s &&
    framesEndWithin Params.pollsPerFrameMax ts s

/-- An infinite schedule: which agent is offered each step (00_scope.md R11). -/
abbrev Schedule := ℕ → Turn

/-- The first `n` offers of an infinite schedule. -/
def firstTurns (σ : Schedule) (n : ℕ) : List Turn := (List.range n).map σ

/-- The run under `σ` from `s` is in state `x` after `n` steps. -/
def RunAt (σ : Schedule) (s : State) (n : ℕ) (x : State) : Prop := runTurns (firstTurns σ n) s = .next x

/-- The run under `σ` from `s` is infinite: no step of it is refused. -/
def InfiniteRun (σ : Schedule) (s : State) : Prop := ∀ n, ∃ x, RunAt σ s n x

/-- Premise T1 of an infinite run (70_reset_and_hazards.md R245). -/
def ResponsiveRun (σ : Schedule) (s : State) : Prop :=
  (∀ n, initedFrom false (firstTurns σ n) s = true) ∧
    ∀ n x y, RunAt σ s n x → turnStep (σ n) x = .next y → (performed (σ n) x).any isSend = true →
      ∃ m, frameEnds (x.cfg.retryBudget - 1) false (firstTurns (fun k => σ (n + 1 + k)) m) y = true

/-- Weak fairness for one agent (70_reset_and_hazards.md R246 "weak fairness is enough"): whenever its step is enabled, it is
offered that step later on, or the step is no longer enabled at some later point. -/
def FairFor (enabled : State → Bool) (agent : Turn) (σ : Schedule) (s : State) : Prop :=
  ∀ n x, RunAt σ s n x → enabled x = true →
    ∃ m, n ≤ m ∧ (σ m = agent ∨ ∃ y, RunAt σ s m y ∧ enabled y = false)

/-- The guard of SHIFTER's step (43_shifter.md R175). -/
def shifterEnabled (s : State) : Bool := loadEnabled s || edgeEnabled s || endEnabled s

/-- F-SHIFT: "a SHIFTER step that is enabled is eventually taken" (70_reset_and_hazards.md R246). -/
abbrev FShift : Schedule → State → Prop := FairFor shifterEnabled .shifter

/-- F-TICK: "while TGCTRL.EN = 1, TICK steps occur infinitely often" (70_reset_and_hazards.md R246). -/
abbrev FTick : Schedule → State → Prop := FairFor State.tgen .tick

/-- F-SEQ: "while SEQ.BUSY = 1, SEQ steps occur infinitely often" (70_reset_and_hazards.md R246). -/
abbrev FSeq : Schedule → State → Prop := FairFor State.busy .seq

/-- Schedule S-EAGER of 95_test_vectors.md for `n` SEQ micro-steps: after every one of them the 18 SHIFTER steps of a whole
frame are offered (LOAD, sixteen EDGE, END; 43_shifter.md R175). -/
def eagerTurns (n : ℕ) : List Turn :=
  (List.replicate n (Turn.seq :: List.replicate 18 Turn.shifter)).flatten

/-- The frame events of a trace (10_state.md R58). -/
def isFrameEvent : Event → Bool
  | .xstart _ => true
  | .xend _ => true
  | _ => false

/-- The frames HIST records, as XSTART and XEND events in order. -/
def frameEvents (s : State) : List Event := s.hist.filter isFrameEvent

/-- The eight bits of a byte, most significant first: what a byte responder puts on MISO during a frame (43_shifter.md R187). -/
def byteBits (b : Byte) : List Bool := (List.range 8).map fun c => b.getLsbD (7 - c)

/-- The MISO inputs of a run in which RESPONDER answers with these bytes, one per frame (43_shifter.md R187). -/
def responderBits (bytes : List Byte) : List Bool := bytes.flatMap byteBits

/-- Pins that follow the clock-line rule (43_shifter.md R183). -/
def clockLevel (s : State) : Level :=
  levelOfBit (spicfgCpol s != (s.edge.toNat % 2 = 1))

/-- What the shifter and the configuration keep in every run: EDGE stays in its range and is 0 between frames (10_state.md R38),
the configuration registers hold their reset or their INIT values (10_state.md R44, 70_reset_and_hazards.md R224), a frame runs
only in an enabled peripheral, and SCK follows the clock-line rule (43_shifter.md R183). -/
structure WireInv (s : State) : Prop where
  edge_le : s.edge.toNat ≤ frameEdges
  edge_idle : s.shbusy = false → s.edge = 0
  config : (s.clken = 0 ∧ s.pincfg = 0 ∧ s.spicfg = 0) ∨ Inited s
  frame_enabled : s.shbusy = true → Inited s
  clock_line : Inited s → s.sck = clockLevel s

/-- A pending micro-step within its bounds: buffer indexes below 255 (20_memory.md R63), poll counters below the budget
(10_state.md R34, 42_transactions.md R154). -/
def microOpOk (p : Params) : MicroOp → Bool
  | .sendByte (.txbuf i) => i < maxCount
  | .receiveByte (some j) => j < maxCount
  | .flagCheck _ count => count < p.retryBudget
  | _ => true

/-- Every SetTick is directly followed by its spin (40_timing.md R121). -/
def setsThenSpins : List MicroOp → Bool
  | [] => true
  | .setTick _ :: rest => rest.head? = some .readTick && setsThenSpins rest
  | _ :: rest => setsThenSpins rest

/-- What the sequencer keeps in every run: SEQ is busy exactly while micro-steps are pending (42_transactions.md R150), the
buffers and the pending micro-steps stay in bounds (20_memory.md R63, 10_state.md R34), and TICKCNT is nonzero only during a
delay's spin (40_timing.md R123). -/
structure SeqInv (s : State) : Prop where
  busy_iff : s.busy = true ↔ s.cont ≠ []
  txbuf_length : s.txbuf.length = maxCount
  rsp_length : s.rsp.length ≤ maxCount
  ops_ok : s.cont.all (microOpOk s.cfg) = true
  sets_spin : setsThenSpins s.cont = true
  counter : s.tickcnt ≠ 0 → s.cont.head? = some .readTick

/-- The invariant of the whole machine (70_reset_and_hazards.md R247). -/
structure MachineInv (s : State) : Prop where
  wire : WireInv s
  seq : SeqInv s

/-- The most SEQ steps a command can take, where it has a bound: 42_transactions.md R168 for the transaction commands,
41_init_cs.md R148 and 40_timing.md R130 for the others; none for the delays that wait for ticks. -/
def maxMicroSteps (p : Params) : Instr → Option ℕ
  | .init => some 1
  | .sel => some 1
  | .desel => some 1
  | .outlo pin => some (if pin = pinCs then 1 else 0)
  | .outhi pin => some (if pin = pinCs then 1 else 0)
  | .wrb _ => some (1 + p.retryBudget)
  | .rd _ length => some ((length.toNat + 1) * (2 + 2 * p.retryBudget))
  | .wra data => some (data.length * (1 + p.retryBudget))
  | .wrrd data rxlen => some (data.length * (1 + p.retryBudget) + rxlen.toNat * (2 + 2 * p.retryBudget))
  | .tkstart => some 1
  | .dlyms _ => if tickArmable p then none else some 1
  | .dlyus n => some (spinCount p n)
  | .dlys => if tickArmable p then none else some secMs

/-- The number of bytes a command returns (20_memory.md R74). -/
def responseLength : Instr → ℕ
  | .rd _ length => length.toNat
  | .wrrd _ rxlen => rxlen.toNat
  | .init | .sel | .desel | .outlo _ | .outhi _ | .wrb _ | .wra _ | .tkstart | .dlyms _ | .dlyus _ | .dlys => 0

/-- The SendBytes, the ReceiveBytes and the least and most FlagChecks of a transaction command, `n` being the retry budget
(42_transactions.md R168); all 0 for every other command. -/
def transactionCounts (n : ℕ) : Instr → ℕ × ℕ × ℕ × ℕ
  | .wrb _ => (1, 0, 1, n)
  | .rd _ length => (length.toNat + 1, length.toNat + 1, 2 * (length.toNat + 1), 2 * (length.toNat + 1) * n)
  | .wra data => (data.length, 0, data.length, data.length * n)
  | .wrrd data rxlen =>
    (data.length + rxlen.toNat, rxlen.toNat, data.length + 2 * rxlen.toNat, (data.length + 2 * rxlen.toNat) * n)
  | .init | .sel | .desel | .outlo _ | .outhi _ | .tkstart | .dlyms _ | .dlyus _ | .dlys => (0, 0, 0, 0)

/-- The rest of a well-formed host script, `selected` telling whether a SEL is open: no INIT, transaction commands only between
a SEL and the next DESEL (70_reset_and_hazards.md R225). -/
def scriptTailOk : Bool → List Instr → Bool
  | _, [] => true
  | selected, i :: rest =>
    i != .init && (!isTransaction i || selected) &&
      scriptTailOk (if i = .sel then true else if i = .desel then false else selected) rest

/-- A well-formed host script begins with INIT (70_reset_and_hazards.md R225). -/
def scriptOk : List Instr → Bool
  | .init :: rest => scriptTailOk false rest
  | _ => false

end Sys2Proof.Machine
end

