-- ==== Sys2Proof/Certificates/Slice0/Obligations.lean ====
section
/-! DEFINITION. The statements for the provers. `turnStep t` is the step of agent `t`, `runTurns ts` the run in which the agents
of `ts` are offered steps in that order. An instruction's meaning is HOST's issue of it; its effect is the run of the micro-steps
that issue leaves pending, so a completion statement names both. -/

open Sys2Proof Sys2Proof.Machine

/-! ### Packets -/

/-- 30_encoding.md R92 to R96: every command a packet can carry is read back from its packet, operands whole. -/
def Obligations.DecodeOfEncodeReturnsCommand : Prop :=
  ∀ i : Instr, i.WellFormed → decode (encode i) = .ok i

/-- 30_encoding.md R91 to R93: a packet that decodes is the packet of the command it decodes to, and that command is well-formed. -/
def Obligations.DecodedPacketIsItsEncoding : Prop :=
  ∀ (p : Packet) (i : Instr), decode p = .ok i → i.WellFormed ∧ encode i = p

/-- 30_encoding.md R99: a byte 0 outside the thirteen values of R94 is reserved; HOST's issue of such a packet has no next
state, and there are 243 such values. -/
def Obligations.ReservedOpcodeRefused : Prop :=
  (∀ (b : Byte) (rest : List Byte) (s : State), s.busy = false → nextPacket s = b :: rest →
    (turnStep .host s = .refused .reservedOpcode ↔
      b.toNat ∉ [0x01, 0x10, 0x11, 0x12, 0x13, 0x20, 0x21, 0x22, 0x23, 0x30, 0x31, 0x32, 0x33])) ∧
  ((List.range 256).countP fun b => opcodeOfByte (BitVec.ofNat 8 b) = none) = 243

/-- 30_encoding.md R100 with the lengths of R93: a packet whose opcode is not reserved and whose length is not the one R93 gives
has no next state; the empty packet neither. -/
def Obligations.WrongPacketLengthRefused : Prop :=
  (∀ (o : Opcode) (p : Packet) (s : State), s.busy = false → nextPacket s = opcodeByte o :: p →
    (turnStep .host s = .refused .badPacketLength ↔
      p.length + 1 ≠ match o with
        | .init | .sel | .desel | .tkstart | .dlys => 1
        | .outlo | .outhi | .wrb => 2
        | .rd => 3
        | .dlyms | .dlyus => 5
        | .wra => 2 + (p.getD 0 0).toNat
        | .wrrd => 3 + (p.getD 0 0).toNat)) ∧
  ∀ s : State, s.busy = false → nextPacket s = [] → turnStep .host s = .refused .badPacketLength

/-- 30_encoding.md R92, R94, R103: packets written out byte by byte. -/
def Obligations.SpecPacketsDecode : Prop :=
  decode [0x01] = .ok .init ∧ decode [0x12, 0x01] = .ok (.outlo 0x01) ∧ decode [0x21, 0xAD, 0x06] = .ok (.rd 0xAD 6) ∧
    decode [0x22, 0x02, 0x12, 0x34] = .ok (.wra [0x12, 0x34]) ∧
    decode [0x23, 0x02, 0x08, 0x00, 0x02] = .ok (.wrrd [0x00, 0x02] 8) ∧
    decode [0x31, 0xE8, 0x03, 0x00, 0x00] = .ok (.dlyms 1000)

/-! ### Steps

The environment's inputs in State are the model's choice (assumption log 2). -/

/-- A STEP RUNS THE DECODED COMMAND: when the schedule offers HOST the step, SEQ is idle and HOST's packet decodes to `i`, the
step is exec of `i` in the state whose schedule and packets have moved on (20_memory.md R73). -/
def Obligations.StepRunsDecodedCommand : Prop :=
  ∀ (s : State) (i : Instr), nextTurn s = .host → s.busy = false → decode (nextPacket s) = .ok i →
    step s = exec i { s with sched := feedTail s.sched, packets := feedTail s.packets }

/-- The next step after a placed packet runs exactly the command the decoder reads from it. Placing a packet is the model's own
choice (assumption log 4). -/
def Obligations.PlacedWordRunsNext : Prop :=
  ∀ (s : State) (nbits w : ℕ) (i : Instr), decodeTableWord nbits w = some i →
    step (s.withFetchWord nbits w) = exec i { s with busy := false, cont := [] }

/-- 20_memory.md R73: while a command is in execution HOST takes no other step (its packet stays), and no command is issued.
The stutter and the refusal are the model's form of it (assumption logs 3 and 6). -/
def Obligations.HostWaitsDuringCommand : Prop :=
  ∀ (s : State) (i : Instr), s.busy = true →
    turnStep .host s = .next s ∧ exec i s = .refused .commandInExecution

/-- 30_encoding.md R96, with 20_memory.md R73: the issue step of every command in an idle sequencer answers a next state with
SEQ.OP and the operands of its format latched; it changes no register, flag, pin or wire; either micro-steps are pending and SEQ
is busy with an empty SEQ.RSP, or the command had none and is complete. -/
def Obligations.IssueLatchesAndLoads : Prop :=
  ∀ (i : Instr) (s : State), s.busy = false →
    ∃ t, exec i s = .next t ∧ t.op = opcodeByte (opcodeOf i) ∧ t.rsp = [] ∧
      (match i with
        | .outlo b | .outhi b | .wrb b => t.a0 = b.setWidth 32
        | .rd command length => t.a0 = command.setWidth 32 ∧ t.a1 = length
        | .dlyms n | .dlyus n => t.a0 = n
        | .wra data => t.a0 = BitVec.ofNat 32 data.length ∧ t.txbuf.take data.length = data
        | .wrrd data rxlen => t.a0 = BitVec.ofNat 32 data.length ∧ t.a1 = rxlen ∧ t.txbuf.take data.length = data
        | .init | .sel | .desel | .tkstart | .dlys => True) ∧
      ((t.busy = true ∧ t.cont ≠ [] ∧ t.respPort = none ∧ t.hist = s.hist) ∨
        (t.busy = false ∧ t.cont = [] ∧ t.respPort = some [] ∧ t.hist = s.hist ++ [.done t.op []])) ∧
      t = { s with
        op := t.op, a0 := t.a0, a1 := t.a1, txbuf := t.txbuf, rsp := t.rsp, cont := t.cont, busy := t.busy,
        respPort := t.respPort, hist := t.hist }

/-! ### Chip-select and initialisation

Where a statement gives the whole state after a command, the latches that the command's format does not name are unchanged
(assumption log 15) and the response port is the model's field (assumption log 8): this is the model's choice. -/

/-- 41_init_cs.md R139: SEL is one DriveCS(0). -/
def Obligations.SelDrivesChipSelectLow : Prop :=
  decode [0x10] = .ok .sel ∧ ∀ s : State, s.busy = false →
    ∃ t, exec .sel s = .next t ∧
      turnStep .seq t = .next { s with
        op := 0x10, rsp := [], cont := [], respPort := some [], csout := false
        hist := s.hist ++ (if s.csout then [.csl] else []) ++ [.done 0x10 []] }

/-- 41_init_cs.md R140: DESEL is one DriveCS(1), whatever the shifter is doing. -/
def Obligations.DeselDrivesChipSelectHigh : Prop :=
  decode [0x11] = .ok .desel ∧ ∀ s : State, s.busy = false →
    ∃ t, exec .desel s = .next t ∧
      turnStep .seq t = .next { s with
        op := 0x11, rsp := [], cont := [], respPort := some [], csout := true
        hist := s.hist ++ (if s.csout then [] else [.csh]) ++ [.done 0x11 []] }

/-- 41_init_cs.md R141: OUTLO of PIN_CS is one DriveCS(0); of any other pin it has no micro-step and no effect. -/
def Obligations.OutloDrivesOnlyItsPin : Prop :=
  ∀ (s : State) (pin : Byte), s.busy = false → decode [0x12, pin] = .ok (.outlo pin) ∧
    (pin = 0x01 →
      ∃ t, exec (.outlo pin) s = .next t ∧
        turnStep .seq t = .next { s with
          op := 0x12, a0 := 1, rsp := [], cont := [], respPort := some [], csout := false
          hist := s.hist ++ (if s.csout then [.csl] else []) ++ [.done 0x12 []] }) ∧
    (pin ≠ 0x01 →
      exec (.outlo pin) s = .next { s with
        op := 0x12, a0 := pin.setWidth 32, rsp := [], cont := [], respPort := some []
        hist := s.hist ++ [.done 0x12 []] })

/-- 41_init_cs.md R142: OUTHI of PIN_CS is one DriveCS(1); of any other pin it has no micro-step and no effect. -/
def Obligations.OuthiDrivesOnlyItsPin : Prop :=
  ∀ (s : State) (pin : Byte), s.busy = false → decode [0x13, pin] = .ok (.outhi pin) ∧
    (pin = 0x01 →
      ∃ t, exec (.outhi pin) s = .next t ∧
        turnStep .seq t = .next { s with
          op := 0x13, a0 := 1, rsp := [], cont := [], respPort := some [], csout := true
          hist := s.hist ++ (if s.csout then [] else [.csh]) ++ [.done 0x13 []] }) ∧
    (pin ≠ 0x01 →
      exec (.outhi pin) s = .next { s with
        op := 0x13, a0 := pin.setWidth 32, rsp := [], cont := [], respPort := some []
        hist := s.hist ++ [.done 0x13 []] })

/-- 41_init_cs.md R136: INIT is one ApplyInit, which is refused in an enabled peripheral whose transmit path is not empty and
otherwise writes the configuration and drives CS to Idle and SCK to its idle level. -/
def Obligations.InitConfiguresPeripheral : Prop :=
  decode [0x01] = .ok .init ∧ ∀ s : State, s.busy = false →
    ∃ t, exec .init s = .next t ∧
      (s.spicfg.getLsbD 6 = true ∧ (s.txpend = true ∨ s.shbusy = true) →
        turnStep .seq t = .refused .initDuringTransfer) ∧
      (s.spicfg.getLsbD 6 = false ∨ (s.txpend = false ∧ s.shbusy = false) →
        turnStep .seq t = .next { s with
          op := 0x01, rsp := [], cont := [], respPort := some []
          clken := 0b11, pincfg := 0xE5
          spicfg := 0x0544 ||| (s.cfg.br.setWidth 16 <<< 3) ||| ((BitVec.ofBool s.cfg.cpol).setWidth 16 <<< 1) |||
            (BitVec.ofBool s.cfg.cpha).setWidth 16
          csout := true
          sck := if s.cfg.cpol then .high else .low
          hist := s.hist ++ (if s.csout then [] else [.csh]) ++ [.done 0x01 []] })

/-- 41_init_cs.md R146: in a run's state, INIT issued again with no transfer under way moves nothing but the chip-select line:
the configuration and SCK already have the values it writes. -/
def Obligations.SecondInitMovesOnlyChipSelect : Prop :=
  ∀ s : State, s.busy = false → WireInv s → Inited s → Quiescent s →
    ∃ t, exec .init s = .next t ∧
      turnStep .seq t = .next { s with
        op := 0x01, rsp := [], cont := [], respPort := some [], csout := true
        hist := s.hist ++ (if s.csout then [] else [.csh]) ++ [.done 0x01 []] }

/-- 41_init_cs.md R144: no step moves the chip-select line but a DriveCS, to its level, an ApplyInit, to Idle, and a reset; and
in a run the commands that perform such a micro-step are INIT, SEL, DESEL and OUTLO, OUTHI of PIN_CS. -/
def Obligations.ChipSelectMovesOnlyWhenDriven : Prop :=
  (∀ (t : Turn) (s s' : State), turnStep t s = .next s' → s'.csout ≠ s.csout →
    t.isReset = true ∨ performed t s = [.driveCS s'.csout] ∨ (performed t s = [.applyInit] ∧ s'.csout = true)) ∧
  ∀ (i : Instr) (s t : State) (ts : List Turn), exec i s = .next t → DuringCommand ts →
    (microTrace ts t).any drivesChipSelect = true →
    i = .init ∨ i = .sel ∨ i = .desel ∨ i = .outlo 0x01 ∨ i = .outhi 0x01

/-- 41_init_cs.md R145: a transaction command runs the same micro-steps and the same frames whatever the chip-select level: for
every schedule the runs from the two levels differ in that level alone. -/
def Obligations.TransactionsIgnoreChipSelect : Prop :=
  ∀ (i : Instr) (s t : State) (b : Bool) (ts : List Turn), isTransaction i = true → exec i s = .next t → DuringCommand ts →
    exec i { s with csout := b } = .next { t with csout := b } ∧
      ∃ u, runTurns ts t = .next u ∧ u.csout = s.csout ∧
        runTurns ts { t with csout := b } = .next { u with csout := b } ∧
        microTrace ts { t with csout := b } = microTrace ts t

/-! ### Transactions

`responsive` is premise T1 of 70_reset_and_hazards.md R245, said of a finite run (assumption log 14). -/

/-- 42_transactions.md R152: SendByte overwrites a waiting byte, disturbs no frame in flight, and makes TXE 0. -/
def Obligations.SendByteIsUnconditional : Prop :=
  ∀ (s : State) (src : ByteSrc) (op : MicroOp) (rest : List MicroOp), s.busy = true → s.cont = .sendByte src :: op :: rest →
    ∃ t, turnStep .seq s = .next t ∧
      t = { s with
        cont := op :: rest, txpend := true
        txdr := match src with
          | .value => s.a0.setWidth 8
          | .dummy => 0xFF
          | .txbuf i => s.txbuf.getD i 0 } ∧
      txe t = false

/-- 42_transactions.md R153 with 20_memory.md R74: ReceiveByte returns RXDR as it stands and clears RXNE; its byte is stored at
the index of the MemWrite that goes with it, or dropped. -/
def Obligations.ReceiveByteIsUnconditional : Prop :=
  ∀ (s : State) (op : MicroOp) (rest : List MicroOp), s.busy = true →
    (s.cont = .receiveByte none :: op :: rest → turnStep .seq s = .next { s with cont := op :: rest, rxne := false }) ∧
    ∀ j, s.cont = .receiveByte (some j) :: op :: rest → j ≤ s.rsp.length →
      turnStep .seq s = .next { s with
        cont := op :: rest, rxne := false, rsp := s.rsp.take j ++ [s.rxdr] ++ s.rsp.drop (j + 1) }

/-- 42_transactions.md R154 with R151: a FlagCheck that sees its flag ends the poll, and so does the RETRY_BUDGET-th check of the
poll; any other goes on to the next check. No check changes anything, so nothing records the silent timeout. Met by SEQ steps
alone, a poll whose flag is not set runs exactly RETRY_BUDGET checks. -/
def Obligations.PollEndsByFlagOrBudget : Prop :=
  ∀ (s : State) (f : Flag) (count : ℕ) (op : MicroOp) (rest : List MicroOp), s.busy = true →
    s.cont = .flagCheck f count :: op :: rest → count < s.cfg.retryBudget →
    (flagValue f s = true → turnStep .seq s = .next { s with cont := op :: rest }) ∧
    (flagValue f s = false → count + 1 = s.cfg.retryBudget → turnStep .seq s = .next { s with cont := op :: rest }) ∧
    (flagValue f s = false → count + 1 < s.cfg.retryBudget →
      turnStep .seq s = .next { s with cont := .flagCheck f (count + 1) :: op :: rest }) ∧
    (flagValue f s = false →
      runTurns (List.replicate (s.cfg.retryBudget - count) .seq) s = .next { s with cont := op :: rest })

/-- 42_transactions.md R155 to R161: the transaction commands are issued with the micro-steps of their pseudocode, in order; a
command that has none completes in its issue step. -/
def Obligations.TransactionsIssueTheirMicroSteps : Prop :=
  ∀ (i : Instr) (s : State), s.busy = false →
    let write (src : ByteSrc) : List MicroOp := [.sendByte src, .flagCheck .txe 0]
    let exchange (src : ByteSrc) (dst : Option ℕ) : List MicroOp :=
      [.sendByte src, .flagCheck .txe 0, .flagCheck .rxne 0, .receiveByte dst]
    let program : List MicroOp :=
      match i with
      | .wrb _ => write .value
      | .rd _ length => exchange .value none ++ (List.range length.toNat).flatMap fun j => exchange .dummy (some j)
      | .wra data => (List.range data.length).flatMap fun j => write (.txbuf j)
      | .wrrd data rxlen =>
        ((List.range data.length).flatMap fun j => write (.txbuf j)) ++
          (List.range rxlen.toNat).flatMap fun j => exchange .dummy (some j)
      | .init | .sel | .desel | .outlo _ | .outhi _ | .tkstart | .dlyms _ | .dlyus _ | .dlys => []
    isTransaction i = true →
    ∃ t, exec i s = .next t ∧ t.cont = program ∧ (t.busy = true ↔ program ≠ []) ∧
      (∀ value, i = .wrb value → readByteSrc .value t = value) ∧
      (∀ command length, i = .rd command length → readByteSrc .value t = command) ∧
      (∀ data : List Byte, (i = .wra data ∨ ∃ rxlen, i = .wrrd data rxlen) →
        ∀ (j : ℕ) (h : j < data.length), readByteSrc (.txbuf j) t = data[j])

/-- 42_transactions.md R168: under every schedule the transaction commands complete within the SEQ steps the table allows,
handing HOST as many bytes as asked for, with the table's numbers of SendBytes, ReceiveBytes and FlagChecks; no fairness of
SHIFTER or TICK is needed. -/
def Obligations.TransactionsCompleteWithinBudget : Prop :=
  ∀ (i : Instr) (s : State) (ts : List Turn) (bound : ℕ), isTransaction i = true → s.busy = false →
    maxMicroSteps s.cfg i = some bound → DuringCommand ts → bound ≤ ts.count .seq →
    ∃ t u r, exec i s = .next t ∧ runTurns ts t = .next u ∧ u.busy = false ∧ u.respPort = some r ∧
      r.length = responseLength i ∧
      (microTrace ts t).length ≤ bound ∧
      (microTrace ts t).countP isSend = (transactionCounts s.cfg.retryBudget i).1 ∧
      (microTrace ts t).countP isReceive = (transactionCounts s.cfg.retryBudget i).2.1 ∧
      (transactionCounts s.cfg.retryBudget i).2.2.1 ≤ (microTrace ts t).countP isFlagCheck ∧
      (microTrace ts t).countP isFlagCheck ≤ (transactionCounts s.cfg.retryBudget i).2.2.2

/-- 42_transactions.md R162: in every run RD performs exactly length + 1 SendBytes, the first with the command and the others
with 0xFF, and exactly length + 1 ReceiveBytes, the first dropped and the others stored in order. -/
def Obligations.RdSendsCommandThenDummies : Prop :=
  ∀ (s t u : State) (command length : Byte) (ts : List Turn), exec (.rd command length) s = .next t → DuringCommand ts →
    runTurns ts t = .next u → u.busy = false →
    (microTrace ts t).filter isSend = .sendByte .value :: List.replicate length.toNat (.sendByte .dummy) ∧
      (microTrace ts t).filter isReceive = .receiveByte none :: (List.range length.toNat).map (fun j => .receiveByte (some j)) ∧
      readByteSrc .value t = command ∧ readByteSrc .dummy t = 0xFF

/-- 42_transactions.md R166, R167: in every responsive run from an initialised quiescent state RD puts exactly length + 1 frames
on the wire, sending the command and then 0xFF bytes, returns the bytes of its dummy frames in order, and completes quiescent. -/
def Obligations.RdReturnsItsDummyFrames : Prop :=
  ∀ (s t u : State) (command length : Byte) (ts : List Turn), Inited s → Quiescent s →
    exec (.rd command length) s = .next t → DuringCommand ts → responsive ts t = true → runTurns ts t = .next u → u.busy = false →
    Quiescent u ∧ ∃ (first : Byte) (bytes : List Byte), bytes.length = length.toNat ∧ u.respPort = some bytes ∧
      frameEvents u = frameEvents s ++ [.xstart command, .xend first] ++ bytes.flatMap (fun r => [.xstart 0xFF, .xend r])

/-- 42_transactions.md R161, R166, R167: in every responsive run from an initialised quiescent state WRRD sends its bytes and then
rxlen dummies, one frame each, and returns the bytes of its dummy frames in order: no byte of the transmit phase leaks. -/
def Obligations.WrrdReturnsItsDummyFrames : Prop :=
  ∀ (s t u : State) (data : List Byte) (rxlen : Byte) (ts : List Turn), Inited s → Quiescent s →
    exec (.wrrd data rxlen) s = .next t → DuringCommand ts → responsive ts t = true → runTurns ts t = .next u → u.busy = false →
    Quiescent u ∧ ∃ unread bytes : List Byte, unread.length = data.length ∧ bytes.length = rxlen.toNat ∧
      u.respPort = some bytes ∧
      frameEvents u = frameEvents s ++ (data.zip unread).flatMap (fun p => [.xstart p.1, .xend p.2]) ++
        bytes.flatMap (fun r => [.xstart 0xFF, .xend r])

/-- 42_transactions.md R160, R166: in every responsive run from an initialised quiescent state WRA sends its bytes in order, one
frame each, and leaves the last byte received unread. -/
def Obligations.WraSendsItsBytesInOrder : Prop :=
  ∀ (s t u : State) (data : List Byte) (ts : List Turn), Inited s → Quiescent s →
    exec (.wra data) s = .next t → DuringCommand ts → responsive ts t = true → runTurns ts t = .next u → u.busy = false →
    Quiescent u ∧ u.respPort = some [] ∧ ∃ unread : List Byte, unread.length = data.length ∧
      frameEvents u = frameEvents s ++ (data.zip unread).flatMap (fun p => [.xstart p.1, .xend p.2]) ∧
      (∀ r, unread.getLast? = some r → u.rxne = true ∧ u.rxdr = r)

/-- 42_transactions.md R158, R165: in every responsive run from an initialised quiescent state WRB sends its byte in exactly one
frame and leaves the byte received in RXDR unread. -/
def Obligations.WrbSendsItsByteOnce : Prop :=
  ∀ (s t u : State) (value : Byte) (ts : List Turn), Inited s → Quiescent s →
    exec (.wrb value) s = .next t → DuringCommand ts → responsive ts t = true → runTurns ts t = .next u → u.busy = false →
    Quiescent u ∧ u.respPort = some [] ∧ u.txdr = value ∧ u.rxne = true ∧
      frameEvents u = frameEvents s ++ [.xstart value, .xend u.rxdr]

/-- 42_transactions.md R159 under schedule S-EAGER (95_test_vectors.md): whatever bytes RESPONDER answers with, RD runs to its
completion and returns the ones of its dummy frames; the run is responsive for every budget. -/
def Obligations.RdUnderEagerScheduleReturnsResponderBytes : Prop :=
  ∀ (s : State) (command length first : Byte) (bytes : List Byte) (later : List Bool), s.busy = false → Inited s →
    Quiescent s → bytes.length = length.toNat → s.miso.given = responderBits (first :: bytes) ++ later →
    ∃ t u, exec (.rd command length) s = .next t ∧ runTurns (eagerTurns (4 * (length.toNat + 1))) t = .next u ∧
      responsive (eagerTurns (4 * (length.toNat + 1))) t = true ∧ u.busy = false ∧ u.respPort = some bytes ∧
      u.rxne = false ∧ Quiescent u ∧ u.csout = s.csout ∧ u.miso.given = later ∧
      frameEvents u = frameEvents s ++ [.xstart command, .xend first] ++ bytes.flatMap (fun r => [.xstart 0xFF, .xend r])

/-- 42_transactions.md R169: in a peripheral that is not clocked or not enabled RD runs every poll to the end of its budget, sends
no frame, returns whatever RXDR holds (0x00 after reset) length times, and leaves its last byte waiting, under every schedule. -/
def Obligations.RdOfUnreadyPeripheralReturnsStaleData : Prop :=
  ∀ (s : State) (command length : Byte) (ts : List Turn), s.busy = false → (spicfgSpe s = false ∨ clkenSpi s = false) →
    s.shbusy = false → s.rxne = false → DuringCommand ts →
    (length.toNat + 1) * (2 + 2 * s.cfg.retryBudget) ≤ ts.count .seq →
    ∃ t u, exec (.rd command length) s = .next t ∧ runTurns ts t = .next u ∧ u.busy = false ∧
      u.respPort = some (List.replicate length.toNat s.rxdr) ∧ u.rxdr = s.rxdr ∧ u.rxne = false ∧ u.txpend = true ∧
      u.txdr = (if length = 0 then command else 0xFF) ∧ u.shbusy = false ∧ frameEvents u = frameEvents s ∧
      (microTrace ts t).countP isSend = length.toNat + 1 ∧
      (microTrace ts t).countP isFlagCheck = 2 * (length.toNat + 1) * s.cfg.retryBudget ∧
      (microTrace ts t).countP isReceive = length.toNat + 1

/-- 42_transactions.md R160, R161: WRA of no bytes and WRRD of no bytes either way perform no micro-step and complete in their
issue step. The statement gives the whole state after it: that the latches the format does not name keep their values, where
10_state.md R31 lets a model clear them, rests on assumption log 15, and the response port field on assumption log 8. -/
def Obligations.EmptyTransfersCompleteAtIssue : Prop :=
  ∀ s : State, s.busy = false →
    exec (.wra []) s = .next { s with
      op := 0x22, a0 := 0, rsp := [], cont := [], respPort := some [], hist := s.hist ++ [.done 0x22 []] } ∧
    exec (.wrrd [] 0) s = .next { s with
      op := 0x23, a0 := 0, a1 := 0, rsp := [], cont := [], respPort := some [], hist := s.hist ++ [.done 0x23 []] }

/-- 42_transactions.md R172, with no premise: whenever the TXE poll that follows a SendByte of `v` is about to see TXE = 1, the
frame that carried `v` has ended, it is the last frame that did, RXNE = 1 and RXDR holds its byte. -/
def Obligations.SeenTxeMeansOwnFrameEnded : Prop :=
  ∀ (s t w : State) (src : ByteSrc) (rest : List MicroOp) (k : ℕ) (ts : List Turn), s.busy = true →
    s.cont = .sendByte src :: .flagCheck .txe 0 :: rest → turnStep .seq s = .next t → DuringCommand ts →
    runTurns ts t = .next w → w.busy = true → w.cont = .flagCheck .txe k :: rest → txe w = true →
    w.rxne = true ∧ ∃ earlier, frameEvents w = frameEvents s ++ earlier ++ [.xstart (readByteSrc src s), .xend w.rxdr]

/-- 41_init_cs.md R143, 42_transactions.md R161 ("rxlen = 0: identical to WRA"), 40_timing.md R124: SEL has the micro-steps of
OUTLO PIN_CS, DESEL those of OUTHI PIN_CS, WRRD with no bytes to receive those of WRA, and DLYS those of a thousand delay bodies,
each of which runs as DLYMS 1's does. -/
def Obligations.EquivalentCommandsHaveSameMicroSteps : Prop :=
  ∀ s : State, s.busy = false →
    (∃ t u, exec .sel s = .next t ∧ exec (.outlo 0x01) s = .next u ∧ t.cont = u.cont) ∧
    (∃ t u, exec .desel s = .next t ∧ exec (.outhi 0x01) s = .next u ∧ t.cont = u.cont) ∧
    (∀ data, ∃ t u, exec (.wra data) s = .next t ∧ exec (.wrrd data 0) s = .next u ∧ t.cont = u.cont ∧ t.txbuf = u.txbuf) ∧
    ∃ t u, exec .dlys s = .next t ∧ exec (.dlyms 1) s = .next u ∧
      t.cont.map (fun op => if op = .setTick .one then .setTick .operand else op) =
        (List.replicate 1000 u.cont).flatten ∧
      readWordSrc .one t = readWordSrc .operand u

/-! ### The shifter -/

/-- 43_shifter.md R176: LOAD, under its guard and under no other condition. -/
def Obligations.LoadStartsFrame : Prop :=
  (∀ s : State, s.clken.getLsbD 0 = true → s.spicfg.getLsbD 6 = true → s.txpend = true → s.shbusy = false →
    turnStep .shifter s = .next { s with
      shtx := s.txdr, txpend := false, shbusy := true, edge := 0
      mosi := if s.spicfg.getLsbD 0 then s.mosi else levelOfBit (s.txdr.getLsbD 7)
      hist := s.hist ++ [.xstart s.txdr] }) ∧
  ∀ s t : State, turnStep .shifter s = .next t → s.shbusy = false → t.shbusy = true →
    s.clken.getLsbD 0 = true ∧ s.spicfg.getLsbD 6 = true ∧ s.txpend = true

/-- 43_shifter.md R177, R178, R179: EDGE, transition k = EDGE + 1 with bit slot c = EDGE div 2, in both clock phases; SCK
moves in no other SHIFTER step. -/
def Obligations.EdgeShiftsOrSamples : Prop :=
  (∀ s t : State, turnStep .shifter s = .next t → t.sck ≠ s.sck → s.shbusy = true ∧ s.edge.toNat < 16) ∧
  ∀ s : State, s.shbusy = true → s.edge.toNat < 16 →
    let c := s.edge.toNat / 2
    let sampled : State := { s with
      sck := levelNot s.sck, edge := s.edge + 1
      shrx := s.shrx <<< 1 ||| (BitVec.ofBool (nextMiso s)).setWidth 8
      miso := feedTail s.miso }
    let shifted (mosi : Level) : State := { s with sck := levelNot s.sck, edge := s.edge + 1, mosi := mosi }
    turnStep .shifter s = .next
      (if s.spicfg.getLsbD 0 = false then
        (if s.edge.toNat % 2 = 0 then sampled
          else shifted (if c < 7 then levelOfBit (s.shtx.getLsbD (6 - c)) else s.mosi))
      else
        (if s.edge.toNat % 2 = 0 then shifted (levelOfBit (s.shtx.getLsbD (7 - c))) else sampled))

/-- 43_shifter.md R180: END overwrites RXDR whatever RXNE says; a frame ends in no other SHIFTER step. -/
def Obligations.EndDeliversReceivedByte : Prop :=
  (∀ s t : State, turnStep .shifter s = .next t → s.shbusy = true → t.shbusy = false → s.edge.toNat = 16) ∧
  ∀ s : State, s.shbusy = true → s.edge.toNat = 16 →
    ∃ t, turnStep .shifter s = .next t ∧
      t = { s with rxdr := s.shrx, rxne := true, shbusy := false, edge := 0, hist := s.hist ++ [.xend s.shrx] } ∧
      (txe t = true ↔ s.txpend = false)

/-- 43_shifter.md R182: a whole frame, in every clock mode. With RESPONDER's bits those of `r`, LOAD, sixteen EDGEs and END
exchange TXDR for `r`; in bit slot c MOSI carries bit 7 − c; after j transitions SCK is at its idle level or away from it as j is
even or odd; what SHRX held before does not show. -/
def Obligations.WholeFrameExchangesOneByte : Prop :=
  ∀ (s : State) (r : Byte) (later : List Bool), s.clken.getLsbD 0 = true → s.spicfg.getLsbD 6 = true → s.txpend = true →
    s.shbusy = false → s.miso.given = byteBits r ++ later →
    runTurns (List.replicate 18 .shifter) s = .next { s with
      shtx := s.txdr, shrx := r, rxdr := r, rxne := true, txpend := false, edge := 0
      mosi := levelOfBit (s.txdr.getLsbD 0)
      miso := ⟨later, s.miso.drawn⟩
      hist := s.hist ++ [.xstart s.txdr, .xend r] } ∧
    (∀ c < 8, ∃ u, runTurns (List.replicate (1 + (2 * c + 1)) .shifter) s = .next u ∧
      u.mosi = levelOfBit (s.txdr.getLsbD (7 - c))) ∧
    ∀ j ≤ 16, ∃ u, runTurns (List.replicate (1 + j) .shifter) s = .next u ∧
      u.sck = if j % 2 = 0 then s.sck else levelNot s.sck

/-- 43_shifter.md R185: SHIFTER neither reads the chip-select line, the tick counter, the tick generator, PINCFG or the sequencer,
nor writes TXDR, CSOUT, TICKCNT, a configuration register or the sequencer's state. -/
def Obligations.ShifterIgnoresTheRest : Prop :=
  ∀ (s : State) (x : State), ∃ t, turnStep .shifter s = .next t ∧
    t = { s with
      shtx := t.shtx, shrx := t.shrx, rxdr := t.rxdr, rxne := t.rxne, txpend := t.txpend, shbusy := t.shbusy, edge := t.edge
      sck := t.sck, mosi := t.mosi, miso := t.miso, hist := t.hist } ∧
    turnStep .shifter { s with
      csout := x.csout, tickcnt := x.tickcnt, tgen := x.tgen, tgperiod := x.tgperiod, pincfg := x.pincfg, busy := x.busy
      op := x.op, a0 := x.a0, a1 := x.a1, txbuf := x.txbuf, rsp := x.rsp, cont := x.cont, respPort := x.respPort } =
      .next { t with
        csout := x.csout, tickcnt := x.tickcnt, tgen := x.tgen, tgperiod := x.tgperiod, pincfg := x.pincfg, busy := x.busy
        op := x.op, a0 := x.a0, a1 := x.a1, txbuf := x.txbuf, rsp := x.rsp, cont := x.cont, respPort := x.respPort }

/-! ### Flags -/

/-- 10_state.md R39: the flag table. Every step of every agent but a reset, a SendByte, a ReceiveByte and SHIFTER's steps leaves
TXPEND, SHBUSY and RXNE alone; SendByte and ReceiveByte write one each. -/
def Obligations.FlagsChangeOnlyByTheTable : Prop :=
  ∀ (t : Turn) (s s' : State), turnStep t s = .next s' → t.isReset = false →
    (s'.txpend = true → s.txpend = true ∨ (performed t s).any isSend = true) ∧
    ((performed t s).any isSend = true → s'.txpend = true ∧ txe s' = false) ∧
    (s'.rxne = false → s.rxne = false ∨ (performed t s).any isReceive = true) ∧
    ((performed t s).any isReceive = true → s'.rxne = false) ∧
    (s'.shbusy ≠ s.shbusy ∨ (s'.txpend = false ∧ s.txpend = true) ∨ (s'.rxne = true ∧ s.rxne = false) → t = .shifter) ∧
    (t = .shifter → (s'.rxne = true ∧ s.rxne = false → s.shbusy = true ∧ s'.shbusy = false) ∧
      (s'.txpend ≠ s.txpend ↔ (s.shbusy = false ∧ s'.shbusy = true)) ∧
      (s.shbusy = true ∧ s'.shbusy = false → s'.rxne = true))

/-! ### The tick generator and the delays

The states after a command rest on assumption logs 8 and 15, as those of the chip-select commands do. -/

/-- 40_timing.md R117 with R116: TKSTART is one TickStart; it arms the generator with the period CORE_CLK_HZ div 1000 if the
generator can hold it, and changes nothing otherwise. -/
def Obligations.TkstartArmsTickGenerator : Prop :=
  decode [0x30] = .ok .tkstart ∧ ∀ s : State, s.busy = false →
    let p := s.cfg.coreClkHz / 1000
    ∃ t, exec .tkstart s = .next t ∧
      (1 ≤ p ∧ p ≤ s.cfg.tgPeriodMax → ∃ w : Word, (p < 2 ^ 32 → w.toNat = p) ∧
        turnStep .seq t = .next { s with
          op := 0x30, rsp := [], cont := [], respPort := some [], hist := s.hist ++ [.done 0x30 []]
          tgperiod := w, tgen := true }) ∧
      (¬(1 ≤ p ∧ p ≤ s.cfg.tgPeriodMax) →
        turnStep .seq t = .next { s with
          op := 0x30, rsp := [], cont := [], respPort := some [], hist := s.hist ++ [.done 0x30 []] })

/-- 60_exceptions.md R203: the TICK step; with the generator not armed there is none. -/
def Obligations.TickDecrementsIfNonzero : Prop :=
  ∀ s : State,
    (s.tgen = true → s.tickcnt ≠ 0 →
      turnStep .tick s = .next { s with tickcnt := BitVec.ofNat 32 (s.tickcnt.toNat - 1), hist := s.hist ++ [.tick] }) ∧
    (s.tgen = true → s.tickcnt = 0 → turnStep .tick s = .next { s with hist := s.hist ++ [.tick] }) ∧
    (s.tgen = false → ∀ t, turnStep .tick s = .next t → t.tickcnt = s.tickcnt ∧ t.hist = s.hist)

/-- 10_state.md R30, 90_conflicts.md C7: the counter never increases but by a SetTick. -/
def Obligations.CounterRisesOnlyBySetTick : Prop :=
  ∀ (t : Turn) (s s' : State), turnStep t s = .next s' → s.tickcnt.toNat < s'.tickcnt.toNat →
    ∃ src, performed t s = [.setTick src] ∧ s'.tickcnt = readWordSrc src s

/-- 20_memory.md R77: a TICK step commutes with every SHIFTER step and with every SEQ step that neither sets nor reads TICKCNT
nor arms the generator, but for the order of their events in HIST. HOST's issue and a TickStart are not part of it. -/
def Obligations.TickCommutesWithOtherSteps : Prop :=
  ∀ (t : Turn) (s s1 s2 : State), (t = .shifter ∨ t = .seq) →
    (∀ op ∈ performed t s, (∀ src, op ≠ .setTick src) ∧ op ≠ .readTick ∧ ∀ k, op ≠ .tickStart k) →
    runTurns [t, .tick] s = .next s1 → runTurns [.tick, t] s = .next s2 →
    { s1 with hist := [] } = { s2 with hist := [] } ∧
      s1.hist.filter (· ≠ Event.tick) = s2.hist.filter (· ≠ Event.tick) ∧ s1.hist.count Event.tick = s2.hist.count Event.tick

/-- 60_exceptions.md R200: whatever ticks fall into it, a command other than TKSTART, DLYMS and DLYS runs the same
micro-steps, and everything but TICKCNT and the TICK events of HIST ends the same. -/
def Obligations.TicksAreInvisibleToOtherCommands : Prop :=
  ∀ (i : Instr) (s t : State) (ts : List Turn), i ≠ .tkstart → i ≠ .dlys → (∀ n, i ≠ .dlyms n) → exec i s = .next t →
    DuringCommand ts → ∀ u, runTurns ts t = .next u →
    ∃ v, runTurns (ts.filter (· ≠ Turn.tick)) t = .next v ∧ microTrace (ts.filter (· ≠ Turn.tick)) t = microTrace ts t ∧
      { u with tickcnt := 0, hist := u.hist.filter (· ≠ Event.tick) } = { v with tickcnt := 0, hist := v.hist.filter (· ≠ Event.tick) }

/-- 40_timing.md R121: with a generator that can be armed, DLYMS n completes once its n ticks have come, leaving TICKCNT 0 and
the generator armed. -/
def Obligations.DlymsCompletesAfterItsTicks : Prop :=
  ∀ (s : State) (n : Word), s.busy = false → tickArmable s.cfg = true →
    ∃ (t : State) (w : Word), exec (.dlyms n) s = .next t ∧
      (s.cfg.coreClkHz / 1000 < 2 ^ 32 → w.toNat = s.cfg.coreClkHz / 1000) ∧
      runTurns ([.seq, .seq] ++ List.replicate n.toNat Turn.tick ++ [.seq]) t = .next { s with
        op := 0x31, a0 := n, rsp := [], cont := [], respPort := some []
        tgperiod := w, tgen := true, tickcnt := 0
        hist := s.hist ++ List.replicate n.toNat .tick ++ [.done 0x31 []] }

/-- 40_timing.md R122: DLYMS n completes only after at least n TICK steps since its SetTick(n), in every run. -/
def Obligations.DlymsNeverReturnsBeforeItsTicks : Prop :=
  ∀ (s t v u : State) (n : Word) (ts : List Turn), tickArmable s.cfg = true → exec (.dlyms n) s = .next t →
    DuringCommand ts → runTurns ts t = .next v → v.busy = true → turnStep .seq v = .next u → u.busy = false →
    ∃ (before after : List Turn) (x w : State), ts = before ++ .seq :: after ∧ runTurns before t = .next x ∧
      x.cont = [.setTick .operand, .readTick] ∧ turnStep .seq x = .next w ∧ w.tickcnt = n ∧ runTurns after w = .next v ∧
      n.toNat ≤ ticksSince w.hist v.hist

/-- 40_timing.md R123, 60_exceptions.md R196: where the generator cannot be armed DLYMS completes after one micro-step with
TICKCNT and the generator untouched. -/
def Obligations.DlymsOfUnarmableGeneratorReturnsAtOnce : Prop :=
  ∀ (s : State) (n : Word), s.busy = false → tickArmable s.cfg = false →
    ∃ t, exec (.dlyms n) s = .next t ∧ turnStep .seq t = .next { s with
      op := 0x31, a0 := n, rsp := [], cont := [], respPort := some [], hist := s.hist ++ [.done 0x31 []] }

/-- 70_reset_and_hazards.md R239: with the generator armed but no TICK step taken, DLYMS n with n > 0 spins for ever. -/
def Obligations.DlymsHangsWithoutTicks : Prop :=
  ∀ (s t : State) (n : Word) (ts : List Turn), tickArmable s.cfg = true → n ≠ 0 → exec (.dlyms n) s = .next t →
    DuringCommand ts → Turn.tick ∉ ts → ∃ u, runTurns ts t = .next u ∧ u.busy = true ∧ u.respPort = none ∧
      (2 ≤ ts.count .seq → u.tickcnt = n ∧ u.cont = [.readTick])

/-- 40_timing.md R124: with a generator that can be armed, DLYS completes when each of its thousand delays gets its tick. -/
def Obligations.DlysCompletesAfterThousandTicks : Prop :=
  ∀ s : State, s.busy = false → tickArmable s.cfg = true →
    ∃ (t : State) (w : Word), exec .dlys s = .next t ∧
      runTurns (List.replicate 1000 [Turn.seq, .seq, .tick, .seq]).flatten t = .next { s with
        op := 0x33, rsp := [], cont := [], respPort := some []
        tgperiod := w, tgen := true, tickcnt := 0
        hist := s.hist ++ List.replicate 1000 .tick ++ [.done 0x33 []] }

/-- 40_timing.md R124: in every run, DLYS with a generator that can be armed stays in execution until at least 1000 TICK steps and
at least 3000 SEQ micro-steps have been taken. -/
def Obligations.DlysNeedsThousandTicks : Prop :=
  ∀ (s t u : State) (ts : List Turn), tickArmable s.cfg = true → exec .dlys s = .next t → DuringCommand ts →
    runTurns ts t = .next u → ticksSince t.hist u.hist < 1000 ∨ (microTrace ts t).length < 3000 → u.busy = true

/-- 40_timing.md R125: where the generator cannot be armed DLYS is a thousand failing TickStarts and changes nothing. -/
def Obligations.DlysOfUnarmableGeneratorDoesNotBlock : Prop :=
  ∀ s : State, s.busy = false → tickArmable s.cfg = false →
    ∃ t, exec .dlys s = .next t ∧ runTurns (List.replicate 1000 .seq) t = .next { s with
      op := 0x33, rsp := [], cont := [], respPort := some [], hist := s.hist ++ [.done 0x33 []] }

/-- 40_timing.md R127: DLYUS n runs a finite number of SpinIter steps, none of which changes a register, and completes; n = 0
or US_LOOP_K = 0 completes at issue. The statement does not depend on how many steps there are. -/
def Obligations.DlyusSpinsAndChangesNothing : Prop :=
  ∀ (s : State) (n : Word), s.busy = false →
    decode (0x32 :: leBytes 4 n.toNat) = .ok (.dlyus n) ∧
    ∃ (t : State) (count : ℕ), exec (.dlyus n) s = .next t ∧ (n = 0 ∨ s.cfg.usLoopK = 0 → count = 0) ∧
      (∀ k < count, ∃ u, runTurns (List.replicate k .seq) t = .next u ∧ u = { t with cont := u.cont } ∧ u.busy = true) ∧
      runTurns (List.replicate count .seq) t = .next { s with
        op := 0x32, a0 := n, rsp := [], cont := [], respPort := some [], hist := s.hist ++ [.done 0x32 []] }

/-! ### Reset -/

/-- 10_state.md R59: the reset values. For TXDR, SHTX and SHRX the model takes the table's 0x00, where 70_reset_and_hazards.md R222
lets a model take any value (assumption log 10). -/
def Obligations.ResetValues : Prop :=
  let s := State.reset
  s.csout = true ∧ s.txdr = 0x00 ∧ s.rxdr = 0x00 ∧ s.shtx = 0x00 ∧ s.shrx = 0x00 ∧ s.tickcnt = 0 ∧ s.rxne = false ∧
    s.txpend = false ∧ s.shbusy = false ∧ txe s = true ∧ s.edge = 0 ∧ s.clken = 0b00 ∧ s.pincfg = 0x00 ∧ s.spicfg = 0x0000 ∧
    s.tgen = false ∧ s.tgperiod = 0 ∧ s.sck = .u ∧ s.mosi = .u ∧ s.busy = false ∧ s.cont = [] ∧ s.op = 0 ∧ s.a0 = 0 ∧ s.a1 = 0 ∧
    s.txbuf = List.replicate 255 0 ∧ s.rsp = [] ∧ s.hist = [] ∧ spisr s = 0b10 ∧ csPin s = true

/-- 70_reset_and_hazards.md R220: RST in any state gives every state element its reset value; the command and the frame in
progress are abandoned without an event, whatever parameters the reset comes with. That the parameters and the environment's
inputs are outside the table is the model's reading (assumption log 9). -/
def Obligations.ResetAbandonsEverything : Prop :=
  ∀ (s : State) (params : Option Params), ∃ t, turnStep (.rst params) s = .next t ∧
    { t with cfg := State.reset.cfg, packets := ⟨[], 0⟩, sched := ⟨[], 0⟩, miso := ⟨[], 0⟩ } = State.reset

/-- 70_reset_and_hazards.md R221: after reset nothing moves by itself: SEQ, SHIFTER and TICK have no enabled step. That an
offer of a step which is not enabled leaves the state as it is is the model's choice (assumption log 3). -/
def Obligations.NothingMovesAfterReset : Prop :=
  ∀ (s t : State) (params : Option Params) (ts : List Turn), turnStep (.rst params) s = .next t → DuringCommand ts →
    runTurns ts t = .next t

/-! ### Invariants -/

/-- 43_shifter.md R183, 10_state.md R38, R44, 70_reset_and_hazards.md R224: the shifter's and the configuration's invariant is
kept by every step of the machine, from every state. -/
def Obligations.WireInvariantKeptByEveryStep : Prop :=
  ∀ s s' : State, WireInv s → step s = .next s' → WireInv s'

/-- 10_state.md R34, 20_memory.md R63, 40_timing.md R123: the sequencer's invariant is kept by every step of the machine, from
every state. -/
def Obligations.SequencerInvariantKeptByEveryStep : Prop :=
  ∀ s s' : State, SeqInv s → step s = .next s' → SeqInv s'

/-- The machine's invariant holds at reset. -/
def Obligations.ResetMeetsMachineInvariant : Prop := MachineInv State.reset

/-- 40_timing.md R123 "TICKCNT = 0 whenever SEQ.BUSY = 0", 43_shifter.md R183 and 10_state.md R38: in every state that a run of
any length reaches from reset, whatever the configuration and the environment. -/
def Obligations.ReachableStatesKeepClockAndCounter : Prop :=
  ∀ (cfg : Params) (packets : Feed Packet) (miso : Feed Bool) (ts : List Turn) (u : State),
    runTurns ts { State.reset with cfg := cfg, packets := packets, miso := miso } = .next u →
    (u.busy = false → u.tickcnt = 0) ∧ (u.shbusy = false → u.edge = 0) ∧
      (spicfgSpe u = true → u.sck = levelOfBit (spicfgCpol u != (u.edge.toNat % 2 = 1))) ∧
      (u.shbusy = true → spicfgSpe u = true)

/-- 70_reset_and_hazards.md R224, R243, 10_state.md R44: once INITED, always INITED until reset, with the configuration
unchanged; the road to another clock mode and divider is a reset with other parameters and INIT, from every state. That the
reset step carries the other parameters is the model's form of R243 (assumption log 9). -/
def Obligations.ConfigurationFixedOnceInited : Prop :=
  (∀ (t : Turn) (s s' : State), Inited s → turnStep t s = .next s' → t.isReset = false →
    Inited s' ∧ s'.spicfg = s.spicfg ∧ s'.clken = s.clken ∧ s'.pincfg = s.pincfg) ∧
  ∀ (s : State) (p : Params), ∃ t u v, turnStep (.rst (some p)) s = .next t ∧ exec .init t = .next u ∧
    turnStep .seq u = .next v ∧ v.busy = false ∧ Inited v ∧ v.cfg = p ∧
    spicfgCpol v = p.cpol ∧ spicfgCpha v = p.cpha ∧ spicfgBr v = p.br

/-- No step but a reset with other parameters (70_reset_and_hazards.md R243) writes the configuration parameters, and no step but
a reset takes an event out of HIST (10_state.md R25, R58). That the parameters and HIST stand in State is the model's choice
(assumption logs 1 and 20), and so is that the other parameters come with the reset step as its operand (assumption log 9). -/
def Obligations.ParametersAndTraceArePreserved : Prop :=
  ∀ (t : Turn) (s s' : State), turnStep t s = .next s' →
    s'.cfg = (match t with
      | .rst (some params) => params
      | .rst none | .host | .seq | .shifter | .tick => s.cfg) ∧
    (t.isReset = false → s.hist <+: s'.hist)
end

