-- ==== Sys2Proof/Laws/Decode.lean ====
section
/-! SUPPORT. The laws of the opcode table, of the little-endian operand and of the packet lengths. -/

namespace Sys2Proof

/-- Every opcode is found again from its own byte: the rows of 30_encoding.md R94 do not overlap. -/
@[simp] theorem opcodeOfByte_opcodeByte (o : Opcode) : opcodeOfByte (opcodeByte o) = some o := by cases o <;> decide

/-- A byte that selects a row is that row's byte. -/
theorem opcodeByte_of_opcodeOfByte {b : Byte} {o : Opcode} (h : opcodeOfByte b = some o) : opcodeByte o = b := by
  simpa using List.find?_some h

@[simp] theorem length_leBytes (n v : ℕ) : (leBytes n v).length = n := by
  induction n generalizing v with
  | zero => rfl
  | succ n ih => simp [leBytes, ih]

/-- The bytes of a little-endian number read back as that number (20_memory.md R68). -/
theorem memRead_leBytes (n v : ℕ) (before after : Packet) :
    memRead (before ++ leBytes n v ++ after) before.length n = v % 256 ^ n := by
  induction n generalizing v before with
  | zero => simp [memRead, Nat.mod_one]
  | succ n ih =>
    have h := ih (v / 256) (before ++ [BitVec.ofNat 8 v])
    have hb : (before ++ leBytes (n + 1) v ++ after).getD before.length 0 = BitVec.ofNat 8 v := by
      simp [leBytes]
    have he : before ++ leBytes (n + 1) v ++ after = before ++ [BitVec.ofNat 8 v] ++ leBytes n (v / 256) ++ after := by
      simp [leBytes]
    rw [memRead, hb, he, show before.length + 1 = (before ++ [BitVec.ofNat 8 v]).length by simp, h]
    have hm : v % 256 ^ (n + 1) = v % 256 + 256 * (v / 256 % 256 ^ n) := by rw [pow_succ']; exact Nat.mod_mul
    rw [hm, BitVec.toNat_ofNat]

theorem encode_wra_length (data : List Byte) (h : Instr.WellFormed (.wra data)) :
    (encode (.wra data)).length = packetLength (opcodeOf (.wra data)) (encode (.wra data)) := by
  have hl : data.length ≤ 255 := by simpa [Instr.WellFormed, Instr.wellFormed] using h
  simp [encode, operandBytes, packetLength, formatLength, opcodeFormat, opcodeOf]; omega

theorem encode_wrrd_length (data : List Byte) (rxlen : Byte) (h : Instr.WellFormed (.wrrd data rxlen)) :
    (encode (.wrrd data rxlen)).length = packetLength (opcodeOf (.wrrd data rxlen)) (encode (.wrrd data rxlen)) := by
  have hl : data.length ≤ 255 := by simpa [Instr.WellFormed, Instr.wellFormed] using h
  simp [encode, operandBytes, packetLength, formatLength, opcodeFormat, opcodeOf]; omega

end Sys2Proof
end

