-- ==== Sys2Proof/Laws/State.lean ====
section
/-! SUPPORT. One lemma per field per update of State: what each shared operation leaves in each field. -/

namespace Sys2Proof.Machine

@[simp] theorem driveCS_cfg (level : Bool) (s : State) : (driveCS level s).cfg = s.cfg := rfl
@[simp] theorem driveCS_txdr (level : Bool) (s : State) : (driveCS level s).txdr = s.txdr := rfl
@[simp] theorem driveCS_rxdr (level : Bool) (s : State) : (driveCS level s).rxdr = s.rxdr := rfl
@[simp] theorem driveCS_shtx (level : Bool) (s : State) : (driveCS level s).shtx = s.shtx := rfl
@[simp] theorem driveCS_shrx (level : Bool) (s : State) : (driveCS level s).shrx = s.shrx := rfl
@[simp] theorem driveCS_tickcnt (level : Bool) (s : State) : (driveCS level s).tickcnt = s.tickcnt := rfl
@[simp] theorem driveCS_rxne (level : Bool) (s : State) : (driveCS level s).rxne = s.rxne := rfl
@[simp] theorem driveCS_txpend (level : Bool) (s : State) : (driveCS level s).txpend = s.txpend := rfl
@[simp] theorem driveCS_shbusy (level : Bool) (s : State) : (driveCS level s).shbusy = s.shbusy := rfl
@[simp] theorem driveCS_edge (level : Bool) (s : State) : (driveCS level s).edge = s.edge := rfl
@[simp] theorem driveCS_clken (level : Bool) (s : State) : (driveCS level s).clken = s.clken := rfl
@[simp] theorem driveCS_pincfg (level : Bool) (s : State) : (driveCS level s).pincfg = s.pincfg := rfl
@[simp] theorem driveCS_spicfg (level : Bool) (s : State) : (driveCS level s).spicfg = s.spicfg := rfl
@[simp] theorem driveCS_csout (level : Bool) (s : State) : (driveCS level s).csout = level := rfl
@[simp] theorem driveCS_tgen (level : Bool) (s : State) : (driveCS level s).tgen = s.tgen := rfl
@[simp] theorem driveCS_tgperiod (level : Bool) (s : State) : (driveCS level s).tgperiod = s.tgperiod := rfl
@[simp] theorem driveCS_sck (level : Bool) (s : State) : (driveCS level s).sck = s.sck := rfl
@[simp] theorem driveCS_mosi (level : Bool) (s : State) : (driveCS level s).mosi = s.mosi := rfl
@[simp] theorem driveCS_busy (level : Bool) (s : State) : (driveCS level s).busy = s.busy := rfl
@[simp] theorem driveCS_op (level : Bool) (s : State) : (driveCS level s).op = s.op := rfl
@[simp] theorem driveCS_a0 (level : Bool) (s : State) : (driveCS level s).a0 = s.a0 := rfl
@[simp] theorem driveCS_a1 (level : Bool) (s : State) : (driveCS level s).a1 = s.a1 := rfl
@[simp] theorem driveCS_txbuf (level : Bool) (s : State) : (driveCS level s).txbuf = s.txbuf := rfl
@[simp] theorem driveCS_rsp (level : Bool) (s : State) : (driveCS level s).rsp = s.rsp := rfl
@[simp] theorem driveCS_cont (level : Bool) (s : State) : (driveCS level s).cont = s.cont := rfl
@[simp] theorem driveCS_respPort (level : Bool) (s : State) : (driveCS level s).respPort = s.respPort := rfl
@[simp] theorem driveCS_hist (level : Bool) (s : State) : (driveCS level s).hist = s.hist ++ (if s.csout = level then [] else [if level then Event.csh else Event.csl]) := rfl
@[simp] theorem driveCS_packets (level : Bool) (s : State) : (driveCS level s).packets = s.packets := rfl
@[simp] theorem driveCS_sched (level : Bool) (s : State) : (driveCS level s).sched = s.sched := rfl
@[simp] theorem driveCS_miso (level : Bool) (s : State) : (driveCS level s).miso = s.miso := rfl

@[simp] theorem applyInit_cfg (s : State) : (applyInit s).cfg = s.cfg := rfl
@[simp] theorem applyInit_txdr (s : State) : (applyInit s).txdr = s.txdr := rfl
@[simp] theorem applyInit_rxdr (s : State) : (applyInit s).rxdr = s.rxdr := rfl
@[simp] theorem applyInit_shtx (s : State) : (applyInit s).shtx = s.shtx := rfl
@[simp] theorem applyInit_shrx (s : State) : (applyInit s).shrx = s.shrx := rfl
@[simp] theorem applyInit_tickcnt (s : State) : (applyInit s).tickcnt = s.tickcnt := rfl
@[simp] theorem applyInit_rxne (s : State) : (applyInit s).rxne = s.rxne := rfl
@[simp] theorem applyInit_txpend (s : State) : (applyInit s).txpend = s.txpend := rfl
@[simp] theorem applyInit_shbusy (s : State) : (applyInit s).shbusy = s.shbusy := rfl
@[simp] theorem applyInit_edge (s : State) : (applyInit s).edge = s.edge := rfl
@[simp] theorem applyInit_clken (s : State) : (applyInit s).clken = 0b11 := rfl
@[simp] theorem applyInit_pincfg (s : State) : (applyInit s).pincfg = pincfgInit := rfl
@[simp] theorem applyInit_spicfg (s : State) : (applyInit s).spicfg = spicfgInit s.cfg := rfl
@[simp] theorem applyInit_csout (s : State) : (applyInit s).csout = true := rfl
@[simp] theorem applyInit_tgen (s : State) : (applyInit s).tgen = s.tgen := rfl
@[simp] theorem applyInit_tgperiod (s : State) : (applyInit s).tgperiod = s.tgperiod := rfl
@[simp] theorem applyInit_sck (s : State) : (applyInit s).sck = levelOfBit s.cfg.cpol := rfl
@[simp] theorem applyInit_mosi (s : State) : (applyInit s).mosi = s.mosi := rfl
@[simp] theorem applyInit_busy (s : State) : (applyInit s).busy = s.busy := rfl
@[simp] theorem applyInit_op (s : State) : (applyInit s).op = s.op := rfl
@[simp] theorem applyInit_a0 (s : State) : (applyInit s).a0 = s.a0 := rfl
@[simp] theorem applyInit_a1 (s : State) : (applyInit s).a1 = s.a1 := rfl
@[simp] theorem applyInit_txbuf (s : State) : (applyInit s).txbuf = s.txbuf := rfl
@[simp] theorem applyInit_rsp (s : State) : (applyInit s).rsp = s.rsp := rfl
@[simp] theorem applyInit_cont (s : State) : (applyInit s).cont = s.cont := rfl
@[simp] theorem applyInit_respPort (s : State) : (applyInit s).respPort = s.respPort := rfl
@[simp] theorem applyInit_hist (s : State) : (applyInit s).hist = s.hist ++ (if s.csout = true then [] else [Event.csh]) := rfl
@[simp] theorem applyInit_packets (s : State) : (applyInit s).packets = s.packets := rfl
@[simp] theorem applyInit_sched (s : State) : (applyInit s).sched = s.sched := rfl
@[simp] theorem applyInit_miso (s : State) : (applyInit s).miso = s.miso := rfl

@[simp] theorem sendByte_cfg (v : Byte) (s : State) : (sendByte v s).cfg = s.cfg := rfl
@[simp] theorem sendByte_txdr (v : Byte) (s : State) : (sendByte v s).txdr = v := rfl
@[simp] theorem sendByte_rxdr (v : Byte) (s : State) : (sendByte v s).rxdr = s.rxdr := rfl
@[simp] theorem sendByte_shtx (v : Byte) (s : State) : (sendByte v s).shtx = s.shtx := rfl
@[simp] theorem sendByte_shrx (v : Byte) (s : State) : (sendByte v s).shrx = s.shrx := rfl
@[simp] theorem sendByte_tickcnt (v : Byte) (s : State) : (sendByte v s).tickcnt = s.tickcnt := rfl
@[simp] theorem sendByte_rxne (v : Byte) (s : State) : (sendByte v s).rxne = s.rxne := rfl
@[simp] theorem sendByte_txpend (v : Byte) (s : State) : (sendByte v s).txpend = true := rfl
@[simp] theorem sendByte_shbusy (v : Byte) (s : State) : (sendByte v s).shbusy = s.shbusy := rfl
@[simp] theorem sendByte_edge (v : Byte) (s : State) : (sendByte v s).edge = s.edge := rfl
@[simp] theorem sendByte_clken (v : Byte) (s : State) : (sendByte v s).clken = s.clken := rfl
@[simp] theorem sendByte_pincfg (v : Byte) (s : State) : (sendByte v s).pincfg = s.pincfg := rfl
@[simp] theorem sendByte_spicfg (v : Byte) (s : State) : (sendByte v s).spicfg = s.spicfg := rfl
@[simp] theorem sendByte_csout (v : Byte) (s : State) : (sendByte v s).csout = s.csout := rfl
@[simp] theorem sendByte_tgen (v : Byte) (s : State) : (sendByte v s).tgen = s.tgen := rfl
@[simp] theorem sendByte_tgperiod (v : Byte) (s : State) : (sendByte v s).tgperiod = s.tgperiod := rfl
@[simp] theorem sendByte_sck (v : Byte) (s : State) : (sendByte v s).sck = s.sck := rfl
@[simp] theorem sendByte_mosi (v : Byte) (s : State) : (sendByte v s).mosi = s.mosi := rfl
@[simp] theorem sendByte_busy (v : Byte) (s : State) : (sendByte v s).busy = s.busy := rfl
@[simp] theorem sendByte_op (v : Byte) (s : State) : (sendByte v s).op = s.op := rfl
@[simp] theorem sendByte_a0 (v : Byte) (s : State) : (sendByte v s).a0 = s.a0 := rfl
@[simp] theorem sendByte_a1 (v : Byte) (s : State) : (sendByte v s).a1 = s.a1 := rfl
@[simp] theorem sendByte_txbuf (v : Byte) (s : State) : (sendByte v s).txbuf = s.txbuf := rfl
@[simp] theorem sendByte_rsp (v : Byte) (s : State) : (sendByte v s).rsp = s.rsp := rfl
@[simp] theorem sendByte_cont (v : Byte) (s : State) : (sendByte v s).cont = s.cont := rfl
@[simp] theorem sendByte_respPort (v : Byte) (s : State) : (sendByte v s).respPort = s.respPort := rfl
@[simp] theorem sendByte_hist (v : Byte) (s : State) : (sendByte v s).hist = s.hist := rfl
@[simp] theorem sendByte_packets (v : Byte) (s : State) : (sendByte v s).packets = s.packets := rfl
@[simp] theorem sendByte_sched (v : Byte) (s : State) : (sendByte v s).sched = s.sched := rfl
@[simp] theorem sendByte_miso (v : Byte) (s : State) : (sendByte v s).miso = s.miso := rfl

@[simp] theorem receiveByte_cfg (dst : Option ℕ) (s : State) : (receiveByte dst s).cfg = s.cfg := rfl
@[simp] theorem receiveByte_txdr (dst : Option ℕ) (s : State) : (receiveByte dst s).txdr = s.txdr := rfl
@[simp] theorem receiveByte_rxdr (dst : Option ℕ) (s : State) : (receiveByte dst s).rxdr = s.rxdr := rfl
@[simp] theorem receiveByte_shtx (dst : Option ℕ) (s : State) : (receiveByte dst s).shtx = s.shtx := rfl
@[simp] theorem receiveByte_shrx (dst : Option ℕ) (s : State) : (receiveByte dst s).shrx = s.shrx := rfl
@[simp] theorem receiveByte_tickcnt (dst : Option ℕ) (s : State) : (receiveByte dst s).tickcnt = s.tickcnt := rfl
@[simp] theorem receiveByte_rxne (dst : Option ℕ) (s : State) : (receiveByte dst s).rxne = false := rfl
@[simp] theorem receiveByte_txpend (dst : Option ℕ) (s : State) : (receiveByte dst s).txpend = s.txpend := rfl
@[simp] theorem receiveByte_shbusy (dst : Option ℕ) (s : State) : (receiveByte dst s).shbusy = s.shbusy := rfl
@[simp] theorem receiveByte_edge (dst : Option ℕ) (s : State) : (receiveByte dst s).edge = s.edge := rfl
@[simp] theorem receiveByte_clken (dst : Option ℕ) (s : State) : (receiveByte dst s).clken = s.clken := rfl
@[simp] theorem receiveByte_pincfg (dst : Option ℕ) (s : State) : (receiveByte dst s).pincfg = s.pincfg := rfl
@[simp] theorem receiveByte_spicfg (dst : Option ℕ) (s : State) : (receiveByte dst s).spicfg = s.spicfg := rfl
@[simp] theorem receiveByte_csout (dst : Option ℕ) (s : State) : (receiveByte dst s).csout = s.csout := rfl
@[simp] theorem receiveByte_tgen (dst : Option ℕ) (s : State) : (receiveByte dst s).tgen = s.tgen := rfl
@[simp] theorem receiveByte_tgperiod (dst : Option ℕ) (s : State) : (receiveByte dst s).tgperiod = s.tgperiod := rfl
@[simp] theorem receiveByte_sck (dst : Option ℕ) (s : State) : (receiveByte dst s).sck = s.sck := rfl
@[simp] theorem receiveByte_mosi (dst : Option ℕ) (s : State) : (receiveByte dst s).mosi = s.mosi := rfl
@[simp] theorem receiveByte_busy (dst : Option ℕ) (s : State) : (receiveByte dst s).busy = s.busy := rfl
@[simp] theorem receiveByte_op (dst : Option ℕ) (s : State) : (receiveByte dst s).op = s.op := rfl
@[simp] theorem receiveByte_a0 (dst : Option ℕ) (s : State) : (receiveByte dst s).a0 = s.a0 := rfl
@[simp] theorem receiveByte_a1 (dst : Option ℕ) (s : State) : (receiveByte dst s).a1 = s.a1 := rfl
@[simp] theorem receiveByte_txbuf (dst : Option ℕ) (s : State) : (receiveByte dst s).txbuf = s.txbuf := rfl
@[simp] theorem receiveByte_cont (dst : Option ℕ) (s : State) : (receiveByte dst s).cont = s.cont := rfl
@[simp] theorem receiveByte_respPort (dst : Option ℕ) (s : State) : (receiveByte dst s).respPort = s.respPort := rfl
@[simp] theorem receiveByte_hist (dst : Option ℕ) (s : State) : (receiveByte dst s).hist = s.hist := rfl
@[simp] theorem receiveByte_packets (dst : Option ℕ) (s : State) : (receiveByte dst s).packets = s.packets := rfl
@[simp] theorem receiveByte_sched (dst : Option ℕ) (s : State) : (receiveByte dst s).sched = s.sched := rfl
@[simp] theorem receiveByte_miso (dst : Option ℕ) (s : State) : (receiveByte dst s).miso = s.miso := rfl
@[simp] theorem receiveByte_none_rsp (s : State) : (receiveByte none s).rsp = s.rsp := rfl
@[simp] theorem receiveByte_some_rsp (j : ℕ) (s : State) : (receiveByte (some j) s).rsp = bufWrite s.rsp j s.rxdr := rfl

@[simp] theorem tickStart_cfg (s : State) : (tickStart s).cfg = s.cfg := rfl
@[simp] theorem tickStart_txdr (s : State) : (tickStart s).txdr = s.txdr := rfl
@[simp] theorem tickStart_rxdr (s : State) : (tickStart s).rxdr = s.rxdr := rfl
@[simp] theorem tickStart_shtx (s : State) : (tickStart s).shtx = s.shtx := rfl
@[simp] theorem tickStart_shrx (s : State) : (tickStart s).shrx = s.shrx := rfl
@[simp] theorem tickStart_tickcnt (s : State) : (tickStart s).tickcnt = s.tickcnt := rfl
@[simp] theorem tickStart_rxne (s : State) : (tickStart s).rxne = s.rxne := rfl
@[simp] theorem tickStart_txpend (s : State) : (tickStart s).txpend = s.txpend := rfl
@[simp] theorem tickStart_shbusy (s : State) : (tickStart s).shbusy = s.shbusy := rfl
@[simp] theorem tickStart_edge (s : State) : (tickStart s).edge = s.edge := rfl
@[simp] theorem tickStart_clken (s : State) : (tickStart s).clken = s.clken := rfl
@[simp] theorem tickStart_pincfg (s : State) : (tickStart s).pincfg = s.pincfg := rfl
@[simp] theorem tickStart_spicfg (s : State) : (tickStart s).spicfg = s.spicfg := rfl
@[simp] theorem tickStart_csout (s : State) : (tickStart s).csout = s.csout := rfl
@[simp] theorem tickStart_tgen (s : State) : (tickStart s).tgen = (tickArmable s.cfg || s.tgen) := rfl
@[simp] theorem tickStart_tgperiod (s : State) : (tickStart s).tgperiod = if tickArmable s.cfg then periodWord (tickPeriod s.cfg) else s.tgperiod := rfl
@[simp] theorem tickStart_sck (s : State) : (tickStart s).sck = s.sck := rfl
@[simp] theorem tickStart_mosi (s : State) : (tickStart s).mosi = s.mosi := rfl
@[simp] theorem tickStart_busy (s : State) : (tickStart s).busy = s.busy := rfl
@[simp] theorem tickStart_op (s : State) : (tickStart s).op = s.op := rfl
@[simp] theorem tickStart_a0 (s : State) : (tickStart s).a0 = s.a0 := rfl
@[simp] theorem tickStart_a1 (s : State) : (tickStart s).a1 = s.a1 := rfl
@[simp] theorem tickStart_txbuf (s : State) : (tickStart s).txbuf = s.txbuf := rfl
@[simp] theorem tickStart_rsp (s : State) : (tickStart s).rsp = s.rsp := rfl
@[simp] theorem tickStart_cont (s : State) : (tickStart s).cont = s.cont := rfl
@[simp] theorem tickStart_respPort (s : State) : (tickStart s).respPort = s.respPort := rfl
@[simp] theorem tickStart_hist (s : State) : (tickStart s).hist = s.hist := rfl
@[simp] theorem tickStart_packets (s : State) : (tickStart s).packets = s.packets := rfl
@[simp] theorem tickStart_sched (s : State) : (tickStart s).sched = s.sched := rfl
@[simp] theorem tickStart_miso (s : State) : (tickStart s).miso = s.miso := rfl

@[simp] theorem setTick_cfg (n : Word) (s : State) : (setTick n s).cfg = s.cfg := rfl
@[simp] theorem setTick_txdr (n : Word) (s : State) : (setTick n s).txdr = s.txdr := rfl
@[simp] theorem setTick_rxdr (n : Word) (s : State) : (setTick n s).rxdr = s.rxdr := rfl
@[simp] theorem setTick_shtx (n : Word) (s : State) : (setTick n s).shtx = s.shtx := rfl
@[simp] theorem setTick_shrx (n : Word) (s : State) : (setTick n s).shrx = s.shrx := rfl
@[simp] theorem setTick_tickcnt (n : Word) (s : State) : (setTick n s).tickcnt = n := rfl
@[simp] theorem setTick_rxne (n : Word) (s : State) : (setTick n s).rxne = s.rxne := rfl
@[simp] theorem setTick_txpend (n : Word) (s : State) : (setTick n s).txpend = s.txpend := rfl
@[simp] theorem setTick_shbusy (n : Word) (s : State) : (setTick n s).shbusy = s.shbusy := rfl
@[simp] theorem setTick_edge (n : Word) (s : State) : (setTick n s).edge = s.edge := rfl
@[simp] theorem setTick_clken (n : Word) (s : State) : (setTick n s).clken = s.clken := rfl
@[simp] theorem setTick_pincfg (n : Word) (s : State) : (setTick n s).pincfg = s.pincfg := rfl
@[simp] theorem setTick_spicfg (n : Word) (s : State) : (setTick n s).spicfg = s.spicfg := rfl
@[simp] theorem setTick_csout (n : Word) (s : State) : (setTick n s).csout = s.csout := rfl
@[simp] theorem setTick_tgen (n : Word) (s : State) : (setTick n s).tgen = s.tgen := rfl
@[simp] theorem setTick_tgperiod (n : Word) (s : State) : (setTick n s).tgperiod = s.tgperiod := rfl
@[simp] theorem setTick_sck (n : Word) (s : State) : (setTick n s).sck = s.sck := rfl
@[simp] theorem setTick_mosi (n : Word) (s : State) : (setTick n s).mosi = s.mosi := rfl
@[simp] theorem setTick_busy (n : Word) (s : State) : (setTick n s).busy = s.busy := rfl
@[simp] theorem setTick_op (n : Word) (s : State) : (setTick n s).op = s.op := rfl
@[simp] theorem setTick_a0 (n : Word) (s : State) : (setTick n s).a0 = s.a0 := rfl
@[simp] theorem setTick_a1 (n : Word) (s : State) : (setTick n s).a1 = s.a1 := rfl
@[simp] theorem setTick_txbuf (n : Word) (s : State) : (setTick n s).txbuf = s.txbuf := rfl
@[simp] theorem setTick_rsp (n : Word) (s : State) : (setTick n s).rsp = s.rsp := rfl
@[simp] theorem setTick_cont (n : Word) (s : State) : (setTick n s).cont = s.cont := rfl
@[simp] theorem setTick_respPort (n : Word) (s : State) : (setTick n s).respPort = s.respPort := rfl
@[simp] theorem setTick_hist (n : Word) (s : State) : (setTick n s).hist = s.hist := rfl
@[simp] theorem setTick_packets (n : Word) (s : State) : (setTick n s).packets = s.packets := rfl
@[simp] theorem setTick_sched (n : Word) (s : State) : (setTick n s).sched = s.sched := rfl
@[simp] theorem setTick_miso (n : Word) (s : State) : (setTick n s).miso = s.miso := rfl

@[simp] theorem complete_cfg (s : State) : (complete s).cfg = s.cfg := rfl
@[simp] theorem complete_txdr (s : State) : (complete s).txdr = s.txdr := rfl
@[simp] theorem complete_rxdr (s : State) : (complete s).rxdr = s.rxdr := rfl
@[simp] theorem complete_shtx (s : State) : (complete s).shtx = s.shtx := rfl
@[simp] theorem complete_shrx (s : State) : (complete s).shrx = s.shrx := rfl
@[simp] theorem complete_tickcnt (s : State) : (complete s).tickcnt = s.tickcnt := rfl
@[simp] theorem complete_rxne (s : State) : (complete s).rxne = s.rxne := rfl
@[simp] theorem complete_txpend (s : State) : (complete s).txpend = s.txpend := rfl
@[simp] theorem complete_shbusy (s : State) : (complete s).shbusy = s.shbusy := rfl
@[simp] theorem complete_edge (s : State) : (complete s).edge = s.edge := rfl
@[simp] theorem complete_clken (s : State) : (complete s).clken = s.clken := rfl
@[simp] theorem complete_pincfg (s : State) : (complete s).pincfg = s.pincfg := rfl
@[simp] theorem complete_spicfg (s : State) : (complete s).spicfg = s.spicfg := rfl
@[simp] theorem complete_csout (s : State) : (complete s).csout = s.csout := rfl
@[simp] theorem complete_tgen (s : State) : (complete s).tgen = s.tgen := rfl
@[simp] theorem complete_tgperiod (s : State) : (complete s).tgperiod = s.tgperiod := rfl
@[simp] theorem complete_sck (s : State) : (complete s).sck = s.sck := rfl
@[simp] theorem complete_mosi (s : State) : (complete s).mosi = s.mosi := rfl
@[simp] theorem complete_busy (s : State) : (complete s).busy = false := rfl
@[simp] theorem complete_op (s : State) : (complete s).op = s.op := rfl
@[simp] theorem complete_a0 (s : State) : (complete s).a0 = s.a0 := rfl
@[simp] theorem complete_a1 (s : State) : (complete s).a1 = s.a1 := rfl
@[simp] theorem complete_txbuf (s : State) : (complete s).txbuf = s.txbuf := rfl
@[simp] theorem complete_rsp (s : State) : (complete s).rsp = s.rsp := rfl
@[simp] theorem complete_cont (s : State) : (complete s).cont = [] := rfl
@[simp] theorem complete_respPort (s : State) : (complete s).respPort = some (response s) := rfl
@[simp] theorem complete_hist (s : State) : (complete s).hist = s.hist ++ [Event.done s.op (response s)] := rfl
@[simp] theorem complete_packets (s : State) : (complete s).packets = s.packets := rfl
@[simp] theorem complete_sched (s : State) : (complete s).sched = s.sched := rfl
@[simp] theorem complete_miso (s : State) : (complete s).miso = s.miso := rfl

@[simp] theorem beginCommand_cfg (s : State) : (beginCommand s).cfg = s.cfg := rfl
@[simp] theorem beginCommand_txdr (s : State) : (beginCommand s).txdr = s.txdr := rfl
@[simp] theorem beginCommand_rxdr (s : State) : (beginCommand s).rxdr = s.rxdr := rfl
@[simp] theorem beginCommand_shtx (s : State) : (beginCommand s).shtx = s.shtx := rfl
@[simp] theorem beginCommand_shrx (s : State) : (beginCommand s).shrx = s.shrx := rfl
@[simp] theorem beginCommand_tickcnt (s : State) : (beginCommand s).tickcnt = s.tickcnt := rfl
@[simp] theorem beginCommand_rxne (s : State) : (beginCommand s).rxne = s.rxne := rfl
@[simp] theorem beginCommand_txpend (s : State) : (beginCommand s).txpend = s.txpend := rfl
@[simp] theorem beginCommand_shbusy (s : State) : (beginCommand s).shbusy = s.shbusy := rfl
@[simp] theorem beginCommand_edge (s : State) : (beginCommand s).edge = s.edge := rfl
@[simp] theorem beginCommand_clken (s : State) : (beginCommand s).clken = s.clken := rfl
@[simp] theorem beginCommand_pincfg (s : State) : (beginCommand s).pincfg = s.pincfg := rfl
@[simp] theorem beginCommand_spicfg (s : State) : (beginCommand s).spicfg = s.spicfg := rfl
@[simp] theorem beginCommand_csout (s : State) : (beginCommand s).csout = s.csout := rfl
@[simp] theorem beginCommand_tgen (s : State) : (beginCommand s).tgen = s.tgen := rfl
@[simp] theorem beginCommand_tgperiod (s : State) : (beginCommand s).tgperiod = s.tgperiod := rfl
@[simp] theorem beginCommand_sck (s : State) : (beginCommand s).sck = s.sck := rfl
@[simp] theorem beginCommand_mosi (s : State) : (beginCommand s).mosi = s.mosi := rfl
@[simp] theorem beginCommand_busy (s : State) : (beginCommand s).busy = true := rfl
@[simp] theorem beginCommand_op (s : State) : (beginCommand s).op = s.op := rfl
@[simp] theorem beginCommand_a0 (s : State) : (beginCommand s).a0 = s.a0 := rfl
@[simp] theorem beginCommand_a1 (s : State) : (beginCommand s).a1 = s.a1 := rfl
@[simp] theorem beginCommand_txbuf (s : State) : (beginCommand s).txbuf = s.txbuf := rfl
@[simp] theorem beginCommand_rsp (s : State) : (beginCommand s).rsp = [] := rfl
@[simp] theorem beginCommand_cont (s : State) : (beginCommand s).cont = s.cont := rfl
@[simp] theorem beginCommand_respPort (s : State) : (beginCommand s).respPort = none := rfl
@[simp] theorem beginCommand_hist (s : State) : (beginCommand s).hist = s.hist := rfl
@[simp] theorem beginCommand_packets (s : State) : (beginCommand s).packets = s.packets := rfl
@[simp] theorem beginCommand_sched (s : State) : (beginCommand s).sched = s.sched := rfl
@[simp] theorem beginCommand_miso (s : State) : (beginCommand s).miso = s.miso := rfl

@[simp] theorem latchZ_cfg (o : Opcode) (s : State) : (latchZ o s).cfg = s.cfg := rfl
@[simp] theorem latchZ_txdr (o : Opcode) (s : State) : (latchZ o s).txdr = s.txdr := rfl
@[simp] theorem latchZ_rxdr (o : Opcode) (s : State) : (latchZ o s).rxdr = s.rxdr := rfl
@[simp] theorem latchZ_shtx (o : Opcode) (s : State) : (latchZ o s).shtx = s.shtx := rfl
@[simp] theorem latchZ_shrx (o : Opcode) (s : State) : (latchZ o s).shrx = s.shrx := rfl
@[simp] theorem latchZ_tickcnt (o : Opcode) (s : State) : (latchZ o s).tickcnt = s.tickcnt := rfl
@[simp] theorem latchZ_rxne (o : Opcode) (s : State) : (latchZ o s).rxne = s.rxne := rfl
@[simp] theorem latchZ_txpend (o : Opcode) (s : State) : (latchZ o s).txpend = s.txpend := rfl
@[simp] theorem latchZ_shbusy (o : Opcode) (s : State) : (latchZ o s).shbusy = s.shbusy := rfl
@[simp] theorem latchZ_edge (o : Opcode) (s : State) : (latchZ o s).edge = s.edge := rfl
@[simp] theorem latchZ_clken (o : Opcode) (s : State) : (latchZ o s).clken = s.clken := rfl
@[simp] theorem latchZ_pincfg (o : Opcode) (s : State) : (latchZ o s).pincfg = s.pincfg := rfl
@[simp] theorem latchZ_spicfg (o : Opcode) (s : State) : (latchZ o s).spicfg = s.spicfg := rfl
@[simp] theorem latchZ_csout (o : Opcode) (s : State) : (latchZ o s).csout = s.csout := rfl
@[simp] theorem latchZ_tgen (o : Opcode) (s : State) : (latchZ o s).tgen = s.tgen := rfl
@[simp] theorem latchZ_tgperiod (o : Opcode) (s : State) : (latchZ o s).tgperiod = s.tgperiod := rfl
@[simp] theorem latchZ_sck (o : Opcode) (s : State) : (latchZ o s).sck = s.sck := rfl
@[simp] theorem latchZ_mosi (o : Opcode) (s : State) : (latchZ o s).mosi = s.mosi := rfl
@[simp] theorem latchZ_busy (o : Opcode) (s : State) : (latchZ o s).busy = s.busy := rfl
@[simp] theorem latchZ_op (o : Opcode) (s : State) : (latchZ o s).op = opcodeByte o := rfl
@[simp] theorem latchZ_a0 (o : Opcode) (s : State) : (latchZ o s).a0 = s.a0 := rfl
@[simp] theorem latchZ_a1 (o : Opcode) (s : State) : (latchZ o s).a1 = s.a1 := rfl
@[simp] theorem latchZ_txbuf (o : Opcode) (s : State) : (latchZ o s).txbuf = s.txbuf := rfl
@[simp] theorem latchZ_rsp (o : Opcode) (s : State) : (latchZ o s).rsp = s.rsp := rfl
@[simp] theorem latchZ_cont (o : Opcode) (s : State) : (latchZ o s).cont = s.cont := rfl
@[simp] theorem latchZ_respPort (o : Opcode) (s : State) : (latchZ o s).respPort = s.respPort := rfl
@[simp] theorem latchZ_hist (o : Opcode) (s : State) : (latchZ o s).hist = s.hist := rfl
@[simp] theorem latchZ_packets (o : Opcode) (s : State) : (latchZ o s).packets = s.packets := rfl
@[simp] theorem latchZ_sched (o : Opcode) (s : State) : (latchZ o s).sched = s.sched := rfl
@[simp] theorem latchZ_miso (o : Opcode) (s : State) : (latchZ o s).miso = s.miso := rfl

@[simp] theorem latchB_cfg (o : Opcode) (b : Byte) (s : State) : (latchB o b s).cfg = s.cfg := rfl
@[simp] theorem latchB_txdr (o : Opcode) (b : Byte) (s : State) : (latchB o b s).txdr = s.txdr := rfl
@[simp] theorem latchB_rxdr (o : Opcode) (b : Byte) (s : State) : (latchB o b s).rxdr = s.rxdr := rfl
@[simp] theorem latchB_shtx (o : Opcode) (b : Byte) (s : State) : (latchB o b s).shtx = s.shtx := rfl
@[simp] theorem latchB_shrx (o : Opcode) (b : Byte) (s : State) : (latchB o b s).shrx = s.shrx := rfl
@[simp] theorem latchB_tickcnt (o : Opcode) (b : Byte) (s : State) : (latchB o b s).tickcnt = s.tickcnt := rfl
@[simp] theorem latchB_rxne (o : Opcode) (b : Byte) (s : State) : (latchB o b s).rxne = s.rxne := rfl
@[simp] theorem latchB_txpend (o : Opcode) (b : Byte) (s : State) : (latchB o b s).txpend = s.txpend := rfl
@[simp] theorem latchB_shbusy (o : Opcode) (b : Byte) (s : State) : (latchB o b s).shbusy = s.shbusy := rfl
@[simp] theorem latchB_edge (o : Opcode) (b : Byte) (s : State) : (latchB o b s).edge = s.edge := rfl
@[simp] theorem latchB_clken (o : Opcode) (b : Byte) (s : State) : (latchB o b s).clken = s.clken := rfl
@[simp] theorem latchB_pincfg (o : Opcode) (b : Byte) (s : State) : (latchB o b s).pincfg = s.pincfg := rfl
@[simp] theorem latchB_spicfg (o : Opcode) (b : Byte) (s : State) : (latchB o b s).spicfg = s.spicfg := rfl
@[simp] theorem latchB_csout (o : Opcode) (b : Byte) (s : State) : (latchB o b s).csout = s.csout := rfl
@[simp] theorem latchB_tgen (o : Opcode) (b : Byte) (s : State) : (latchB o b s).tgen = s.tgen := rfl
@[simp] theorem latchB_tgperiod (o : Opcode) (b : Byte) (s : State) : (latchB o b s).tgperiod = s.tgperiod := rfl
@[simp] theorem latchB_sck (o : Opcode) (b : Byte) (s : State) : (latchB o b s).sck = s.sck := rfl
@[simp] theorem latchB_mosi (o : Opcode) (b : Byte) (s : State) : (latchB o b s).mosi = s.mosi := rfl
@[simp] theorem latchB_busy (o : Opcode) (b : Byte) (s : State) : (latchB o b s).busy = s.busy := rfl
@[simp] theorem latchB_op (o : Opcode) (b : Byte) (s : State) : (latchB o b s).op = opcodeByte o := rfl
@[simp] theorem latchB_a0 (o : Opcode) (b : Byte) (s : State) : (latchB o b s).a0 = b.setWidth 32 := rfl
@[simp] theorem latchB_a1 (o : Opcode) (b : Byte) (s : State) : (latchB o b s).a1 = s.a1 := rfl
@[simp] theorem latchB_txbuf (o : Opcode) (b : Byte) (s : State) : (latchB o b s).txbuf = s.txbuf := rfl
@[simp] theorem latchB_rsp (o : Opcode) (b : Byte) (s : State) : (latchB o b s).rsp = s.rsp := rfl
@[simp] theorem latchB_cont (o : Opcode) (b : Byte) (s : State) : (latchB o b s).cont = s.cont := rfl
@[simp] theorem latchB_respPort (o : Opcode) (b : Byte) (s : State) : (latchB o b s).respPort = s.respPort := rfl
@[simp] theorem latchB_hist (o : Opcode) (b : Byte) (s : State) : (latchB o b s).hist = s.hist := rfl
@[simp] theorem latchB_packets (o : Opcode) (b : Byte) (s : State) : (latchB o b s).packets = s.packets := rfl
@[simp] theorem latchB_sched (o : Opcode) (b : Byte) (s : State) : (latchB o b s).sched = s.sched := rfl
@[simp] theorem latchB_miso (o : Opcode) (b : Byte) (s : State) : (latchB o b s).miso = s.miso := rfl

@[simp] theorem latchC_cfg (o : Opcode) (c l : Byte) (s : State) : (latchC o c l s).cfg = s.cfg := rfl
@[simp] theorem latchC_txdr (o : Opcode) (c l : Byte) (s : State) : (latchC o c l s).txdr = s.txdr := rfl
@[simp] theorem latchC_rxdr (o : Opcode) (c l : Byte) (s : State) : (latchC o c l s).rxdr = s.rxdr := rfl
@[simp] theorem latchC_shtx (o : Opcode) (c l : Byte) (s : State) : (latchC o c l s).shtx = s.shtx := rfl
@[simp] theorem latchC_shrx (o : Opcode) (c l : Byte) (s : State) : (latchC o c l s).shrx = s.shrx := rfl
@[simp] theorem latchC_tickcnt (o : Opcode) (c l : Byte) (s : State) : (latchC o c l s).tickcnt = s.tickcnt := rfl
@[simp] theorem latchC_rxne (o : Opcode) (c l : Byte) (s : State) : (latchC o c l s).rxne = s.rxne := rfl
@[simp] theorem latchC_txpend (o : Opcode) (c l : Byte) (s : State) : (latchC o c l s).txpend = s.txpend := rfl
@[simp] theorem latchC_shbusy (o : Opcode) (c l : Byte) (s : State) : (latchC o c l s).shbusy = s.shbusy := rfl
@[simp] theorem latchC_edge (o : Opcode) (c l : Byte) (s : State) : (latchC o c l s).edge = s.edge := rfl
@[simp] theorem latchC_clken (o : Opcode) (c l : Byte) (s : State) : (latchC o c l s).clken = s.clken := rfl
@[simp] theorem latchC_pincfg (o : Opcode) (c l : Byte) (s : State) : (latchC o c l s).pincfg = s.pincfg := rfl
@[simp] theorem latchC_spicfg (o : Opcode) (c l : Byte) (s : State) : (latchC o c l s).spicfg = s.spicfg := rfl
@[simp] theorem latchC_csout (o : Opcode) (c l : Byte) (s : State) : (latchC o c l s).csout = s.csout := rfl
@[simp] theorem latchC_tgen (o : Opcode) (c l : Byte) (s : State) : (latchC o c l s).tgen = s.tgen := rfl
@[simp] theorem latchC_tgperiod (o : Opcode) (c l : Byte) (s : State) : (latchC o c l s).tgperiod = s.tgperiod := rfl
@[simp] theorem latchC_sck (o : Opcode) (c l : Byte) (s : State) : (latchC o c l s).sck = s.sck := rfl
@[simp] theorem latchC_mosi (o : Opcode) (c l : Byte) (s : State) : (latchC o c l s).mosi = s.mosi := rfl
@[simp] theorem latchC_busy (o : Opcode) (c l : Byte) (s : State) : (latchC o c l s).busy = s.busy := rfl
@[simp] theorem latchC_op (o : Opcode) (c l : Byte) (s : State) : (latchC o c l s).op = opcodeByte o := rfl
@[simp] theorem latchC_a0 (o : Opcode) (c l : Byte) (s : State) : (latchC o c l s).a0 = c.setWidth 32 := rfl
@[simp] theorem latchC_a1 (o : Opcode) (c l : Byte) (s : State) : (latchC o c l s).a1 = l := rfl
@[simp] theorem latchC_txbuf (o : Opcode) (c l : Byte) (s : State) : (latchC o c l s).txbuf = s.txbuf := rfl
@[simp] theorem latchC_rsp (o : Opcode) (c l : Byte) (s : State) : (latchC o c l s).rsp = s.rsp := rfl
@[simp] theorem latchC_cont (o : Opcode) (c l : Byte) (s : State) : (latchC o c l s).cont = s.cont := rfl
@[simp] theorem latchC_respPort (o : Opcode) (c l : Byte) (s : State) : (latchC o c l s).respPort = s.respPort := rfl
@[simp] theorem latchC_hist (o : Opcode) (c l : Byte) (s : State) : (latchC o c l s).hist = s.hist := rfl
@[simp] theorem latchC_packets (o : Opcode) (c l : Byte) (s : State) : (latchC o c l s).packets = s.packets := rfl
@[simp] theorem latchC_sched (o : Opcode) (c l : Byte) (s : State) : (latchC o c l s).sched = s.sched := rfl
@[simp] theorem latchC_miso (o : Opcode) (c l : Byte) (s : State) : (latchC o c l s).miso = s.miso := rfl

@[simp] theorem latchW_cfg (o : Opcode) (n : Word) (s : State) : (latchW o n s).cfg = s.cfg := rfl
@[simp] theorem latchW_txdr (o : Opcode) (n : Word) (s : State) : (latchW o n s).txdr = s.txdr := rfl
@[simp] theorem latchW_rxdr (o : Opcode) (n : Word) (s : State) : (latchW o n s).rxdr = s.rxdr := rfl
@[simp] theorem latchW_shtx (o : Opcode) (n : Word) (s : State) : (latchW o n s).shtx = s.shtx := rfl
@[simp] theorem latchW_shrx (o : Opcode) (n : Word) (s : State) : (latchW o n s).shrx = s.shrx := rfl
@[simp] theorem latchW_tickcnt (o : Opcode) (n : Word) (s : State) : (latchW o n s).tickcnt = s.tickcnt := rfl
@[simp] theorem latchW_rxne (o : Opcode) (n : Word) (s : State) : (latchW o n s).rxne = s.rxne := rfl
@[simp] theorem latchW_txpend (o : Opcode) (n : Word) (s : State) : (latchW o n s).txpend = s.txpend := rfl
@[simp] theorem latchW_shbusy (o : Opcode) (n : Word) (s : State) : (latchW o n s).shbusy = s.shbusy := rfl
@[simp] theorem latchW_edge (o : Opcode) (n : Word) (s : State) : (latchW o n s).edge = s.edge := rfl
@[simp] theorem latchW_clken (o : Opcode) (n : Word) (s : State) : (latchW o n s).clken = s.clken := rfl
@[simp] theorem latchW_pincfg (o : Opcode) (n : Word) (s : State) : (latchW o n s).pincfg = s.pincfg := rfl
@[simp] theorem latchW_spicfg (o : Opcode) (n : Word) (s : State) : (latchW o n s).spicfg = s.spicfg := rfl
@[simp] theorem latchW_csout (o : Opcode) (n : Word) (s : State) : (latchW o n s).csout = s.csout := rfl
@[simp] theorem latchW_tgen (o : Opcode) (n : Word) (s : State) : (latchW o n s).tgen = s.tgen := rfl
@[simp] theorem latchW_tgperiod (o : Opcode) (n : Word) (s : State) : (latchW o n s).tgperiod = s.tgperiod := rfl
@[simp] theorem latchW_sck (o : Opcode) (n : Word) (s : State) : (latchW o n s).sck = s.sck := rfl
@[simp] theorem latchW_mosi (o : Opcode) (n : Word) (s : State) : (latchW o n s).mosi = s.mosi := rfl
@[simp] theorem latchW_busy (o : Opcode) (n : Word) (s : State) : (latchW o n s).busy = s.busy := rfl
@[simp] theorem latchW_op (o : Opcode) (n : Word) (s : State) : (latchW o n s).op = opcodeByte o := rfl
@[simp] theorem latchW_a0 (o : Opcode) (n : Word) (s : State) : (latchW o n s).a0 = n := rfl
@[simp] theorem latchW_a1 (o : Opcode) (n : Word) (s : State) : (latchW o n s).a1 = s.a1 := rfl
@[simp] theorem latchW_txbuf (o : Opcode) (n : Word) (s : State) : (latchW o n s).txbuf = s.txbuf := rfl
@[simp] theorem latchW_rsp (o : Opcode) (n : Word) (s : State) : (latchW o n s).rsp = s.rsp := rfl
@[simp] theorem latchW_cont (o : Opcode) (n : Word) (s : State) : (latchW o n s).cont = s.cont := rfl
@[simp] theorem latchW_respPort (o : Opcode) (n : Word) (s : State) : (latchW o n s).respPort = s.respPort := rfl
@[simp] theorem latchW_hist (o : Opcode) (n : Word) (s : State) : (latchW o n s).hist = s.hist := rfl
@[simp] theorem latchW_packets (o : Opcode) (n : Word) (s : State) : (latchW o n s).packets = s.packets := rfl
@[simp] theorem latchW_sched (o : Opcode) (n : Word) (s : State) : (latchW o n s).sched = s.sched := rfl
@[simp] theorem latchW_miso (o : Opcode) (n : Word) (s : State) : (latchW o n s).miso = s.miso := rfl

@[simp] theorem latchV_cfg (o : Opcode) (d : List Byte) (s : State) : (latchV o d s).cfg = s.cfg := rfl
@[simp] theorem latchV_txdr (o : Opcode) (d : List Byte) (s : State) : (latchV o d s).txdr = s.txdr := rfl
@[simp] theorem latchV_rxdr (o : Opcode) (d : List Byte) (s : State) : (latchV o d s).rxdr = s.rxdr := rfl
@[simp] theorem latchV_shtx (o : Opcode) (d : List Byte) (s : State) : (latchV o d s).shtx = s.shtx := rfl
@[simp] theorem latchV_shrx (o : Opcode) (d : List Byte) (s : State) : (latchV o d s).shrx = s.shrx := rfl
@[simp] theorem latchV_tickcnt (o : Opcode) (d : List Byte) (s : State) : (latchV o d s).tickcnt = s.tickcnt := rfl
@[simp] theorem latchV_rxne (o : Opcode) (d : List Byte) (s : State) : (latchV o d s).rxne = s.rxne := rfl
@[simp] theorem latchV_txpend (o : Opcode) (d : List Byte) (s : State) : (latchV o d s).txpend = s.txpend := rfl
@[simp] theorem latchV_shbusy (o : Opcode) (d : List Byte) (s : State) : (latchV o d s).shbusy = s.shbusy := rfl
@[simp] theorem latchV_edge (o : Opcode) (d : List Byte) (s : State) : (latchV o d s).edge = s.edge := rfl
@[simp] theorem latchV_clken (o : Opcode) (d : List Byte) (s : State) : (latchV o d s).clken = s.clken := rfl
@[simp] theorem latchV_pincfg (o : Opcode) (d : List Byte) (s : State) : (latchV o d s).pincfg = s.pincfg := rfl
@[simp] theorem latchV_spicfg (o : Opcode) (d : List Byte) (s : State) : (latchV o d s).spicfg = s.spicfg := rfl
@[simp] theorem latchV_csout (o : Opcode) (d : List Byte) (s : State) : (latchV o d s).csout = s.csout := rfl
@[simp] theorem latchV_tgen (o : Opcode) (d : List Byte) (s : State) : (latchV o d s).tgen = s.tgen := rfl
@[simp] theorem latchV_tgperiod (o : Opcode) (d : List Byte) (s : State) : (latchV o d s).tgperiod = s.tgperiod := rfl
@[simp] theorem latchV_sck (o : Opcode) (d : List Byte) (s : State) : (latchV o d s).sck = s.sck := rfl
@[simp] theorem latchV_mosi (o : Opcode) (d : List Byte) (s : State) : (latchV o d s).mosi = s.mosi := rfl
@[simp] theorem latchV_busy (o : Opcode) (d : List Byte) (s : State) : (latchV o d s).busy = s.busy := rfl
@[simp] theorem latchV_op (o : Opcode) (d : List Byte) (s : State) : (latchV o d s).op = opcodeByte o := rfl
@[simp] theorem latchV_a0 (o : Opcode) (d : List Byte) (s : State) : (latchV o d s).a0 = BitVec.ofNat 32 d.length := rfl
@[simp] theorem latchV_a1 (o : Opcode) (d : List Byte) (s : State) : (latchV o d s).a1 = s.a1 := rfl
@[simp] theorem latchV_txbuf (o : Opcode) (d : List Byte) (s : State) : (latchV o d s).txbuf = bufLoad s.txbuf d := rfl
@[simp] theorem latchV_rsp (o : Opcode) (d : List Byte) (s : State) : (latchV o d s).rsp = s.rsp := rfl
@[simp] theorem latchV_cont (o : Opcode) (d : List Byte) (s : State) : (latchV o d s).cont = s.cont := rfl
@[simp] theorem latchV_respPort (o : Opcode) (d : List Byte) (s : State) : (latchV o d s).respPort = s.respPort := rfl
@[simp] theorem latchV_hist (o : Opcode) (d : List Byte) (s : State) : (latchV o d s).hist = s.hist := rfl
@[simp] theorem latchV_packets (o : Opcode) (d : List Byte) (s : State) : (latchV o d s).packets = s.packets := rfl
@[simp] theorem latchV_sched (o : Opcode) (d : List Byte) (s : State) : (latchV o d s).sched = s.sched := rfl
@[simp] theorem latchV_miso (o : Opcode) (d : List Byte) (s : State) : (latchV o d s).miso = s.miso := rfl

@[simp] theorem latchX_cfg (o : Opcode) (d : List Byte) (r : Byte) (s : State) : (latchX o d r s).cfg = s.cfg := rfl
@[simp] theorem latchX_txdr (o : Opcode) (d : List Byte) (r : Byte) (s : State) : (latchX o d r s).txdr = s.txdr := rfl
@[simp] theorem latchX_rxdr (o : Opcode) (d : List Byte) (r : Byte) (s : State) : (latchX o d r s).rxdr = s.rxdr := rfl
@[simp] theorem latchX_shtx (o : Opcode) (d : List Byte) (r : Byte) (s : State) : (latchX o d r s).shtx = s.shtx := rfl
@[simp] theorem latchX_shrx (o : Opcode) (d : List Byte) (r : Byte) (s : State) : (latchX o d r s).shrx = s.shrx := rfl
@[simp] theorem latchX_tickcnt (o : Opcode) (d : List Byte) (r : Byte) (s : State) : (latchX o d r s).tickcnt = s.tickcnt := rfl
@[simp] theorem latchX_rxne (o : Opcode) (d : List Byte) (r : Byte) (s : State) : (latchX o d r s).rxne = s.rxne := rfl
@[simp] theorem latchX_txpend (o : Opcode) (d : List Byte) (r : Byte) (s : State) : (latchX o d r s).txpend = s.txpend := rfl
@[simp] theorem latchX_shbusy (o : Opcode) (d : List Byte) (r : Byte) (s : State) : (latchX o d r s).shbusy = s.shbusy := rfl
@[simp] theorem latchX_edge (o : Opcode) (d : List Byte) (r : Byte) (s : State) : (latchX o d r s).edge = s.edge := rfl
@[simp] theorem latchX_clken (o : Opcode) (d : List Byte) (r : Byte) (s : State) : (latchX o d r s).clken = s.clken := rfl
@[simp] theorem latchX_pincfg (o : Opcode) (d : List Byte) (r : Byte) (s : State) : (latchX o d r s).pincfg = s.pincfg := rfl
@[simp] theorem latchX_spicfg (o : Opcode) (d : List Byte) (r : Byte) (s : State) : (latchX o d r s).spicfg = s.spicfg := rfl
@[simp] theorem latchX_csout (o : Opcode) (d : List Byte) (r : Byte) (s : State) : (latchX o d r s).csout = s.csout := rfl
@[simp] theorem latchX_tgen (o : Opcode) (d : List Byte) (r : Byte) (s : State) : (latchX o d r s).tgen = s.tgen := rfl
@[simp] theorem latchX_tgperiod (o : Opcode) (d : List Byte) (r : Byte) (s : State) : (latchX o d r s).tgperiod = s.tgperiod := rfl
@[simp] theorem latchX_sck (o : Opcode) (d : List Byte) (r : Byte) (s : State) : (latchX o d r s).sck = s.sck := rfl
@[simp] theorem latchX_mosi (o : Opcode) (d : List Byte) (r : Byte) (s : State) : (latchX o d r s).mosi = s.mosi := rfl
@[simp] theorem latchX_busy (o : Opcode) (d : List Byte) (r : Byte) (s : State) : (latchX o d r s).busy = s.busy := rfl
@[simp] theorem latchX_op (o : Opcode) (d : List Byte) (r : Byte) (s : State) : (latchX o d r s).op = opcodeByte o := rfl
@[simp] theorem latchX_a0 (o : Opcode) (d : List Byte) (r : Byte) (s : State) : (latchX o d r s).a0 = BitVec.ofNat 32 d.length := rfl
@[simp] theorem latchX_a1 (o : Opcode) (d : List Byte) (r : Byte) (s : State) : (latchX o d r s).a1 = r := rfl
@[simp] theorem latchX_txbuf (o : Opcode) (d : List Byte) (r : Byte) (s : State) : (latchX o d r s).txbuf = bufLoad s.txbuf d := rfl
@[simp] theorem latchX_rsp (o : Opcode) (d : List Byte) (r : Byte) (s : State) : (latchX o d r s).rsp = s.rsp := rfl
@[simp] theorem latchX_cont (o : Opcode) (d : List Byte) (r : Byte) (s : State) : (latchX o d r s).cont = s.cont := rfl
@[simp] theorem latchX_respPort (o : Opcode) (d : List Byte) (r : Byte) (s : State) : (latchX o d r s).respPort = s.respPort := rfl
@[simp] theorem latchX_hist (o : Opcode) (d : List Byte) (r : Byte) (s : State) : (latchX o d r s).hist = s.hist := rfl
@[simp] theorem latchX_packets (o : Opcode) (d : List Byte) (r : Byte) (s : State) : (latchX o d r s).packets = s.packets := rfl
@[simp] theorem latchX_sched (o : Opcode) (d : List Byte) (r : Byte) (s : State) : (latchX o d r s).sched = s.sched := rfl
@[simp] theorem latchX_miso (o : Opcode) (d : List Byte) (r : Byte) (s : State) : (latchX o d r s).miso = s.miso := rfl

@[simp] theorem takeTick_cfg (s : State) : (takeTick s).cfg = s.cfg := rfl
@[simp] theorem takeTick_txdr (s : State) : (takeTick s).txdr = s.txdr := rfl
@[simp] theorem takeTick_rxdr (s : State) : (takeTick s).rxdr = s.rxdr := rfl
@[simp] theorem takeTick_shtx (s : State) : (takeTick s).shtx = s.shtx := rfl
@[simp] theorem takeTick_shrx (s : State) : (takeTick s).shrx = s.shrx := rfl
@[simp] theorem takeTick_tickcnt (s : State) : (takeTick s).tickcnt = if s.tickcnt = 0 then 0 else s.tickcnt - 1 := rfl
@[simp] theorem takeTick_rxne (s : State) : (takeTick s).rxne = s.rxne := rfl
@[simp] theorem takeTick_txpend (s : State) : (takeTick s).txpend = s.txpend := rfl
@[simp] theorem takeTick_shbusy (s : State) : (takeTick s).shbusy = s.shbusy := rfl
@[simp] theorem takeTick_edge (s : State) : (takeTick s).edge = s.edge := rfl
@[simp] theorem takeTick_clken (s : State) : (takeTick s).clken = s.clken := rfl
@[simp] theorem takeTick_pincfg (s : State) : (takeTick s).pincfg = s.pincfg := rfl
@[simp] theorem takeTick_spicfg (s : State) : (takeTick s).spicfg = s.spicfg := rfl
@[simp] theorem takeTick_csout (s : State) : (takeTick s).csout = s.csout := rfl
@[simp] theorem takeTick_tgen (s : State) : (takeTick s).tgen = s.tgen := rfl
@[simp] theorem takeTick_tgperiod (s : State) : (takeTick s).tgperiod = s.tgperiod := rfl
@[simp] theorem takeTick_sck (s : State) : (takeTick s).sck = s.sck := rfl
@[simp] theorem takeTick_mosi (s : State) : (takeTick s).mosi = s.mosi := rfl
@[simp] theorem takeTick_busy (s : State) : (takeTick s).busy = s.busy := rfl
@[simp] theorem takeTick_op (s : State) : (takeTick s).op = s.op := rfl
@[simp] theorem takeTick_a0 (s : State) : (takeTick s).a0 = s.a0 := rfl
@[simp] theorem takeTick_a1 (s : State) : (takeTick s).a1 = s.a1 := rfl
@[simp] theorem takeTick_txbuf (s : State) : (takeTick s).txbuf = s.txbuf := rfl
@[simp] theorem takeTick_rsp (s : State) : (takeTick s).rsp = s.rsp := rfl
@[simp] theorem takeTick_cont (s : State) : (takeTick s).cont = s.cont := rfl
@[simp] theorem takeTick_respPort (s : State) : (takeTick s).respPort = s.respPort := rfl
@[simp] theorem takeTick_hist (s : State) : (takeTick s).hist = s.hist ++ [Event.tick] := rfl
@[simp] theorem takeTick_packets (s : State) : (takeTick s).packets = s.packets := rfl
@[simp] theorem takeTick_sched (s : State) : (takeTick s).sched = s.sched := rfl
@[simp] theorem takeTick_miso (s : State) : (takeTick s).miso = s.miso := rfl

@[simp] theorem dropTurn_cfg (s : State) : (dropTurn s).cfg = s.cfg := rfl
@[simp] theorem dropTurn_txdr (s : State) : (dropTurn s).txdr = s.txdr := rfl
@[simp] theorem dropTurn_rxdr (s : State) : (dropTurn s).rxdr = s.rxdr := rfl
@[simp] theorem dropTurn_shtx (s : State) : (dropTurn s).shtx = s.shtx := rfl
@[simp] theorem dropTurn_shrx (s : State) : (dropTurn s).shrx = s.shrx := rfl
@[simp] theorem dropTurn_tickcnt (s : State) : (dropTurn s).tickcnt = s.tickcnt := rfl
@[simp] theorem dropTurn_rxne (s : State) : (dropTurn s).rxne = s.rxne := rfl
@[simp] theorem dropTurn_txpend (s : State) : (dropTurn s).txpend = s.txpend := rfl
@[simp] theorem dropTurn_shbusy (s : State) : (dropTurn s).shbusy = s.shbusy := rfl
@[simp] theorem dropTurn_edge (s : State) : (dropTurn s).edge = s.edge := rfl
@[simp] theorem dropTurn_clken (s : State) : (dropTurn s).clken = s.clken := rfl
@[simp] theorem dropTurn_pincfg (s : State) : (dropTurn s).pincfg = s.pincfg := rfl
@[simp] theorem dropTurn_spicfg (s : State) : (dropTurn s).spicfg = s.spicfg := rfl
@[simp] theorem dropTurn_csout (s : State) : (dropTurn s).csout = s.csout := rfl
@[simp] theorem dropTurn_tgen (s : State) : (dropTurn s).tgen = s.tgen := rfl
@[simp] theorem dropTurn_tgperiod (s : State) : (dropTurn s).tgperiod = s.tgperiod := rfl
@[simp] theorem dropTurn_sck (s : State) : (dropTurn s).sck = s.sck := rfl
@[simp] theorem dropTurn_mosi (s : State) : (dropTurn s).mosi = s.mosi := rfl
@[simp] theorem dropTurn_busy (s : State) : (dropTurn s).busy = s.busy := rfl
@[simp] theorem dropTurn_op (s : State) : (dropTurn s).op = s.op := rfl
@[simp] theorem dropTurn_a0 (s : State) : (dropTurn s).a0 = s.a0 := rfl
@[simp] theorem dropTurn_a1 (s : State) : (dropTurn s).a1 = s.a1 := rfl
@[simp] theorem dropTurn_txbuf (s : State) : (dropTurn s).txbuf = s.txbuf := rfl
@[simp] theorem dropTurn_rsp (s : State) : (dropTurn s).rsp = s.rsp := rfl
@[simp] theorem dropTurn_cont (s : State) : (dropTurn s).cont = s.cont := rfl
@[simp] theorem dropTurn_respPort (s : State) : (dropTurn s).respPort = s.respPort := rfl
@[simp] theorem dropTurn_hist (s : State) : (dropTurn s).hist = s.hist := rfl
@[simp] theorem dropTurn_packets (s : State) : (dropTurn s).packets = s.packets := rfl
@[simp] theorem dropTurn_sched (s : State) : (dropTurn s).sched = feedTail s.sched := rfl
@[simp] theorem dropTurn_miso (s : State) : (dropTurn s).miso = s.miso := rfl

@[simp] theorem dropPacket_cfg (s : State) : (dropPacket s).cfg = s.cfg := rfl
@[simp] theorem dropPacket_txdr (s : State) : (dropPacket s).txdr = s.txdr := rfl
@[simp] theorem dropPacket_rxdr (s : State) : (dropPacket s).rxdr = s.rxdr := rfl
@[simp] theorem dropPacket_shtx (s : State) : (dropPacket s).shtx = s.shtx := rfl
@[simp] theorem dropPacket_shrx (s : State) : (dropPacket s).shrx = s.shrx := rfl
@[simp] theorem dropPacket_tickcnt (s : State) : (dropPacket s).tickcnt = s.tickcnt := rfl
@[simp] theorem dropPacket_rxne (s : State) : (dropPacket s).rxne = s.rxne := rfl
@[simp] theorem dropPacket_txpend (s : State) : (dropPacket s).txpend = s.txpend := rfl
@[simp] theorem dropPacket_shbusy (s : State) : (dropPacket s).shbusy = s.shbusy := rfl
@[simp] theorem dropPacket_edge (s : State) : (dropPacket s).edge = s.edge := rfl
@[simp] theorem dropPacket_clken (s : State) : (dropPacket s).clken = s.clken := rfl
@[simp] theorem dropPacket_pincfg (s : State) : (dropPacket s).pincfg = s.pincfg := rfl
@[simp] theorem dropPacket_spicfg (s : State) : (dropPacket s).spicfg = s.spicfg := rfl
@[simp] theorem dropPacket_csout (s : State) : (dropPacket s).csout = s.csout := rfl
@[simp] theorem dropPacket_tgen (s : State) : (dropPacket s).tgen = s.tgen := rfl
@[simp] theorem dropPacket_tgperiod (s : State) : (dropPacket s).tgperiod = s.tgperiod := rfl
@[simp] theorem dropPacket_sck (s : State) : (dropPacket s).sck = s.sck := rfl
@[simp] theorem dropPacket_mosi (s : State) : (dropPacket s).mosi = s.mosi := rfl
@[simp] theorem dropPacket_busy (s : State) : (dropPacket s).busy = s.busy := rfl
@[simp] theorem dropPacket_op (s : State) : (dropPacket s).op = s.op := rfl
@[simp] theorem dropPacket_a0 (s : State) : (dropPacket s).a0 = s.a0 := rfl
@[simp] theorem dropPacket_a1 (s : State) : (dropPacket s).a1 = s.a1 := rfl
@[simp] theorem dropPacket_txbuf (s : State) : (dropPacket s).txbuf = s.txbuf := rfl
@[simp] theorem dropPacket_rsp (s : State) : (dropPacket s).rsp = s.rsp := rfl
@[simp] theorem dropPacket_cont (s : State) : (dropPacket s).cont = s.cont := rfl
@[simp] theorem dropPacket_respPort (s : State) : (dropPacket s).respPort = s.respPort := rfl
@[simp] theorem dropPacket_hist (s : State) : (dropPacket s).hist = s.hist := rfl
@[simp] theorem dropPacket_packets (s : State) : (dropPacket s).packets = feedTail s.packets := rfl
@[simp] theorem dropPacket_sched (s : State) : (dropPacket s).sched = s.sched := rfl
@[simp] theorem dropPacket_miso (s : State) : (dropPacket s).miso = s.miso := rfl

@[simp] theorem shifterLoad_cfg (s : State) : (shifterLoad s).cfg = s.cfg := rfl
@[simp] theorem shifterLoad_txdr (s : State) : (shifterLoad s).txdr = s.txdr := rfl
@[simp] theorem shifterLoad_rxdr (s : State) : (shifterLoad s).rxdr = s.rxdr := rfl
@[simp] theorem shifterLoad_shtx (s : State) : (shifterLoad s).shtx = s.txdr := rfl
@[simp] theorem shifterLoad_shrx (s : State) : (shifterLoad s).shrx = s.shrx := rfl
@[simp] theorem shifterLoad_tickcnt (s : State) : (shifterLoad s).tickcnt = s.tickcnt := rfl
@[simp] theorem shifterLoad_rxne (s : State) : (shifterLoad s).rxne = s.rxne := rfl
@[simp] theorem shifterLoad_txpend (s : State) : (shifterLoad s).txpend = false := rfl
@[simp] theorem shifterLoad_shbusy (s : State) : (shifterLoad s).shbusy = true := rfl
@[simp] theorem shifterLoad_edge (s : State) : (shifterLoad s).edge = 0 := rfl
@[simp] theorem shifterLoad_clken (s : State) : (shifterLoad s).clken = s.clken := rfl
@[simp] theorem shifterLoad_pincfg (s : State) : (shifterLoad s).pincfg = s.pincfg := rfl
@[simp] theorem shifterLoad_spicfg (s : State) : (shifterLoad s).spicfg = s.spicfg := rfl
@[simp] theorem shifterLoad_csout (s : State) : (shifterLoad s).csout = s.csout := rfl
@[simp] theorem shifterLoad_tgen (s : State) : (shifterLoad s).tgen = s.tgen := rfl
@[simp] theorem shifterLoad_tgperiod (s : State) : (shifterLoad s).tgperiod = s.tgperiod := rfl
@[simp] theorem shifterLoad_sck (s : State) : (shifterLoad s).sck = s.sck := rfl
@[simp] theorem shifterLoad_mosi (s : State) : (shifterLoad s).mosi = if spicfgCpha s then s.mosi else levelOfBit (s.txdr.getLsbD 7) := rfl
@[simp] theorem shifterLoad_busy (s : State) : (shifterLoad s).busy = s.busy := rfl
@[simp] theorem shifterLoad_op (s : State) : (shifterLoad s).op = s.op := rfl
@[simp] theorem shifterLoad_a0 (s : State) : (shifterLoad s).a0 = s.a0 := rfl
@[simp] theorem shifterLoad_a1 (s : State) : (shifterLoad s).a1 = s.a1 := rfl
@[simp] theorem shifterLoad_txbuf (s : State) : (shifterLoad s).txbuf = s.txbuf := rfl
@[simp] theorem shifterLoad_rsp (s : State) : (shifterLoad s).rsp = s.rsp := rfl
@[simp] theorem shifterLoad_cont (s : State) : (shifterLoad s).cont = s.cont := rfl
@[simp] theorem shifterLoad_respPort (s : State) : (shifterLoad s).respPort = s.respPort := rfl
@[simp] theorem shifterLoad_hist (s : State) : (shifterLoad s).hist = s.hist ++ [Event.xstart s.txdr] := rfl
@[simp] theorem shifterLoad_packets (s : State) : (shifterLoad s).packets = s.packets := rfl
@[simp] theorem shifterLoad_sched (s : State) : (shifterLoad s).sched = s.sched := rfl
@[simp] theorem shifterLoad_miso (s : State) : (shifterLoad s).miso = s.miso := rfl

@[simp] theorem shifterEdge_cfg (s : State) : (shifterEdge s).cfg = s.cfg := rfl
@[simp] theorem shifterEdge_txdr (s : State) : (shifterEdge s).txdr = s.txdr := rfl
@[simp] theorem shifterEdge_rxdr (s : State) : (shifterEdge s).rxdr = s.rxdr := rfl
@[simp] theorem shifterEdge_shtx (s : State) : (shifterEdge s).shtx = s.shtx := rfl
@[simp] theorem shifterEdge_shrx (s : State) : (shifterEdge s).shrx = if samplesNext s then shiftIn s.shrx (nextMiso s) else s.shrx := rfl
@[simp] theorem shifterEdge_tickcnt (s : State) : (shifterEdge s).tickcnt = s.tickcnt := rfl
@[simp] theorem shifterEdge_rxne (s : State) : (shifterEdge s).rxne = s.rxne := rfl
@[simp] theorem shifterEdge_txpend (s : State) : (shifterEdge s).txpend = s.txpend := rfl
@[simp] theorem shifterEdge_shbusy (s : State) : (shifterEdge s).shbusy = s.shbusy := rfl
@[simp] theorem shifterEdge_edge (s : State) : (shifterEdge s).edge = s.edge + 1 := rfl
@[simp] theorem shifterEdge_clken (s : State) : (shifterEdge s).clken = s.clken := rfl
@[simp] theorem shifterEdge_pincfg (s : State) : (shifterEdge s).pincfg = s.pincfg := rfl
@[simp] theorem shifterEdge_spicfg (s : State) : (shifterEdge s).spicfg = s.spicfg := rfl
@[simp] theorem shifterEdge_csout (s : State) : (shifterEdge s).csout = s.csout := rfl
@[simp] theorem shifterEdge_tgen (s : State) : (shifterEdge s).tgen = s.tgen := rfl
@[simp] theorem shifterEdge_tgperiod (s : State) : (shifterEdge s).tgperiod = s.tgperiod := rfl
@[simp] theorem shifterEdge_sck (s : State) : (shifterEdge s).sck = levelNot s.sck := rfl
@[simp] theorem shifterEdge_mosi (s : State) : (shifterEdge s).mosi = mosiAfterEdge s := rfl
@[simp] theorem shifterEdge_busy (s : State) : (shifterEdge s).busy = s.busy := rfl
@[simp] theorem shifterEdge_op (s : State) : (shifterEdge s).op = s.op := rfl
@[simp] theorem shifterEdge_a0 (s : State) : (shifterEdge s).a0 = s.a0 := rfl
@[simp] theorem shifterEdge_a1 (s : State) : (shifterEdge s).a1 = s.a1 := rfl
@[simp] theorem shifterEdge_txbuf (s : State) : (shifterEdge s).txbuf = s.txbuf := rfl
@[simp] theorem shifterEdge_rsp (s : State) : (shifterEdge s).rsp = s.rsp := rfl
@[simp] theorem shifterEdge_cont (s : State) : (shifterEdge s).cont = s.cont := rfl
@[simp] theorem shifterEdge_respPort (s : State) : (shifterEdge s).respPort = s.respPort := rfl
@[simp] theorem shifterEdge_hist (s : State) : (shifterEdge s).hist = s.hist := rfl
@[simp] theorem shifterEdge_packets (s : State) : (shifterEdge s).packets = s.packets := rfl
@[simp] theorem shifterEdge_sched (s : State) : (shifterEdge s).sched = s.sched := rfl
@[simp] theorem shifterEdge_miso (s : State) : (shifterEdge s).miso = if samplesNext s then feedTail s.miso else s.miso := rfl

@[simp] theorem shifterEnd_cfg (s : State) : (shifterEnd s).cfg = s.cfg := rfl
@[simp] theorem shifterEnd_txdr (s : State) : (shifterEnd s).txdr = s.txdr := rfl
@[simp] theorem shifterEnd_rxdr (s : State) : (shifterEnd s).rxdr = s.shrx := rfl
@[simp] theorem shifterEnd_shtx (s : State) : (shifterEnd s).shtx = s.shtx := rfl
@[simp] theorem shifterEnd_shrx (s : State) : (shifterEnd s).shrx = s.shrx := rfl
@[simp] theorem shifterEnd_tickcnt (s : State) : (shifterEnd s).tickcnt = s.tickcnt := rfl
@[simp] theorem shifterEnd_rxne (s : State) : (shifterEnd s).rxne = true := rfl
@[simp] theorem shifterEnd_txpend (s : State) : (shifterEnd s).txpend = s.txpend := rfl
@[simp] theorem shifterEnd_shbusy (s : State) : (shifterEnd s).shbusy = false := rfl
@[simp] theorem shifterEnd_edge (s : State) : (shifterEnd s).edge = 0 := rfl
@[simp] theorem shifterEnd_clken (s : State) : (shifterEnd s).clken = s.clken := rfl
@[simp] theorem shifterEnd_pincfg (s : State) : (shifterEnd s).pincfg = s.pincfg := rfl
@[simp] theorem shifterEnd_spicfg (s : State) : (shifterEnd s).spicfg = s.spicfg := rfl
@[simp] theorem shifterEnd_csout (s : State) : (shifterEnd s).csout = s.csout := rfl
@[simp] theorem shifterEnd_tgen (s : State) : (shifterEnd s).tgen = s.tgen := rfl
@[simp] theorem shifterEnd_tgperiod (s : State) : (shifterEnd s).tgperiod = s.tgperiod := rfl
@[simp] theorem shifterEnd_sck (s : State) : (shifterEnd s).sck = s.sck := rfl
@[simp] theorem shifterEnd_mosi (s : State) : (shifterEnd s).mosi = s.mosi := rfl
@[simp] theorem shifterEnd_busy (s : State) : (shifterEnd s).busy = s.busy := rfl
@[simp] theorem shifterEnd_op (s : State) : (shifterEnd s).op = s.op := rfl
@[simp] theorem shifterEnd_a0 (s : State) : (shifterEnd s).a0 = s.a0 := rfl
@[simp] theorem shifterEnd_a1 (s : State) : (shifterEnd s).a1 = s.a1 := rfl
@[simp] theorem shifterEnd_txbuf (s : State) : (shifterEnd s).txbuf = s.txbuf := rfl
@[simp] theorem shifterEnd_rsp (s : State) : (shifterEnd s).rsp = s.rsp := rfl
@[simp] theorem shifterEnd_cont (s : State) : (shifterEnd s).cont = s.cont := rfl
@[simp] theorem shifterEnd_respPort (s : State) : (shifterEnd s).respPort = s.respPort := rfl
@[simp] theorem shifterEnd_hist (s : State) : (shifterEnd s).hist = s.hist ++ [Event.xend s.shrx] := rfl
@[simp] theorem shifterEnd_packets (s : State) : (shifterEnd s).packets = s.packets := rfl
@[simp] theorem shifterEnd_sched (s : State) : (shifterEnd s).sched = s.sched := rfl
@[simp] theorem shifterEnd_miso (s : State) : (shifterEnd s).miso = s.miso := rfl

@[simp] theorem presentPacket_cfg (p : Packet) (s : State) : (presentPacket p s).cfg = s.cfg := rfl
@[simp] theorem presentPacket_txdr (p : Packet) (s : State) : (presentPacket p s).txdr = s.txdr := rfl
@[simp] theorem presentPacket_rxdr (p : Packet) (s : State) : (presentPacket p s).rxdr = s.rxdr := rfl
@[simp] theorem presentPacket_shtx (p : Packet) (s : State) : (presentPacket p s).shtx = s.shtx := rfl
@[simp] theorem presentPacket_shrx (p : Packet) (s : State) : (presentPacket p s).shrx = s.shrx := rfl
@[simp] theorem presentPacket_tickcnt (p : Packet) (s : State) : (presentPacket p s).tickcnt = s.tickcnt := rfl
@[simp] theorem presentPacket_rxne (p : Packet) (s : State) : (presentPacket p s).rxne = s.rxne := rfl
@[simp] theorem presentPacket_txpend (p : Packet) (s : State) : (presentPacket p s).txpend = s.txpend := rfl
@[simp] theorem presentPacket_shbusy (p : Packet) (s : State) : (presentPacket p s).shbusy = s.shbusy := rfl
@[simp] theorem presentPacket_edge (p : Packet) (s : State) : (presentPacket p s).edge = s.edge := rfl
@[simp] theorem presentPacket_clken (p : Packet) (s : State) : (presentPacket p s).clken = s.clken := rfl
@[simp] theorem presentPacket_pincfg (p : Packet) (s : State) : (presentPacket p s).pincfg = s.pincfg := rfl
@[simp] theorem presentPacket_spicfg (p : Packet) (s : State) : (presentPacket p s).spicfg = s.spicfg := rfl
@[simp] theorem presentPacket_csout (p : Packet) (s : State) : (presentPacket p s).csout = s.csout := rfl
@[simp] theorem presentPacket_tgen (p : Packet) (s : State) : (presentPacket p s).tgen = s.tgen := rfl
@[simp] theorem presentPacket_tgperiod (p : Packet) (s : State) : (presentPacket p s).tgperiod = s.tgperiod := rfl
@[simp] theorem presentPacket_sck (p : Packet) (s : State) : (presentPacket p s).sck = s.sck := rfl
@[simp] theorem presentPacket_mosi (p : Packet) (s : State) : (presentPacket p s).mosi = s.mosi := rfl
@[simp] theorem presentPacket_busy (p : Packet) (s : State) : (presentPacket p s).busy = false := rfl
@[simp] theorem presentPacket_op (p : Packet) (s : State) : (presentPacket p s).op = s.op := rfl
@[simp] theorem presentPacket_a0 (p : Packet) (s : State) : (presentPacket p s).a0 = s.a0 := rfl
@[simp] theorem presentPacket_a1 (p : Packet) (s : State) : (presentPacket p s).a1 = s.a1 := rfl
@[simp] theorem presentPacket_txbuf (p : Packet) (s : State) : (presentPacket p s).txbuf = s.txbuf := rfl
@[simp] theorem presentPacket_rsp (p : Packet) (s : State) : (presentPacket p s).rsp = s.rsp := rfl
@[simp] theorem presentPacket_cont (p : Packet) (s : State) : (presentPacket p s).cont = [] := rfl
@[simp] theorem presentPacket_respPort (p : Packet) (s : State) : (presentPacket p s).respPort = s.respPort := rfl
@[simp] theorem presentPacket_hist (p : Packet) (s : State) : (presentPacket p s).hist = s.hist := rfl
@[simp] theorem presentPacket_packets (p : Packet) (s : State) : (presentPacket p s).packets = ⟨p :: s.packets.given, s.packets.drawn⟩ := rfl
@[simp] theorem presentPacket_sched (p : Packet) (s : State) : (presentPacket p s).sched = ⟨Turn.host :: s.sched.given, s.sched.drawn⟩ := rfl
@[simp] theorem presentPacket_miso (p : Packet) (s : State) : (presentPacket p s).miso = s.miso := rfl

@[simp] theorem resetBlock_cfg (p : Option Params) (s : State) : (resetBlock p s).cfg = p.getD s.cfg := rfl
@[simp] theorem resetBlock_txdr (p : Option Params) (s : State) : (resetBlock p s).txdr = State.reset.txdr := rfl
@[simp] theorem resetBlock_rxdr (p : Option Params) (s : State) : (resetBlock p s).rxdr = State.reset.rxdr := rfl
@[simp] theorem resetBlock_shtx (p : Option Params) (s : State) : (resetBlock p s).shtx = State.reset.shtx := rfl
@[simp] theorem resetBlock_shrx (p : Option Params) (s : State) : (resetBlock p s).shrx = State.reset.shrx := rfl
@[simp] theorem resetBlock_tickcnt (p : Option Params) (s : State) : (resetBlock p s).tickcnt = State.reset.tickcnt := rfl
@[simp] theorem resetBlock_rxne (p : Option Params) (s : State) : (resetBlock p s).rxne = State.reset.rxne := rfl
@[simp] theorem resetBlock_txpend (p : Option Params) (s : State) : (resetBlock p s).txpend = State.reset.txpend := rfl
@[simp] theorem resetBlock_shbusy (p : Option Params) (s : State) : (resetBlock p s).shbusy = State.reset.shbusy := rfl
@[simp] theorem resetBlock_edge (p : Option Params) (s : State) : (resetBlock p s).edge = State.reset.edge := rfl
@[simp] theorem resetBlock_clken (p : Option Params) (s : State) : (resetBlock p s).clken = State.reset.clken := rfl
@[simp] theorem resetBlock_pincfg (p : Option Params) (s : State) : (resetBlock p s).pincfg = State.reset.pincfg := rfl
@[simp] theorem resetBlock_spicfg (p : Option Params) (s : State) : (resetBlock p s).spicfg = State.reset.spicfg := rfl
@[simp] theorem resetBlock_csout (p : Option Params) (s : State) : (resetBlock p s).csout = State.reset.csout := rfl
@[simp] theorem resetBlock_tgen (p : Option Params) (s : State) : (resetBlock p s).tgen = State.reset.tgen := rfl
@[simp] theorem resetBlock_tgperiod (p : Option Params) (s : State) : (resetBlock p s).tgperiod = State.reset.tgperiod := rfl
@[simp] theorem resetBlock_sck (p : Option Params) (s : State) : (resetBlock p s).sck = State.reset.sck := rfl
@[simp] theorem resetBlock_mosi (p : Option Params) (s : State) : (resetBlock p s).mosi = State.reset.mosi := rfl
@[simp] theorem resetBlock_busy (p : Option Params) (s : State) : (resetBlock p s).busy = State.reset.busy := rfl
@[simp] theorem resetBlock_op (p : Option Params) (s : State) : (resetBlock p s).op = State.reset.op := rfl
@[simp] theorem resetBlock_a0 (p : Option Params) (s : State) : (resetBlock p s).a0 = State.reset.a0 := rfl
@[simp] theorem resetBlock_a1 (p : Option Params) (s : State) : (resetBlock p s).a1 = State.reset.a1 := rfl
@[simp] theorem resetBlock_txbuf (p : Option Params) (s : State) : (resetBlock p s).txbuf = State.reset.txbuf := rfl
@[simp] theorem resetBlock_rsp (p : Option Params) (s : State) : (resetBlock p s).rsp = State.reset.rsp := rfl
@[simp] theorem resetBlock_cont (p : Option Params) (s : State) : (resetBlock p s).cont = State.reset.cont := rfl
@[simp] theorem resetBlock_respPort (p : Option Params) (s : State) : (resetBlock p s).respPort = State.reset.respPort := rfl
@[simp] theorem resetBlock_hist (p : Option Params) (s : State) : (resetBlock p s).hist = State.reset.hist := rfl
@[simp] theorem resetBlock_packets (p : Option Params) (s : State) : (resetBlock p s).packets = s.packets := rfl
@[simp] theorem resetBlock_sched (p : Option Params) (s : State) : (resetBlock p s).sched = s.sched := rfl
@[simp] theorem resetBlock_miso (p : Option Params) (s : State) : (resetBlock p s).miso = s.miso := rfl

@[simp] theorem continueWith_cfg (rest : List MicroOp) (s : State) : (continueWith rest s).cfg = s.cfg := by
  cases rest <;> rfl
@[simp] theorem continueWith_txdr (rest : List MicroOp) (s : State) : (continueWith rest s).txdr = s.txdr := by
  cases rest <;> rfl
@[simp] theorem continueWith_rxdr (rest : List MicroOp) (s : State) : (continueWith rest s).rxdr = s.rxdr := by
  cases rest <;> rfl
@[simp] theorem continueWith_shtx (rest : List MicroOp) (s : State) : (continueWith rest s).shtx = s.shtx := by
  cases rest <;> rfl
@[simp] theorem continueWith_shrx (rest : List MicroOp) (s : State) : (continueWith rest s).shrx = s.shrx := by
  cases rest <;> rfl
@[simp] theorem continueWith_tickcnt (rest : List MicroOp) (s : State) : (continueWith rest s).tickcnt = s.tickcnt := by
  cases rest <;> rfl
@[simp] theorem continueWith_rxne (rest : List MicroOp) (s : State) : (continueWith rest s).rxne = s.rxne := by
  cases rest <;> rfl
@[simp] theorem continueWith_txpend (rest : List MicroOp) (s : State) : (continueWith rest s).txpend = s.txpend := by
  cases rest <;> rfl
@[simp] theorem continueWith_shbusy (rest : List MicroOp) (s : State) : (continueWith rest s).shbusy = s.shbusy := by
  cases rest <;> rfl
@[simp] theorem continueWith_edge (rest : List MicroOp) (s : State) : (continueWith rest s).edge = s.edge := by
  cases rest <;> rfl
@[simp] theorem continueWith_clken (rest : List MicroOp) (s : State) : (continueWith rest s).clken = s.clken := by
  cases rest <;> rfl
@[simp] theorem continueWith_pincfg (rest : List MicroOp) (s : State) : (continueWith rest s).pincfg = s.pincfg := by
  cases rest <;> rfl
@[simp] theorem continueWith_spicfg (rest : List MicroOp) (s : State) : (continueWith rest s).spicfg = s.spicfg := by
  cases rest <;> rfl
@[simp] theorem continueWith_csout (rest : List MicroOp) (s : State) : (continueWith rest s).csout = s.csout := by
  cases rest <;> rfl
@[simp] theorem continueWith_tgen (rest : List MicroOp) (s : State) : (continueWith rest s).tgen = s.tgen := by
  cases rest <;> rfl
@[simp] theorem continueWith_tgperiod (rest : List MicroOp) (s : State) : (continueWith rest s).tgperiod = s.tgperiod := by
  cases rest <;> rfl
@[simp] theorem continueWith_sck (rest : List MicroOp) (s : State) : (continueWith rest s).sck = s.sck := by
  cases rest <;> rfl
@[simp] theorem continueWith_mosi (rest : List MicroOp) (s : State) : (continueWith rest s).mosi = s.mosi := by
  cases rest <;> rfl
@[simp] theorem continueWith_op (rest : List MicroOp) (s : State) : (continueWith rest s).op = s.op := by
  cases rest <;> rfl
@[simp] theorem continueWith_a0 (rest : List MicroOp) (s : State) : (continueWith rest s).a0 = s.a0 := by
  cases rest <;> rfl
@[simp] theorem continueWith_a1 (rest : List MicroOp) (s : State) : (continueWith rest s).a1 = s.a1 := by
  cases rest <;> rfl
@[simp] theorem continueWith_txbuf (rest : List MicroOp) (s : State) : (continueWith rest s).txbuf = s.txbuf := by
  cases rest <;> rfl
@[simp] theorem continueWith_rsp (rest : List MicroOp) (s : State) : (continueWith rest s).rsp = s.rsp := by
  cases rest <;> rfl
@[simp] theorem continueWith_packets (rest : List MicroOp) (s : State) : (continueWith rest s).packets = s.packets := by
  cases rest <;> rfl
@[simp] theorem continueWith_sched (rest : List MicroOp) (s : State) : (continueWith rest s).sched = s.sched := by
  cases rest <;> rfl
@[simp] theorem continueWith_miso (rest : List MicroOp) (s : State) : (continueWith rest s).miso = s.miso := by
  cases rest <;> rfl

end Sys2Proof.Machine
end

