-- ==== Sys2Proof/Laws/Ops.lean ====
section
/-! SUPPORT. What each shared operation can do, once: completion and continuation, issue, the SEQ step, the SHIFTER step and the
step of each agent; and the laws of the byte buffers. -/

namespace Sys2Proof.Machine

/-! ### Buffers -/

theorem bufRead_bufLoad (buf data : List Byte) (i : ℕ) (h : i < data.length) :
    bufRead (bufLoad buf data) i = data[i] := by
  simp [bufRead, bufLoad, List.getD, List.getElem?_append, h]

theorem length_bufLoad (buf data : List Byte) (h : data.length ≤ buf.length) :
    (bufLoad buf data).length = buf.length := by
  simp [bufLoad]; omega

theorem bufWrite_length_self (buf : List Byte) (b : Byte) : bufWrite buf buf.length b = buf ++ [b] := by
  simp [bufWrite]

theorem length_bufWrite (buf : List Byte) (j : ℕ) (b : Byte) :
    (bufWrite buf j b).length = max buf.length (j + 1) := by
  unfold bufWrite; split <;> simp <;> omega

/-- Reading back the byte just written. -/
theorem bufRead_bufWrite_self (buf : List Byte) (j : ℕ) (b : Byte) : bufRead (bufWrite buf j b) j = b := by
  unfold bufRead bufWrite
  split
  · rename_i h; simp [List.getD, h]
  · rename_i h
    have hl : (buf ++ List.replicate (j - buf.length) (0 : Byte)).length = j := by simp; omega
    rw [List.getD_append_right _ _ _ _ (by omega), hl]; simp

/-- A write leaves every other byte as it was. -/
theorem bufRead_bufWrite_of_ne (buf : List Byte) (j k : ℕ) (b : Byte) (h : k ≠ j) :
    bufRead (bufWrite buf j b) k = bufRead buf k := by
  unfold bufRead bufWrite
  split
  · simp [List.getD, Ne.symm h]
  · rename_i hj
    rcases lt_or_ge k buf.length with hk | hk
    · rw [List.append_assoc, List.getD_append _ _ _ _ hk]
    · rw [List.append_assoc, List.getD_append_right _ _ _ _ hk, List.getD_eq_default _ _ hk]
      rcases lt_or_ge (k - buf.length) (j - buf.length) with hm | hm
      · rw [List.getD_append _ _ _ _ (by simpa using hm)]; simp [List.getD, hm]
      · rw [List.getD_append_right _ _ _ _ (by simpa using hm)]
        apply List.getD_eq_default; simp; omega

/-! ### Continuation and completion -/

@[simp] theorem continueWith_nil (s : State) : continueWith [] s = complete s := rfl

@[simp] theorem continueWith_cons (op : MicroOp) (ops : List MicroOp) (s : State) :
    continueWith (op :: ops) s = { s with cont := op :: ops } := rfl

@[simp] theorem continueWith_cont (rest : List MicroOp) (s : State) : (continueWith rest s).cont = rest := by
  cases rest <;> rfl

theorem continueWith_busy (rest : List MicroOp) (s : State) :
    (continueWith rest s).busy = (s.busy && !rest.isEmpty) := by
  cases rest <;> simp [continueWith]

theorem continueWith_hist (rest : List MicroOp) (s : State) :
    (continueWith rest s).hist = s.hist ++ if rest = [] then [Event.done s.op (response s)] else [] := by
  cases rest <;> simp [continueWith]

theorem continueWith_respPort (rest : List MicroOp) (s : State) :
    (continueWith rest s).respPort = if rest = [] then some (response s) else s.respPort := by
  cases rest <;> simp [continueWith]

/-! ### Issue -/

@[simp] theorem issue_busy (latch : State → State) (prog : List MicroOp) (s : State) (h : s.busy = true) :
    issue latch prog s = .refused .commandInExecution := by simp [issue, h]

@[simp] theorem issue_idle (latch : State → State) (prog : List MicroOp) (s : State) (h : s.busy = false) :
    issue latch prog s = .next (continueWith prog (beginCommand (latch s))) := by simp [issue, h]

/-- Everything an issue can do: if it answers a next state, SEQ was idle and that state is the latched command's. -/
theorem issue_cases {latch : State → State} {prog : List MicroOp} {s t : State} (h : issue latch prog s = .next t) :
    s.busy = false ∧ t = continueWith prog (beginCommand (latch s)) := by
  unfold issue at h
  split at h
  · cases h
  · rename_i hb; cases h; exact ⟨by simpa using hb, rfl⟩

/-! ### The SEQ step -/

@[simp] theorem seqStep_idle (s : State) (h : s.busy = false) : seqStep s = .next s := by simp [seqStep, h]

@[simp] theorem seqStep_cons (s : State) (op : MicroOp) (rest : List MicroOp) (hb : s.busy = true) (hc : s.cont = op :: rest) :
    seqStep s = microStep op rest s := by simp [seqStep, hb, hc]

@[simp] theorem seqStep_nil (s : State) (hb : s.busy = true) (hc : s.cont = []) : seqStep s = .next (complete s) := by
  simp [seqStep, hb, hc]

/-- The register writes of one micro-step, apart from SEQ's own position. -/
def microEffect : MicroOp → State → State
  | .applyInit, s => applyInit s
  | .driveCS level, s => driveCS level s
  | .sendByte src, s => sendByte (readByteSrc src s) s
  | .flagCheck _ _, s => s
  | .receiveByte dst, s => receiveByte dst s
  | .tickStart _, s => tickStart s
  | .setTick src, s => setTick (readWordSrc src s) s
  | .readTick, s => s
  | .spinIter _, s => s

/-- What is pending after one micro-step with `rest` behind it. -/
def microRest : MicroOp → List MicroOp → State → List MicroOp
  | .flagCheck f count, rest, s => afterFlagCheck f count rest s
  | .tickStart onFail, rest, s => if tickArmable s.cfg then rest else rest.drop onFail
  | .readTick, rest, s => if readTick s = 0 then rest else .readTick :: rest
  | .spinIter left, rest, _ => if left ≤ 1 then rest else .spinIter (left - 1) :: rest
  | _, rest, _ => rest

/-- A micro-step is its effect and its continuation, but for a blocked ApplyInit. -/
theorem microStep_eq (op : MicroOp) (rest : List MicroOp) (s : State) (h : op = .applyInit → initBlocked s = false) :
    microStep op rest s = .next (continueWith (microRest op rest s) (microEffect op s)) := by
  cases op <;> simp_all [microStep, microRest, microEffect]

/-- Everything a micro-step can do. -/
theorem microStep_cases {op : MicroOp} {rest : List MicroOp} {s t : State} (h : microStep op rest s = .next t) :
    (op = .applyInit → initBlocked s = false) ∧ t = continueWith (microRest op rest s) (microEffect op s) := by
  have hb : op = .applyInit → initBlocked s = false := by
    rintro rfl
    cases hi : initBlocked s
    · rfl
    · simp [microStep, hi] at h
  rw [microStep_eq op rest s hb] at h
  exact ⟨hb, by cases h; rfl⟩

/-- Everything a SEQ step can do. -/
theorem seqStep_cases {s t : State} (h : seqStep s = .next t) :
    (s.busy = false ∧ t = s) ∨ (s.busy = true ∧ s.cont = [] ∧ t = complete s) ∨
      ∃ op rest, s.busy = true ∧ s.cont = op :: rest ∧ (op = .applyInit → initBlocked s = false) ∧
        t = continueWith (microRest op rest s) (microEffect op s) := by
  rcases hb : s.busy with _ | _
  · rw [seqStep_idle s hb] at h; cases h; exact .inl ⟨rfl, rfl⟩
  · rcases hc : s.cont with _ | ⟨op, rest⟩
    · rw [seqStep_nil s hb hc] at h; cases h; exact .inr (.inl ⟨rfl, rfl, rfl⟩)
    · rw [seqStep_cons s op rest hb hc] at h
      exact .inr (.inr ⟨op, rest, rfl, rfl, microStep_cases h⟩)

/-! ### The SHIFTER step -/

/-- Everything a SHIFTER step can do. -/
theorem shifterStep_cases (s : State) :
    (loadEnabled s = true ∧ shifterStep s = shifterLoad s) ∨ (edgeEnabled s = true ∧ shifterStep s = shifterEdge s) ∨
      (endEnabled s = true ∧ shifterStep s = shifterEnd s) ∨
      (loadEnabled s = false ∧ edgeEnabled s = false ∧ endEnabled s = false ∧ shifterStep s = s) := by
  unfold shifterStep
  split
  · simp_all
  · split
    · simp_all
    · split <;> simp_all

@[simp] theorem loadEnabled_iff (s : State) :
    loadEnabled s = true ↔ clkenSpi s = true ∧ spicfgSpe s = true ∧ s.txpend = true ∧ s.shbusy = false := by
  simp [loadEnabled, and_assoc]

@[simp] theorem edgeEnabled_iff (s : State) : edgeEnabled s = true ↔ s.shbusy = true ∧ s.edge.toNat < 16 := by
  simp [edgeEnabled]

@[simp] theorem endEnabled_iff (s : State) : endEnabled s = true ↔ s.shbusy = true ∧ s.edge.toNat = 16 := by
  simp [endEnabled]

theorem shifterStep_load (s : State) (h : loadEnabled s = true) : shifterStep s = shifterLoad s := by simp [shifterStep, h]

theorem shifterStep_edge (s : State) (hb : s.shbusy = true) (he : s.edge.toNat < 16) : shifterStep s = shifterEdge s := by
  simp [shifterStep, loadEnabled, edgeEnabled, frameEdges, hb, he]

theorem shifterStep_end (s : State) (hb : s.shbusy = true) (he : s.edge.toNat = 16) : shifterStep s = shifterEnd s := by
  simp [shifterStep, loadEnabled, edgeEnabled, endEnabled, frameEdges, hb, he]

/-- With nothing to send and no frame in flight SHIFTER takes no step. -/
theorem shifterStep_quiescent (s : State) (hp : s.txpend = false) (hb : s.shbusy = false) : shifterStep s = s := by
  simp [shifterStep, loadEnabled, edgeEnabled, endEnabled, hp, hb]

/-! ### The agents -/

@[simp] theorem turnStep_host (s : State) : turnStep .host s = hostStep s := rfl
@[simp] theorem turnStep_seq (s : State) : turnStep .seq s = seqStep s := rfl
@[simp] theorem turnStep_shifter (s : State) : turnStep .shifter s = .next (shifterStep s) := rfl
@[simp] theorem turnStep_tick (s : State) : turnStep .tick s = .next (tickStep s) := rfl
@[simp] theorem turnStep_rst (p : Option Params) (s : State) : turnStep (.rst p) s = .next (resetBlock p s) := rfl

/-- Everything HOST's step can do. -/
theorem hostStep_cases {s t : State} (h : hostStep s = .next t) :
    (s.busy = true ∧ t = s) ∨ ∃ i, s.busy = false ∧ decode (nextPacket s) = .ok i ∧ exec i (dropPacket s) = .next t := by
  unfold hostStep at h
  split at h
  · cases h; exact .inl ⟨‹_›, rfl⟩
  · rename_i hb
    split at h
    · rename_i i hd; exact .inr ⟨i, by simpa using hb, hd, h⟩
    · cases h

/-- The latch and the micro-steps each command is issued with. -/
def commandLatch : Instr → State → State
  | .init => latchZ .init
  | .sel => latchZ .sel
  | .desel => latchZ .desel
  | .outlo pin => latchB .outlo pin
  | .outhi pin => latchB .outhi pin
  | .wrb value => latchB .wrb value
  | .rd command length => latchC .rd command length
  | .wra data => latchV .wra data
  | .wrrd data rxlen => latchX .wrrd data rxlen
  | .tkstart => latchZ .tkstart
  | .dlyms n => latchW .dlyms n
  | .dlyus n => latchW .dlyus n
  | .dlys => latchZ .dlys

/-- The micro-steps each command is issued with, under the configuration `p`. -/
def commandProgram (p : Params) : Instr → List MicroOp
  | .init => [.applyInit]
  | .sel => [.driveCS false]
  | .desel => [.driveCS true]
  | .outlo pin => if pin = pinCs then [.driveCS false] else []
  | .outhi pin => if pin = pinCs then [.driveCS true] else []
  | .wrb _ => writeByteProc .value
  | .rd _ length => exchangeByte .value none ++ receiveLoop length.toNat
  | .wra data => transmitLoop data.length
  | .wrrd data rxlen => transmitLoop data.length ++ receiveLoop rxlen.toNat
  | .tkstart => [.tickStart 0]
  | .dlyms _ => delayBody .operand
  | .dlyus n => spinLoop (spinCount p n)
  | .dlys => (List.replicate secMs (delayBody .one)).flatten

/-- Every command is HOST's issue of its latch and its micro-steps. -/
theorem exec_eq_issue (i : Instr) (s : State) : exec i s = issue (commandLatch i) (commandProgram s.cfg i) s := by
  cases i <;> rfl

/-- A latch writes the operand latches only. -/
theorem commandLatch_eq (i : Instr) (s : State) :
    commandLatch i s = { s with
      op := opcodeByte (opcodeOf i), a0 := (commandLatch i s).a0, a1 := (commandLatch i s).a1
      txbuf := (commandLatch i s).txbuf } := by
  cases i <;> rfl

/-- Everything exec can do: SEQ was idle, and the command is latched and its micro-steps are pending. -/
theorem exec_cases {i : Instr} {s t : State} (h : exec i s = .next t) :
    s.busy = false ∧ t = continueWith (commandProgram s.cfg i) (beginCommand (commandLatch i s)) := by
  rw [exec_eq_issue] at h; exact issue_cases h

theorem exec_idle (i : Instr) (s : State) (h : s.busy = false) :
    exec i s = .next (continueWith (commandProgram s.cfg i) (beginCommand (commandLatch i s))) := by
  rw [exec_eq_issue, issue_idle _ _ _ h]

theorem exec_busy (i : Instr) (s : State) (h : s.busy = true) : exec i s = .refused .commandInExecution := by
  rw [exec_eq_issue, issue_busy _ _ _ h]

end Sys2Proof.Machine
end

