-- ==== Sys2Proof/Laws/Runs.lean ====
section
/-! SUPPORT. Runs: how they split, and the one induction every claim about a run needs. -/

namespace Sys2Proof.Machine

@[simp] theorem runTurns_nil (s : State) : runTurns [] s = .next s := rfl

theorem runTurns_cons_next {t : Turn} {ts : List Turn} {s s' : State} (h : turnStep t s = .next s') :
    runTurns (t :: ts) s = runTurns ts s' := by simp [runTurns, h]

/-- A run that ends took its first step. -/
theorem runTurns_cons_cases {t : Turn} {ts : List Turn} {s u : State} (h : runTurns (t :: ts) s = .next u) :
    ∃ s', turnStep t s = .next s' ∧ runTurns ts s' = .next u := by
  unfold runTurns at h
  split at h
  · exact ⟨_, by assumption, h⟩
  · cases h
  · cases h

theorem runTurns_append_next {as bs : List Turn} {s t : State} (h : runTurns as s = .next t) :
    runTurns (as ++ bs) s = runTurns bs t := by
  induction as generalizing s with
  | nil => simp at h; simp [h]
  | cons a as ih =>
    obtain ⟨s', hs, hr⟩ := runTurns_cons_cases h
    rw [List.cons_append, runTurns_cons_next hs, ih hr]

theorem runTurns_append_cases {as bs : List Turn} {s u : State} (h : runTurns (as ++ bs) s = .next u) :
    ∃ t, runTurns as s = .next t ∧ runTurns bs t = .next u := by
  induction as generalizing s with
  | nil => exact ⟨s, rfl, h⟩
  | cons a as ih =>
    obtain ⟨s', hs, hr⟩ := runTurns_cons_cases h
    obtain ⟨t, ht, hu⟩ := ih hr
    exact ⟨t, by rw [runTurns_cons_next hs, ht], hu⟩

theorem microTrace_cons_next {t : Turn} {ts : List Turn} {s s' : State} (h : turnStep t s = .next s') :
    microTrace (t :: ts) s = performed t s ++ microTrace ts s' := by simp [microTrace, h]

theorem initedFrom_cons_next {begun : Bool} {t : Turn} {ts : List Turn} {s s' : State} (h : turnStep t s = .next s') :
    initedFrom begun (t :: ts) s =
      ((!(begun || inTransaction s || (issues t s).any isTransaction) || Inited s) &&
        initedFrom (begun || inTransaction s || (issues t s).any isTransaction) ts s') := by simp [initedFrom, h]

theorem framesEndWithin_cons_next {bound : Params → ℕ} {t : Turn} {ts : List Turn} {s s' : State}
    (h : turnStep t s = .next s') :
    framesEndWithin bound (t :: ts) s =
      ((!(performed t s).any isSend || frameEnds (bound s.cfg) false ts s') && framesEndWithin bound ts s') := by
  simp [framesEndWithin, h]

theorem frameEnds_cons_next {checks : ℕ} {loaded : Bool} {t : Turn} {ts : List Turn} {s s' : State}
    (h : turnStep t s = .next s') (hend : ¬(loaded = true ∧ t = .shifter ∧ endEnabled s = true)) :
    frameEnds checks loaded (t :: ts) s =
      ((performed t s).countP isFlagCheck ≤ checks && !t.isReset && (loaded || !(performed t s).any isSend) &&
        frameEnds (checks - (performed t s).countP isFlagCheck) (loaded || (t = .shifter && loadEnabled s)) ts s') := by
  rw [frameEnds, if_neg hend]; simp [h]

theorem paramsAlong_cons_next {P : Params → Bool} {t : Turn} {ts : List Turn} {s s' : State} (h : turnStep t s = .next s') :
    paramsAlong P (t :: ts) s = (P s.cfg && paramsAlong P ts s') := by simp [paramsAlong, h]

/-- A frame that ends within a number of FlagChecks ends within every greater one. -/
theorem frameEnds_mono {a b : ℕ} (h : a ≤ b) {loaded : Bool} {ts : List Turn} {s : State} :
    frameEnds a loaded ts s = true → frameEnds b loaded ts s = true := by
  induction ts generalizing a b loaded s with
  | nil => simp [frameEnds]
  | cons t ts ih =>
    by_cases hend : loaded = true ∧ t = .shifter ∧ endEnabled s = true
    · simp [frameEnds, hend]
    · rw [frameEnds, frameEnds, if_neg hend, if_neg hend]
      cases turnStep t s with
      | next s' =>
        simp only [Bool.and_eq_true, decide_eq_true_eq]
        rintro ⟨⟨⟨hp, hr⟩, hs⟩, hf⟩
        exact ⟨⟨⟨hp.trans h, hr⟩, hs⟩, ih (Nat.sub_le_sub_right h _) hf⟩
      | fault r => simp
      | refused r => simp

theorem framesEndWithin_mono {f g : Params → ℕ} {ts : List Turn} {s : State}
    (h : paramsAlong (fun p => f p ≤ g p) ts s = true) : framesEndWithin f ts s = true → framesEndWithin g ts s = true := by
  induction ts generalizing s with
  | nil => simp [framesEndWithin]
  | cons t ts ih =>
    rw [framesEndWithin, framesEndWithin]
    cases hs : turnStep t s with
    | next s' =>
      rw [paramsAlong_cons_next hs] at h
      simp only [Bool.and_eq_true, Bool.or_eq_true, decide_eq_true_eq] at h ⊢
      exact fun ⟨h1, h2⟩ => ⟨h1.imp_right (frameEnds_mono h.1), ih h.2 h2⟩
    | fault r => simp
    | refused r => simp

theorem paramsAlong_imp {P Q : Params → Bool} (h : ∀ p, P p = true → Q p = true) {ts : List Turn} {s : State} :
    paramsAlong P ts s = true → paramsAlong Q ts s = true := by
  induction ts generalizing s with
  | nil => exact h _
  | cons t ts ih =>
    rw [paramsAlong, paramsAlong]
    cases turnStep t s with
    | next s' => simp only [Bool.and_eq_true]; exact fun ⟨h1, h2⟩ => ⟨h _ h1, ih h2⟩
    | fault r => simpa using h _
    | refused r => simpa using h _

/-- The parameter form of premise T1 implies premise T1 (70_reset_and_hazards.md R245). -/
theorem responsive_of_responsiveByParameter {ts : List Turn} {s : State} (h : responsiveByParameter ts s = true) :
    responsive ts s = true := by
  simp only [responsiveByParameter, responsive, Bool.and_eq_true] at h ⊢
  refine ⟨h.1.2, framesEndWithin_mono (paramsAlong_imp (fun p hp => ?_) h.1.1) h.2⟩
  simp only [decide_eq_true_eq] at hp ⊢; omega

/-- What every step of the agents in a schedule keeps holds at the end of the run. -/
theorem runTurns_invariant (P : State → Prop) {ts : List Turn}
    (hstep : ∀ t ∈ ts, ∀ s s', P s → turnStep t s = .next s' → P s') :
    ∀ {s u : State}, P s → runTurns ts s = .next u → P u := by
  induction ts with
  | nil => intro s u hp h; cases h; exact hp
  | cons a as ih =>
    intro s u hp h
    obtain ⟨s', hs, hr⟩ := runTurns_cons_cases h
    exact ih (fun t ht => hstep t (List.mem_cons_of_mem _ ht)) (hstep a List.mem_cons_self s s' hp hs) hr

end Sys2Proof.Machine
end

