-- ==== Sys2Proof/Laws/Fairness.lean ====
section
/-! SUPPORT. What 70_reset_and_hazards.md R246 says follows from fairness: every command completes under F-SEQ, with F-TICK for
DLYMS and DLYS; and under F-SHIFT an enabled peripheral with a byte to send does send it. -/

namespace Sys2Proof.Machine

/-! ### Infinite runs -/

theorem runAt_zero (σ : Schedule) (s : State) : RunAt σ s 0 s := rfl

theorem firstTurns_succ (σ : Schedule) (n : ℕ) : firstTurns σ (n + 1) = firstTurns σ n ++ [σ n] := by
  simp [firstTurns, List.range_succ]

/-- One more step of a run. -/
theorem runAt_succ {σ : Schedule} {s x y : State} {n : ℕ} (h : RunAt σ s n x) (hy : turnStep (σ n) x = .next y) :
    RunAt σ s (n + 1) y := by
  rw [RunAt, firstTurns_succ, runTurns_append_next h, runTurns_cons_next hy, runTurns_nil]

/-- A state of a run is reached by the step before it. -/
theorem runAt_succ_cases {σ : Schedule} {s y : State} {n : ℕ} (h : RunAt σ s (n + 1) y) :
    ∃ x, RunAt σ s n x ∧ turnStep (σ n) x = .next y := by
  rw [RunAt, firstTurns_succ] at h
  obtain ⟨x, hx, hr⟩ := runTurns_append_cases h
  obtain ⟨z, hz, hn⟩ := runTurns_cons_cases hr
  cases hn
  exact ⟨x, hx, hz⟩

theorem runAt_unique {σ : Schedule} {s x y : State} {n : ℕ} (hx : RunAt σ s n x) (hy : RunAt σ s n y) : x = y := by
  rw [RunAt] at hx hy; rw [hx] at hy; cases hy; rfl

/-- The use of fairness: while `Keep` holds the agent's step stays enabled, every step keeps `Keep` or meets `Goal`, and the
agent's own step meets `Goal`; then some later state meets `Goal`. -/
theorem goal_of_fair {enabled : State → Bool} {agent : Turn} {σ : Schedule} {s : State} (fair : FairFor enabled agent σ s)
    {Keep Goal : State → Prop} (hen : ∀ x, Keep x → enabled x = true)
    {n : ℕ} (hstep : ∀ j x, n ≤ j → RunAt σ s j x → Keep x →
      ∃ y, turnStep (σ j) x = .next y ∧ (Goal y ∨ (Keep y ∧ σ j ≠ agent)))
    {x : State} (hx : RunAt σ s n x) (hk : Keep x) : ∃ m y, n < m ∧ RunAt σ s m y ∧ Goal y := by
  obtain ⟨m, hm, hend⟩ := fair n x hx (hen x hk)
  obtain ⟨d, rfl⟩ := Nat.exists_eq_add_of_le hm
  clear hm
  induction d generalizing n x with
  | zero =>
    obtain ⟨y, hy, hg⟩ := hstep n x le_rfl hx hk
    rcases hg with hg | ⟨-, hne⟩
    · exact ⟨n + 1, y, n.lt_succ_self, runAt_succ hx hy, hg⟩
    · rcases hend with he | ⟨z, hz, hd⟩
      · exact absurd he hne
      · rw [← runAt_unique hx hz, hen x hk] at hd; cases hd
  | succ d ih =>
    obtain ⟨y, hy, hg⟩ := hstep n x le_rfl hx hk
    rcases hg with hg | ⟨hky, -⟩
    · exact ⟨n + 1, y, n.lt_succ_self, runAt_succ hx hy, hg⟩
    · obtain ⟨m, w, hm, hw⟩ := ih (fun j x hj => hstep j x (n.le_succ.trans hj)) (runAt_succ hx hy) hky (by rwa [Nat.succ_add_eq_add_succ])
      exact ⟨m, w, by omega, hw⟩

/-! ### A command completes -/

/-- The commands that wait for ticks (40_timing.md R121, R124). -/
def waitsForTicks : Instr → Bool
  | .dlyms _ | .dlys => true
  | .init | .sel | .desel | .outlo _ | .outhi _ | .wrb _ | .rd _ _ | .wra _ | .wrrd _ _ | .tkstart | .dlyus _ => false

/-- What the execution of a command keeps, `waits` telling whether it waits for ticks: something is pending until the response is
there, an ApplyInit is alone and not blocked, and a spin is armed, or stands in delay bodies none of which has begun. -/
structure InCommand (waits : Bool) (s : State) : Prop where
  pending : s.busy = true → s.cont ≠ []
  answered : s.busy = false → s.respPort.isSome = true
  unblocked : .applyInit ∈ s.cont → s.cont = [.applyInit] ∧ initBlocked s = false
  armed : .readTick ∈ s.cont →
    waits = true ∧ (s.tgen = true ∨ ∃ m src, s.cont = (List.replicate m (delayBody src)).flatten)

/-- A bound on the SEQ steps a pending micro-step still takes, spins of ReadTick apart. -/
def microWeight (p : Params) : MicroOp → ℕ
  | .flagCheck _ count => p.retryBudget - count + 1
  | .spinIter left => left + 1
  | .applyInit | .driveCS _ | .sendByte _ | .receiveByte _ | .tickStart _ | .setTick _ | .readTick => 1

/-- What a list of pending micro-steps still takes. -/
def contWeight (p : Params) (ops : List MicroOp) : ℕ := (ops.map (microWeight p)).sum

/-- What a command still takes, in SEQ steps first and in ticks second. -/
def rank (s : State) : ℕ := contWeight s.cfg s.cont * 2 ^ 32 + s.tickcnt.toNat

@[simp] theorem contWeight_cons (p : Params) (op : MicroOp) (ops : List MicroOp) :
    contWeight p (op :: ops) = microWeight p op + contWeight p ops := by simp [contWeight]

theorem contWeight_drop (p : Params) (k : ℕ) (ops : List MicroOp) : contWeight p (ops.drop k) ≤ contWeight p ops :=
  ((ops.drop_sublist k).map _).sum_le_sum (by simp)

theorem microWeight_pos (p : Params) (op : MicroOp) : 0 < microWeight p op := by cases op <;> simp [microWeight]

/-- A SEQ step that is not a spin of ReadTick lowers the weight. -/
theorem contWeight_microRest (op : MicroOp) (rest : List MicroOp) (s : State) (h : op = .readTick → s.tickcnt = 0) :
    contWeight s.cfg (microRest op rest s) < contWeight s.cfg (op :: rest) := by
  have hpos := microWeight_pos s.cfg op
  rw [contWeight_cons]
  cases op <;> simp only [microRest]
  case flagCheck f count =>
    unfold afterFlagCheck
    split
    · omega
    · rename_i hc
      simp only [Bool.or_eq_true, decide_eq_true_eq, not_or, not_le] at hc
      simp only [contWeight_cons, microWeight]; omega
  case tickStart k =>
    have := contWeight_drop s.cfg k rest
    split <;> omega
  case readTick => simp only [readTick, h rfl, if_true]; omega
  case spinIter left =>
    split
    · omega
    · simp only [contWeight_cons, microWeight]; omega
  all_goals omega

/-- No micro-step but a TickStart makes TGCTRL.EN or the parameters anything else; none clears TGCTRL.EN. -/
theorem microEffect_tgen (op : MicroOp) (s : State) (h : s.tgen = true) : (microEffect op s).tgen = true := by
  cases op <;> simp [microEffect, h, tickStart]

@[simp] theorem microEffect_cfg (op : MicroOp) (s : State) : (microEffect op s).cfg = s.cfg := by cases op <;> rfl

@[simp] theorem microEffect_busy (op : MicroOp) (s : State) : (microEffect op s).busy = s.busy := by cases op <;> rfl

/-- A micro-step other than a poll or a loop's is pending afterwards only if it was pending before. -/
theorem mem_of_mem_microRest {op x : MicroOp} {rest : List MicroOp} {s : State} (h : x ∈ microRest op rest s)
    (hx : x = .applyInit ∨ x = .readTick) : x ∈ op :: rest := by
  cases op <;> simp only [microRest, afterFlagCheck] at h
  case tickStart k =>
    split at h
    · exact List.mem_cons_of_mem _ h
    · exact List.mem_cons_of_mem _ (List.mem_of_mem_drop h)
  case readTick => split at h <;> simp_all
  case flagCheck f count => split at h <;> rcases hx with rfl | rfl <;> simp_all
  case spinIter left => split at h <;> rcases hx with rfl | rfl <;> simp_all
  all_goals exact List.mem_cons_of_mem _ h

/-- The steps of the other agents leave alone what the execution of a command depends on. -/
structure Still (s t : State) : Prop where
  busy : t.busy = s.busy
  cont : t.cont = s.cont
  tickcnt : t.tickcnt = s.tickcnt
  tgen : t.tgen = s.tgen
  cfg : t.cfg = s.cfg

theorem Still.refl (s : State) : Still s s := ⟨rfl, rfl, rfl, rfl, rfl⟩

theorem Still.trans {s t u : State} (h : Still s t) (k : Still t u) : Still s u :=
  ⟨k.busy.trans h.busy, k.cont.trans h.cont, k.tickcnt.trans h.tickcnt, k.tgen.trans h.tgen, k.cfg.trans h.cfg⟩

theorem Still.rank {s t : State} (h : Still s t) : rank t = rank s := by simp [Machine.rank, h.cont, h.tickcnt, h.cfg]

/-- What a SHIFTER step leaves alone, besides: an ApplyInit that is not blocked stays so. -/
theorem shifterStep_still (s : State) :
    Still s (shifterStep s) ∧ (shifterStep s).respPort = s.respPort ∧
      (initBlocked s = false → initBlocked (shifterStep s) = false) := by
  rcases shifterStep_cases s with ⟨he, h⟩ | ⟨he, h⟩ | ⟨he, h⟩ | ⟨-, -, -, h⟩ <;> rw [h]
  · refine ⟨⟨rfl, rfl, rfl, rfl, rfl⟩, rfl, fun hb => ?_⟩
    rw [loadEnabled_iff] at he
    simp [initBlocked, he, txe] at hb
  · exact ⟨⟨rfl, rfl, rfl, rfl, rfl⟩, rfl, id⟩
  · refine ⟨⟨rfl, rfl, rfl, rfl, rfl⟩, rfl, fun hb => ?_⟩
    rw [endEnabled_iff] at he
    have hs : spicfgSpe s = false := by simpa [initBlocked, he, txe] using hb
    simp [initBlocked, show spicfgSpe (shifterEnd s) = spicfgSpe s from rfl, hs]
  · exact ⟨.refl s, rfl, id⟩

theorem InCommand.of_still {waits : Bool} {s t : State} (h : InCommand waits s) (k : Still s t) (hr : t.respPort = s.respPort)
    (hb : initBlocked s = false → initBlocked t = false) : InCommand waits t where
  pending := by rw [k.busy, k.cont]; exact h.pending
  answered := by rw [k.busy, hr]; exact h.answered
  unblocked := by rw [k.cont]; exact fun hm => (h.unblocked hm).imp_right hb
  armed := by rw [k.cont, k.tgen]; exact h.armed

/-- What the execution of a command keeps is kept by each of its micro-steps. -/
theorem InCommand.seq {waits : Bool} {s : State} {op : MicroOp} {rest : List MicroOp} (h : InCommand waits s)
    (hc : s.cont = op :: rest) : InCommand waits (continueWith (microRest op rest s) (microEffect op s)) where
  pending := by
    rw [continueWith_busy, continueWith_cont]; intro hb; simp at hb; exact hb.2
  answered := by
    rw [continueWith_busy, continueWith_respPort]
    intro hb
    by_cases hr : microRest op rest s = []
    · simp [hr]
    · have hbs : s.busy = false := by simpa [hr] using hb
      rw [if_neg hr]
      have := h.answered hbs
      cases op <;> exact this
  unblocked := by
    rw [continueWith_cont]
    intro hm
    have hp := (h.unblocked (hc ▸ mem_of_mem_microRest hm (.inl rfl))).1
    rw [hc] at hp; cases hp; simp [microRest] at hm
  armed := by
    rw [continueWith_cont, continueWith_tgen]
    intro hm
    obtain ⟨hw, ha⟩ := h.armed (hc ▸ mem_of_mem_microRest hm (.inr rfl))
    refine ⟨hw, ?_⟩
    rcases ha with ha | ⟨m, src, hd⟩
    · exact .inl (microEffect_tgen op s ha)
    · cases m with
      | zero => rw [hc] at hd; cases hd
      | succ m =>
        rw [hc, List.replicate_succ, List.flatten_cons] at hd
        cases hd
        cases ha : tickArmable s.cfg
        · exact .inr ⟨m, src, by simp [microRest, ha]⟩
        · exact .inl (by simp [microEffect, tickStart, ha])

/-- A step during a command, of any agent: it completes it, brings it nearer to its completion, or leaves it where it is; SEQ
leaves it only in a spin, TICK only with nothing to count. -/
theorem InCommand.step {waits : Bool} {s : State} (h : InCommand waits s) (hb : s.busy = true) (t : Turn)
    (hr : t.isReset = false) :
    ∃ u, turnStep t s = .next u ∧ InCommand waits u ∧ (u.busy = false ∨ rank u < rank s ∨ (Still s u ∧
      (t = .seq → s.cont.head? = some .readTick ∧ s.tickcnt ≠ 0) ∧ (t = .tick → s.tgen = false ∨ s.tickcnt = 0))) := by
  cases t with
  | host => exact ⟨s, by simp [hostStep, hb], h, .inr (.inr ⟨.refl s, nofun, nofun⟩)⟩
  | rst p => cases hr
  | shifter =>
    obtain ⟨hs, hp, hi⟩ := shifterStep_still s
    exact ⟨_, rfl, h.of_still hs hp hi, .inr (.inr ⟨hs, nofun, nofun⟩)⟩
  | tick =>
    refine ⟨_, rfl, ?_⟩
    unfold tickStep
    cases hg : s.tgen
    · exact ⟨h, .inr (.inr ⟨.refl s, nofun, fun _ => .inl rfl⟩)⟩
    · refine ⟨⟨h.pending, h.answered, h.unblocked, h.armed⟩, ?_⟩
      by_cases hz : s.tickcnt = 0
      · exact .inr (.inr ⟨⟨rfl, rfl, by simp [takeTick, hz], rfl, rfl⟩, nofun, fun _ => .inr hz⟩)
      · refine .inr (.inl ?_)
        have : (s.tickcnt - 1).toNat < s.tickcnt.toNat := by bv_omega
        simp only [if_true, rank, takeTick, hz, if_false]; omega
  | seq =>
    rcases hc : s.cont with _ | ⟨op, rest⟩
    · exact absurd hc (h.pending hb)
    have hn : turnStep .seq s = .next (continueWith (microRest op rest s) (microEffect op s)) := by
      rw [turnStep_seq, seqStep_cons s op rest hb hc, microStep_eq]
      rintro rfl; exact (h.unblocked (by simp [hc])).2
    refine ⟨_, hn, h.seq hc, ?_⟩
    by_cases hspin : op = .readTick ∧ s.tickcnt ≠ 0
    · obtain ⟨rfl, hz⟩ := hspin
      have hrest : microRest .readTick rest s = .readTick :: rest := if_neg hz
      rw [hrest, continueWith_cons, ← hc]
      exact .inr (.inr ⟨.refl s, fun _ => ⟨by rw [hc]; rfl, hz⟩, nofun⟩)
    · have hw := contWeight_microRest op rest s fun e => by_contra fun hz => hspin ⟨e, hz⟩
      refine .inr (.inl ?_)
      simp only [rank, continueWith_cfg, continueWith_cont, microEffect_cfg, hc]
      have := (continueWith (microRest op rest s) (microEffect op s)).tickcnt.isLt
      omega

/-- Issuing a command, an INIT of a peripheral with a transfer under way apart, begins its execution. -/
theorem inCommand_of_exec {i : Instr} {s t : State} (h : exec i s = .next t) (hi : i = .init → initBlocked s = false) :
    InCommand (waitsForTicks i) t := by
  obtain ⟨-, rfl⟩ := exec_cases h
  have hprog : ∀ op ∈ commandProgram s.cfg i, (op = .applyInit → i = .init) ∧ (op = .readTick →
      waitsForTicks i = true ∧ ∃ m src, commandProgram s.cfg i = (List.replicate m (delayBody src)).flatten) := by
    intro op hop
    cases i
    case dlyms n => exact ⟨by rintro rfl; simp [commandProgram, delayBody] at hop, fun _ => ⟨rfl, 1, .operand, by simp [commandProgram]⟩⟩
    case dlys =>
      refine ⟨?_, fun _ => ⟨rfl, secMs, .one, rfl⟩⟩
      rintro rfl; simp [commandProgram, delayBody, List.mem_flatten, List.mem_replicate] at hop
    case init => exact ⟨fun _ => rfl, by rintro rfl; simp [commandProgram] at hop⟩
    case outlo pin => constructor <;> rintro rfl <;> simp only [commandProgram] at hop <;> split at hop <;> simp at hop
    case outhi pin => constructor <;> rintro rfl <;> simp only [commandProgram] at hop <;> split at hop <;> simp at hop
    case dlyus n => constructor <;> rintro rfl <;> simp only [commandProgram, spinLoop] at hop <;> split at hop <;> simp at hop
    all_goals
      constructor <;> rintro rfl <;>
        simp [commandProgram, writeByteProc, exchangeByte, readByteProc, pollFlag, transmitLoop, receiveLoop] at hop
  constructor
  · rw [continueWith_busy, continueWith_cont]; intro hb; simpa [beginCommand] using hb
  · rw [continueWith_busy, continueWith_respPort]; intro hb
    have : commandProgram s.cfg i = [] := by simpa [beginCommand] using hb
    simp [this]
  · rw [continueWith_cont]; intro hm
    have := (hprog _ hm).1 rfl
    subst this
    exact ⟨rfl, hi rfl⟩
  · rw [continueWith_cont]; intro hm
    exact ((hprog _ hm).2 rfl).imp_right .inr

/-- A command in execution is completed by every schedule that is fair to SEQ, and to TICK if it waits for ticks. -/
theorem InCommand.completes {waits : Bool} {σ : Schedule} {s : State} (hr : ∀ n, (σ n).isReset = false) (hseq : FSeq σ s)
    (htick : waits = true → FTick σ s) {n : ℕ} {x : State} (hx : RunAt σ s n x) (h : InCommand waits x) :
    ∃ m u, RunAt σ s m u ∧ u.busy = false ∧ ∃ r, u.respPort = some r := by
  induction hk : rank x using Nat.strong_induction_on generalizing n x with
  | _ k ih =>
    subst hk
    cases hb : x.busy with
    | false => exact ⟨n, x, hx, hb, Option.isSome_iff_exists.1 (h.answered hb)⟩
    | true =>
      obtain ⟨m, y, -, hy, hi, hg⟩ : ∃ m y, n < m ∧ RunAt σ s m y ∧ InCommand waits y ∧ (y.busy = false ∨ rank y < rank x) := by
        have next (agent : Turn) (hag : ∀ z, Still x z →
            ¬((agent = .seq → z.cont.head? = some .readTick ∧ z.tickcnt ≠ 0) ∧ (agent = .tick → z.tgen = false ∨ z.tickcnt = 0))) :
            ∀ j z, n ≤ j → RunAt σ s j z → InCommand waits z ∧ Still x z → ∃ y, turnStep (σ j) z = .next y ∧
              ((InCommand waits y ∧ (y.busy = false ∨ rank y < rank x)) ∨ ((InCommand waits y ∧ Still x y) ∧ σ j ≠ agent)) := by
          rintro j z - - ⟨hz, hs⟩
          obtain ⟨y, hy, hiy, hc⟩ := hz.step (hs.busy.trans hb) (σ j) (hr j)
          refine ⟨y, hy, ?_⟩
          rcases hc with hc | hc | ⟨hst, hc⟩
          · exact .inl ⟨hiy, .inl hc⟩
          · exact .inl ⟨hiy, .inr (lt_of_lt_of_eq hc hs.rank)⟩
          · exact .inr ⟨⟨hiy, hs.trans hst⟩, fun he => hag z hs (he ▸ hc)⟩
        by_cases hw : x.cont.head? = some .readTick ∧ x.tickcnt ≠ 0
        · obtain ⟨hwt, ha⟩ := h.armed (List.mem_of_mem_head? hw.1)
          rcases ha with ha | ⟨m', src, hd⟩
          · refine goal_of_fair (htick hwt) (Keep := fun z => InCommand waits z ∧ Still x z) (fun z hz => hz.2.tgen.trans ha)
              (next .tick fun z hs hn => ?_) hx ⟨h, .refl x⟩
            rcases hn.2 rfl with hg | hg
            · rw [hs.tgen, ha] at hg; cases hg
            · exact hw.2 (hs.tickcnt ▸ hg)
          · have h1 := hw.1
            rw [hd] at h1
            cases m' <;> simp [List.replicate_succ, delayBody] at h1
        · refine goal_of_fair hseq (Keep := fun z => InCommand waits z ∧ Still x z) (fun z hz => hz.2.busy.trans hb)
            (next .seq fun z hs hn => ?_) hx ⟨h, .refl x⟩
          exact hw (by rw [← hs.cont, ← hs.tickcnt]; exact hn.1 rfl)
      rcases hg with hg | hg
      · exact ⟨m, y, hy, hg, Option.isSome_iff_exists.1 (hi.answered hg)⟩
      · exact ih _ hg hy hi rfl

/-- 70_reset_and_hazards.md R246: every command completes under F-SEQ, DLYMS and DLYS under F-TICK besides, whatever else
happens short of a reset; INIT where it is not issued during a transfer (41_init_cs.md R147). -/
theorem command_completes_of_fair {i : Instr} {s t : State} {σ : Schedule} (h : exec i s = .next t)
    (hi : i = .init → initBlocked s = false) (hr : ∀ n, (σ n).isReset = false) (hseq : FSeq σ t)
    (htick : waitsForTicks i = true → FTick σ t) : ∃ n u, RunAt σ t n u ∧ u.busy = false ∧ ∃ r, u.respPort = some r :=
  (inCommand_of_exec h hi).completes hr hseq htick (runAt_zero σ t)

/-! ### A byte is sent -/

/-- A frame that is waiting or in flight, with the peripheral clocked and enabled. -/
structure Sending (s : State) : Prop where
  clocked : clkenSpi s = true
  enabled : spicfgSpe s = true
  edge_le : s.edge.toNat ≤ frameEdges
  waiting : s.txpend = true ∨ s.shbusy = true

theorem spe_spicfgInit (p : Params) : (spicfgInit p).getLsbD 6 = true := by simp [spicfgInit]

/-- The SHIFTER steps up to the END of the frame in flight, or of the next one. -/
def shifterRank (s : State) : ℕ := if s.shbusy then frameEdges - s.edge.toNat else frameEdges + 1

theorem Sending.shifterEnabled {s : State} (h : Sending s) : shifterEnabled s = true := by
  have := h.edge_le
  cases hb : s.shbusy
  · have hp : s.txpend = true := by simpa [hb] using h.waiting
    simp [Machine.shifterEnabled, loadEnabled, h.clocked, h.enabled, hp, hb]
  · rcases Nat.lt_or_ge s.edge.toNat frameEdges with he | he
    · simp [Machine.shifterEnabled, edgeEnabled, hb, he]
    · simp [Machine.shifterEnabled, endEnabled, hb, le_antisymm this he]

/-- What the steps of the other agents leave alone of a transfer, a reset apart. -/
theorem Sending.other {s u : State} {t : Turn} (h : Sending s) (hu : turnStep t s = .next u) (hs : t ≠ .shifter)
    (hr : t.isReset = false) : Sending u ∧ u.shbusy = s.shbusy ∧ u.edge = s.edge := by
  cases t with
  | shifter => exact absurd rfl hs
  | rst p => cases hr
  | tick => cases hu; unfold tickStep; split <;> exact ⟨⟨h.clocked, h.enabled, h.edge_le, h.waiting⟩, rfl, rfl⟩
  | host =>
    rcases hostStep_cases hu with ⟨-, rfl⟩ | ⟨i, -, -, he⟩
    · exact ⟨h, rfl, rfl⟩
    · obtain ⟨-, rfl⟩ := exec_cases he
      rw [commandLatch_eq]
      have k : Sending (dropPacket s) := ⟨h.clocked, h.enabled, h.edge_le, h.waiting⟩
      cases commandProgram (dropPacket s).cfg i <;>
        exact ⟨⟨k.clocked, k.enabled, k.edge_le, k.waiting⟩, rfl, rfl⟩
  | seq =>
    rcases seqStep_cases hu with ⟨-, rfl⟩ | ⟨-, -, rfl⟩ | ⟨op, rest, -, -, -, rfl⟩
    · exact ⟨h, rfl, rfl⟩
    · exact ⟨⟨h.clocked, h.enabled, h.edge_le, h.waiting⟩, rfl, rfl⟩
    · have k : Sending (microEffect op s) ∧ (microEffect op s).shbusy = s.shbusy ∧ (microEffect op s).edge = s.edge := by
        cases op
        case applyInit => exact ⟨⟨show (0b11#2).getLsbD 0 = true from rfl, spe_spicfgInit s.cfg, h.edge_le, h.waiting⟩, rfl, rfl⟩
        case sendByte src => exact ⟨⟨h.clocked, h.enabled, h.edge_le, .inl rfl⟩, rfl, rfl⟩
        all_goals exact ⟨⟨h.clocked, h.enabled, h.edge_le, h.waiting⟩, rfl, rfl⟩
      obtain ⟨k, hb, he⟩ := k
      cases microRest op rest s <;> exact ⟨⟨k.clocked, k.enabled, k.edge_le, k.waiting⟩, hb, he⟩

/-- A SHIFTER step of a transfer ends a frame or brings it nearer to its end. -/
theorem Sending.shifter {s : State} (h : Sending s) :
    endEnabled s = true ∨ (Sending (shifterStep s) ∧ shifterRank (shifterStep s) < shifterRank s) := by
  rcases shifterStep_cases s with ⟨he, hs⟩ | ⟨he, hs⟩ | ⟨he, -⟩ | ⟨h1, h2, h3, -⟩
  · rw [hs]; rw [loadEnabled_iff] at he
    exact .inr ⟨⟨h.clocked, h.enabled, by simp [shifterLoad], .inr rfl⟩, by simp [shifterRank, shifterLoad, he, frameEdges]⟩
  · rw [hs]; rw [edgeEnabled_iff] at he
    have hn : (s.edge + 1).toNat = s.edge.toNat + 1 := by have := he.2; bv_omega
    refine .inr ⟨⟨h.clocked, h.enabled, ?_, .inr he.1⟩, ?_⟩
    · simp only [shifterEdge, hn]; exact he.2
    · simp only [shifterRank, shifterEdge, he.1, if_true, hn]; have := he.2; simp only [frameEdges]; omega
  · exact .inl he
  · have := h.shifterEnabled; simp [Machine.shifterEnabled, h1, h2, h3] at this

/-- From step `n` of the run on, SHIFTER takes the END of a frame. -/
def Ended (σ : Schedule) (s : State) (n : ℕ) : Prop :=
  ∃ m y, n ≤ m ∧ RunAt σ s m y ∧ σ m = .shifter ∧ endEnabled y = true ∧ RunAt σ s (m + 1) (shifterEnd y)

/-- 70_reset_and_hazards.md R246: under F-SHIFT "an enabled peripheral with a byte to send does send it": in an infinite run
without resets a transfer that is waiting or in flight comes to the END of its frame. -/
theorem frame_ends_of_fair {σ : Schedule} {s : State} (hrun : InfiniteRun σ s) (hr : ∀ n, (σ n).isReset = false)
    (hshift : FShift σ s) {n : ℕ} {x : State} (hx : RunAt σ s n x) (h : Sending x) :
    Ended σ s n := by
  induction hk : shifterRank x using Nat.strong_induction_on generalizing n x with
  | _ k ih =>
    subst hk
    obtain ⟨m, y, hm, hy, hg⟩ : ∃ m y, n < m ∧ RunAt σ s m y ∧ (Ended σ s n ∨ (Sending y ∧ shifterRank y < shifterRank x)) := by
      refine goal_of_fair hshift (Keep := fun z => Sending z ∧ shifterRank z = shifterRank x)
        (fun z hz => hz.1.shifterEnabled) (fun j z hj hz hsr => ?_) hx ⟨h, rfl⟩
      obtain ⟨y, hy⟩ := hrun (j + 1)
      obtain ⟨z', hz', hn⟩ := runAt_succ_cases hy
      obtain rfl := runAt_unique hz hz'
      refine ⟨y, hn, ?_⟩
      by_cases hag : σ j = .shifter
      · rw [hag] at hn
        cases hn
        rcases hsr.1.shifter with he | hlt
        · rw [shifterStep_end z ((endEnabled_iff z).1 he).1 ((endEnabled_iff z).1 he).2] at hy
          exact .inl (.inl ⟨j, z, hj, hz, hag, he, hy⟩)
        · exact .inl (.inr (hsr.2 ▸ hlt))
      · obtain ⟨ho, hb, he⟩ := hsr.1.other hn hag (hr j)
        exact .inr ⟨⟨ho, by rw [← hsr.2]; simp [shifterRank, hb, he]⟩, hag⟩
    rcases hg with hg | ⟨hs, hlt⟩
    · exact hg
    · obtain ⟨m', z, hm', hz⟩ := ih _ hlt hy hs rfl
      exact ⟨m', z, hm.le.trans hm', hz⟩

/-! ### Fair schedules -/

/-- SEQ, SHIFTER and TICK in turn. -/
def roundRobin : Schedule := fun n => if n % 3 = 0 then .seq else if n % 3 = 1 then .shifter else .tick

/-- A schedule that offers an agent infinitely many steps is fair to it. -/
theorem fair_of_often {enabled : State → Bool} {agent : Turn} {σ : Schedule} {s : State} (h : ∀ n, ∃ m, n ≤ m ∧ σ m = agent) :
    FairFor enabled agent σ s := fun n _ _ _ => (h n).imp fun _ hm => ⟨hm.1, .inl hm.2⟩

/-- Fairness asks for nothing impossible: one schedule meets F-SEQ, F-SHIFT and F-TICK from every state. -/
theorem roundRobin_fair (s : State) : FSeq roundRobin s ∧ FShift roundRobin s ∧ FTick roundRobin s ∧
    ∀ n, (roundRobin n).isReset = false := by
  refine ⟨fair_of_often fun n => ⟨3 * n, by omega, ?_⟩, fair_of_often fun n => ⟨3 * n + 1, by omega, ?_⟩,
    fair_of_often fun n => ⟨3 * n + 2, by omega, ?_⟩, fun n => ?_⟩
  · simp [roundRobin]
  · simp [roundRobin, Nat.add_mod]
  · simp [roundRobin, Nat.add_mod]
  · unfold roundRobin; split
    · rfl
    · split <;> rfl

end Sys2Proof.Machine
end

