-- ==== Sys2Proof/Laws/PerInstr.lean ====
section
/-! SUPPORT. What is stated of every command as syntax, one lemma per constructor. -/

namespace Sys2Proof.Laws

/-- The first byte of a command's packet selects the command's own row of 30_encoding.md R94. -/
def OpcodeRow.Statement (i : Instr) : Prop :=
  ∃ rest, encode i = opcodeByte (opcodeOf i) :: rest ∧ opcodeOfByte (opcodeByte (opcodeOf i)) = some (opcodeOf i)

/-- The packet of a well-formed command has the length that 30_encoding.md R93 gives it from its own bytes 0 and 1. -/
def PacketLength.Statement (i : Instr) : Prop :=
  i.WellFormed → (encode i).length = packetLength (opcodeOf i) (encode i)

theorem OpcodeRow.init : OpcodeRow.Statement .init := ⟨_, rfl, opcodeOfByte_opcodeByte _⟩
theorem OpcodeRow.sel : OpcodeRow.Statement .sel := ⟨_, rfl, opcodeOfByte_opcodeByte _⟩
theorem OpcodeRow.desel : OpcodeRow.Statement .desel := ⟨_, rfl, opcodeOfByte_opcodeByte _⟩
theorem OpcodeRow.outlo (pin : Byte) : OpcodeRow.Statement (.outlo pin) := ⟨_, rfl, opcodeOfByte_opcodeByte _⟩
theorem OpcodeRow.outhi (pin : Byte) : OpcodeRow.Statement (.outhi pin) := ⟨_, rfl, opcodeOfByte_opcodeByte _⟩
theorem OpcodeRow.wrb (value : Byte) : OpcodeRow.Statement (.wrb value) := ⟨_, rfl, opcodeOfByte_opcodeByte _⟩
theorem OpcodeRow.rd (command length : Byte) : OpcodeRow.Statement (.rd command length) := ⟨_, rfl, opcodeOfByte_opcodeByte _⟩
theorem OpcodeRow.wra (data : List Byte) : OpcodeRow.Statement (.wra data) := ⟨_, rfl, opcodeOfByte_opcodeByte _⟩
theorem OpcodeRow.wrrd (data : List Byte) (rxlen : Byte) : OpcodeRow.Statement (.wrrd data rxlen) := ⟨_, rfl, opcodeOfByte_opcodeByte _⟩
theorem OpcodeRow.tkstart : OpcodeRow.Statement .tkstart := ⟨_, rfl, opcodeOfByte_opcodeByte _⟩
theorem OpcodeRow.dlyms (n : Word) : OpcodeRow.Statement (.dlyms n) := ⟨_, rfl, opcodeOfByte_opcodeByte _⟩
theorem OpcodeRow.dlyus (n : Word) : OpcodeRow.Statement (.dlyus n) := ⟨_, rfl, opcodeOfByte_opcodeByte _⟩
theorem OpcodeRow.dlys : OpcodeRow.Statement .dlys := ⟨_, rfl, opcodeOfByte_opcodeByte _⟩

theorem PacketLength.init : PacketLength.Statement .init := fun _ => rfl
theorem PacketLength.sel : PacketLength.Statement .sel := fun _ => rfl
theorem PacketLength.desel : PacketLength.Statement .desel := fun _ => rfl
theorem PacketLength.outlo (pin : Byte) : PacketLength.Statement (.outlo pin) := fun _ => rfl
theorem PacketLength.outhi (pin : Byte) : PacketLength.Statement (.outhi pin) := fun _ => rfl
theorem PacketLength.wrb (value : Byte) : PacketLength.Statement (.wrb value) := fun _ => rfl
theorem PacketLength.rd (command length : Byte) : PacketLength.Statement (.rd command length) := fun _ => rfl
theorem PacketLength.wra (data : List Byte) : PacketLength.Statement (.wra data) := encode_wra_length data
theorem PacketLength.wrrd (data : List Byte) (rxlen : Byte) : PacketLength.Statement (.wrrd data rxlen) := encode_wrrd_length data rxlen
theorem PacketLength.tkstart : PacketLength.Statement .tkstart := fun _ => rfl
theorem PacketLength.dlyms (n : Word) : PacketLength.Statement (.dlyms n) := fun _ => rfl
theorem PacketLength.dlyus (n : Word) : PacketLength.Statement (.dlyus n) := fun _ => rfl
theorem PacketLength.dlys : PacketLength.Statement .dlys := fun _ => rfl

end Sys2Proof.Laws
end

