-- ==== Sys2Proof/Tests/Slice0.lean ====
section
/-! SUPPORT. Tests on fixed values, each of one step unless it says otherwise, with expected results from 30_encoding.md and
95_test_vectors.md (V10 to V73), and for every statement with hypotheses one witness that meets them together. -/

namespace Sys2Proof.Tests

open Sys2Proof.Machine

/-! ### States -/

/-- CFG-A of 95_test_vectors.md; the parameters it does not use are 0. -/
def cfgA : Params where
  retryBudget := 8
  cpol := true
  cpha := true
  br := 3
  gpioSpeed := 0
  coreClkHz := 72000000
  tgPeriodMax := 16777216
  usLoopK := 8
  pollsPerFrameMax := 0

/-- RST0 under a configuration. -/
def rst0 (p : Params) : State := { State.reset with cfg := p }

/-- INIT0 under CFG-A, with nothing in HIST (V30). -/
def init0 : State :=
  { rst0 cfgA with clken := 0b11, pincfg := 0xE5, spicfg := 0x055F, sck := .high }

/-- INIT0 in mode 0 (CPOL = CPHA = 0) with a budget of 1. -/
def mode0 : State :=
  { rst0 { cfgA with retryBudget := 1, cpol := false, cpha := false } with
    clken := 0b11, pincfg := 0xE5, spicfg := 0x055C, sck := .low }

/-- The state a step answers, the same state where it answers none. -/
def nextOr (o : Host.Outcome State Fault Refusal) (s : State) : State :=
  match o with
  | .next t => t
  | .fault _ => s
  | .refused _ => s

/-- Whether a step or a run answers a state. -/
def isNext : Host.Outcome State Fault Refusal → Bool
  | .next _ => true
  | .fault _ => false
  | .refused _ => false

/-- A state right after the issue of a command. -/
def issued (i : Instr) (s : State) : State := nextOr (exec i s) s

/-- A state right after a run. -/
def ran (ts : List Turn) (s : State) : State := nextOr (runTurns ts s) s

theorem runTurns_eq_ran {ts : List Turn} {s : State} (h : isNext (runTurns ts s) = true) : runTurns ts s = .next (ran ts s) := by
  unfold ran; cases hr : runTurns ts s <;> simp_all [nextOr, isNext]

/-- A state with these micro-steps pending. -/
def pending (ops : List MicroOp) (s : State) : State := { s with busy := true, cont := ops }

/-- A frame's eighteen SHIFTER steps. -/
def frame : List Turn := List.replicate 18 .shifter

theorem duringCommand_of_all {ts : List Turn} (h : (ts.all fun t => t != .host && !t.isReset) = true) : DuringCommand ts := by
  intro t ht
  have := List.all_eq_true.1 h t ht
  simpa using this

/-! ### WellFormed (30_encoding.md R97: counts are 8 bits) -/

theorem test_wra_of_255_is_wellformed : Instr.WellFormed (.wra (List.replicate 255 0)) := by decide +kernel
theorem test_wra_of_256_is_illformed : ¬ Instr.WellFormed (.wra (List.replicate 256 0)) := by decide +kernel
theorem test_wrrd_of_255_is_wellformed : Instr.WellFormed (.wrrd (List.replicate 255 0) 0xFF) := by decide +kernel
theorem test_wrrd_of_256_is_illformed : ¬ Instr.WellFormed (.wrrd (List.replicate 256 0) 0) := by decide +kernel

/-! ### Decoding, byte by byte from 30_encoding.md R92, R94 (V10 to V19) -/

theorem test_decode_init : decode [0x01] = .ok .init := by decide
theorem test_decode_sel : decode [0x10] = .ok .sel := by decide
theorem test_decode_desel : decode [0x11] = .ok .desel := by decide
theorem test_decode_outlo : decode [0x12, 0x01] = .ok (.outlo 0x01) := by decide
theorem test_decode_outhi : decode [0x13, 0xFF] = .ok (.outhi 0xFF) := by decide
theorem test_decode_wrb : decode [0x20, 0x5A] = .ok (.wrb 0x5A) := by decide
theorem test_decode_rd : decode [0x21, 0xAD, 0x06] = .ok (.rd 0xAD 6) := by decide
theorem test_decode_wra : decode [0x22, 0x02, 0x12, 0x34] = .ok (.wra [0x12, 0x34]) := by decide
theorem test_decode_wra_empty : decode [0x22, 0x00] = .ok (.wra []) := by decide
theorem test_decode_wrrd : decode [0x23, 0x02, 0x03, 0x00, 0x02] = .ok (.wrrd [0x00, 0x02] 3) := by decide
theorem test_decode_wrrd_read_only : decode [0x23, 0x00, 0x03] = .ok (.wrrd [] 3) := by decide
theorem test_decode_tkstart : decode [0x30] = .ok .tkstart := by decide
theorem test_decode_dlyms : decode [0x31, 0xE8, 0x03, 0x00, 0x00] = .ok (.dlyms 1000) := by decide
theorem test_decode_dlyms_all_ones : decode [0x31, 0xFF, 0xFF, 0xFF, 0xFF] = .ok (.dlyms 4294967295) := by decide
theorem test_decode_dlyus : decode [0x32, 0x0A, 0x00, 0x00, 0x00] = .ok (.dlyus 10) := by decide
theorem test_decode_dlys : decode [0x33] = .ok .dlys := by decide

/-- V18. -/
theorem test_reserved_opcodes : ∀ b ∈ [0x00, 0xFF, 0x02, 0x14, 0x24, 0x34], decode [b] = .error .reservedOpcode := by
  decide

/-- V19, the empty packet among them. -/
theorem test_bad_lengths : ∀ p ∈ [[0x21, 0xAD], [0x21, 0xAD, 0x06, 0x00], [0x10, 0x00], [0x22, 0x03, 0x12, 0x34],
    [0x23, 0x02, 0x03, 0x00], [0x31, 0x03, 0x00], []], decode p = .error .badPacketLength := by decide

/-- 30_encoding.md R103's examples, written by the encoder. -/
theorem test_encode_examples :
    encode (.rd 0xAD 6) = [0x21, 0xAD, 0x06] ∧ encode (.wrrd [0x00, 0x02] 8) = [0x23, 0x02, 0x08, 0x00, 0x02] ∧
      encode (.dlyms 3) = [0x31, 0x03, 0x00, 0x00, 0x00] := by decide

/-- The opcode table numbers byte 0 as bits 7 to 0; every bit above the given ones is 0. -/
theorem test_table_words :
    decodeTableWord 8 0x01 = some .init ∧ decodeTableWord 16 0x0112 = some (.outlo 0x01) ∧
      decodeTableWord 24 0x06AD21 = some (.rd 0xAD 6) ∧ decodeTableWord 16 0x0222 = some (.wra [0, 0]) ∧
      decodeTableWord 24 0x030123 = some (.wrrd [0] 3) ∧ decodeTableWord 40 0x3E831 = some (.dlyms 1000) ∧
      decodeTableWord 8 0x00 = none := by decide

/-! ### Placing a packet -/

theorem test_withFetchWord_runs_sel :
    step ((rst0 cfgA).withFetchWord 8 0x10) = exec .sel (rst0 cfgA) := by rfl
theorem test_withFetchWord_ends_a_command :
    step ((pending [.readTick] (rst0 cfgA)).withFetchWord 8 0x33) = exec .dlys (rst0 cfgA) := by rfl

/-! ### INIT and chip-select (V30 to V39) -/

/-- V30: INIT0 from RST0, HIST gaining DONE alone. -/
theorem test_init_configures :
    let t := ran [.seq] (issued .init (rst0 cfgA))
    (t.clken, t.pincfg, t.spicfg) = (0b11, 0xE5, 0x055F) ∧ (t.csout, t.sck, t.mosi, t.hist) = (true, .high, .u, [.done 0x01 []]) := by
  decide
/-- V37: a second INIT only raises CS. -/
theorem test_second_init_raises_cs :
    ran [.seq] (issued .init { init0 with csout := false }) =
      { init0 with csout := true, op := 0x01, respPort := some [], hist := [.csh, .done 0x01 []] } := by decide +kernel
/-- "for other parameter values" (95_test_vectors.md section 2.3). -/
theorem test_init_other_parameters :
    spicfgInit { cfgA with cpol := false, cpha := false, br := 0 } = 0x0544 ∧
      spicfgInit { cfgA with cpol := false, cpha := true, br := 7 } = 0x057D ∧
      spicfgInit { cfgA with cpol := true, cpha := false, br := 2 } = 0x0556 := by decide
/-- V39. -/
theorem test_init_during_transfer :
    seqStep (issued .init { init0 with txpend := true, shbusy := true }) = .refused .initDuringTransfer := by rfl
/-- V38: the driver works from reset. -/
theorem test_sel_from_reset :
    let t := ran [.seq] (issued .sel (rst0 cfgA))
    (t.csout, t.hist) = (false, [.csl, .done 0x10 []]) := by decide
/-- V32: a second SEL changes nothing. -/
theorem test_sel_again :
    let t := ran [.seq] (issued .sel { init0 with csout := false })
    (t.csout, t.hist) = (false, [.done 0x10 []]) := by decide
/-- V33. -/
theorem test_desel :
    let t := ran [.seq] (issued .desel { init0 with csout := false })
    (t.csout, t.hist) = (true, [.csh, .done 0x11 []]) := by decide
/-- V28: DESEL in the middle of a frame leaves the frame alone. -/
theorem test_desel_during_frame :
    let s := { init0 with csout := false, shbusy := true, edge := 9, shtx := 0xAD, shrx := 0x03, mosi := .low }
    let t := ran [.seq] (issued .desel s)
    (t.csout, t.shbusy, t.edge, t.sck, t.mosi, t.shtx, t.shrx) = (true, true, 9, s.sck, .low, 0xAD, 0x03) := by
  decide
/-- V35. -/
theorem test_outlo : (ran [.seq] (issued (.outlo 0x01) init0)).csout = false := by decide
/-- V36: complete in the issue step. -/
theorem test_outlo_unknown_pin :
    let t := issued (.outlo 0x02) { init0 with csout := false }
    (t.csout, t.busy, t.hist) = (false, false, [.done 0x12 []]) := by decide
/-- V35. -/
theorem test_outhi : (ran [.seq] (issued (.outhi 0x01) { init0 with csout := false })).csout = true := by decide
/-- V36. -/
theorem test_outhi_unknown_pin :
    let t := issued (.outhi 0xFF) { init0 with csout := false }
    (t.csout, t.busy, t.hist) = (false, false, [.done 0x13 []]) := by decide

/-! ### Transactions -/

/-- V40: the first micro-step of WRB 0x5A. -/
theorem test_wrb_sends :
    let t := ran [.seq] (issued (.wrb 0x5A) init0)
    (t.txdr, t.txpend, txe t, t.cont) = (0x5A, true, false, [.flagCheck .txe 0]) := by decide
/-- V26: before INIT no frame starts. -/
theorem test_wrb_before_init :
    let t := ran [.seq, .shifter] (issued (.wrb 0x5A) (rst0 cfgA))
    (t.txdr, t.txpend, t.shbusy, t.sck, t.mosi, t.hist) = (0x5A, true, false, .u, .u, []) := by decide
/-- R159: the command's byte goes out first. -/
theorem test_rd_sends_command :
    let t := ran [.seq] (issued (.rd 0xAD 6) init0)
    (t.txdr, t.a1, t.cont.length) = (0xAD, 6, 27) := by decide
/-- R74: SEQ.RSP[0 … len−1] goes to HOST; RXDR is read as it stands (R153). -/
theorem test_rd_returns_bytes :
    let s := pending [.receiveByte (some 1)] { init0 with op := 0x21, a1 := 2, rsp := [0x11], rxdr := 0x22, rxne := false }
    let t := ran [.seq] s
    (t.respPort, t.busy, t.hist) = (some [0x11, 0x22], false, [.done 0x21 [0x11, 0x22]]) := by decide
/-- R160: the bytes of TXBUF in order. -/
theorem test_wra_sends_first :
    let t := ran [.seq] (issued (.wra [0x12, 0x34]) init0)
    (t.txdr, t.cont) = (0x12, [.flagCheck .txe 0, .sendByte (.txbuf 1), .flagCheck .txe 0]) := by decide
theorem test_wra_empty :
    let t := issued (.wra []) init0
    (t.busy, t.respPort, t.hist) = (false, some [], [.done 0x22 []]) := by decide
/-- R161: with nothing to send the first byte out is a dummy. -/
theorem test_wrrd_read_only :
    let t := ran [.seq] (issued (.wrrd [] 3) init0)
    (t.txdr, t.a0, t.a1) = (0xFF, 0, 3) := by decide
theorem test_wrrd_no_discard :
    (issued (.wrrd [0x07] 1) init0).cont =
      [.sendByte (.txbuf 0), .flagCheck .txe 0, .sendByte .dummy, .flagCheck .txe 0, .flagCheck .rxne 0,
        .receiveByte (some 0)] := by decide
/-- R154: the eighth failed check of a budget of 8 ends the poll. -/
theorem test_poll_times_out :
    (ran [.seq] (pending [.flagCheck .rxne 7, .receiveByte none] init0)).cont = [.receiveByte none] ∧
      (ran [.seq] (pending [.flagCheck .rxne 6, .receiveByte none] init0)).cont = [.flagCheck .rxne 7, .receiveByte none] := by
  decide

/-! ### SHIFTER (V20 to V23) -/

/-- V20 and V23, LOAD: MOSI takes bit 7 in mode 0 and keeps its level in mode 3. -/
theorem test_load_mosi :
    (shifterStep { mode0 with txdr := 0xAD, txpend := true }).mosi = .high ∧
      (shifterStep { init0 with txdr := 0xAD, txpend := true }).mosi = .u := by decide
/-- V23, transitions 1 and 2: mode 3 shifts on the leading edge and samples on the trailing one. -/
theorem test_edge_mode3 :
    let s := { init0 with shbusy := true, shtx := 0xAD, shrx := 0x07, miso := ⟨[true], 0⟩ }
    let t := shifterStep s
    let u := shifterStep t
    (t.sck, t.mosi, t.shrx, u.sck, u.mosi, u.shrx, u.edge) = (.low, .high, 0x07, .high, .high, 0x0F, 2) := by decide
/-- V20, transition 16: after the last slot MOSI is left alone. -/
theorem test_last_edge_mode0 :
    let t := shifterStep { mode0 with shbusy := true, edge := 15, shtx := 0xAC, mosi := .high, sck := .high }
    (t.sck, t.mosi, t.edge) = (.low, .high, 16) := by decide
/-- R180: END overwrites an unread byte. -/
theorem test_end_overwrites :
    let t := shifterStep { init0 with shbusy := true, edge := 16, shrx := 0x3C, rxdr := 0x55, rxne := true }
    (t.rxdr, t.rxne, t.shbusy, t.edge, t.hist) = (0x3C, true, false, 0, [.xend 0x3C]) := by decide

/-! ### Timing -/

/-- R117's example: TGPERIOD = 72000. -/
theorem test_tkstart :
    let t := ran [.seq] (issued .tkstart (rst0 cfgA))
    (t.tgen, t.tgperiod, t.tickcnt) = (true, 72000, 0) := by decide
/-- R117's example with CORE_CLK_HZ = 999. -/
theorem test_tkstart_fails :
    let t := ran [.seq] (issued .tkstart (rst0 { cfgA with coreClkHz := 999 }))
    (t.tgen, t.tgperiod, t.busy) = (false, 0, false) := by decide
/-- R121: the second micro-step of DLYMS 3. -/
theorem test_dlyms_sets_counter :
    let t := ran [.seq, .seq] (issued (.dlyms 3) (rst0 cfgA))
    (t.tickcnt, t.tgen, t.cont) = (3, true, [.readTick]) := by decide
/-- R123: a TickStart that fails completes the command. -/
theorem test_dlyms_fails :
    let t := ran [.seq] (issued (.dlyms 3) (rst0 { cfgA with coreClkHz := 999 }))
    (t.busy, t.tickcnt) = (false, 0) := by decide
/-- R127: DLYUS 10 with US_LOOP_K = 8 runs 80 SpinIter steps. -/
theorem test_dlyus_count : (issued (.dlyus 10) init0).cont = [.spinIter 80] := by decide
theorem test_dlyus_zero : (issued (.dlyus 0) init0).busy = false := by decide
/-- R124: a thousand bodies of three micro-steps. -/
theorem test_dlys_count : (issued .dlys init0).cont.length = 3000 := by decide +kernel
/-- R125: a TickStart that fails leaves the other 999 repetitions. -/
theorem test_dlys_fails :
    (ran [.seq] (issued .dlys (rst0 { cfgA with coreClkHz := 999 }))).cont.length = 2997 := by decide +kernel
/-- R203. -/
theorem test_tick :
    (tickStep { init0 with tgen := true, tickcnt := 1 }).tickcnt = 0 ∧
      (tickStep { init0 with tgen := true, tickcnt := 0 }).hist = [.tick] ∧ tickStep init0 = init0 := by decide +kernel

/-! ### Witnesses: for every statement with hypotheses, values that meet them together, at the boundary values of each clause -/

theorem witness_DecodeOfEncodeReturnsCommand :
    Instr.WellFormed (.wrrd (List.replicate 255 0xFF) 0xFF) ∧ Instr.WellFormed (.dlyms 0xFFFFFFFF) := by decide +kernel

theorem witness_DecodedPacketIsItsEncoding : decode [0x23, 0x02, 0x08, 0x00, 0x02] = .ok (.wrrd [0x00, 0x02] 8) := by
  decide

theorem witness_ReservedOpcodeRefused :
    ∀ b ∈ [0x00, 0x33, 0x34, 0xFF], ∃ s : State, s.busy = false ∧ nextPacket s = b :: [] := fun b _ =>
  ⟨{ init0 with packets := ⟨[[b]], 0⟩ }, rfl, rfl⟩

theorem witness_WrongPacketLengthRefused :
    (∃ s : State, s.busy = false ∧ nextPacket s = opcodeByte .wra :: [0x03, 0x12, 0x34]) ∧
      (∃ s : State, s.busy = false ∧ nextPacket s = opcodeByte .wrrd :: []) ∧
      ∃ s : State, s.busy = false ∧ nextPacket s = [] :=
  ⟨⟨{ init0 with packets := ⟨[[0x22, 0x03, 0x12, 0x34]], 0⟩ }, rfl, rfl⟩,
    ⟨{ init0 with packets := ⟨[[0x23]], 0⟩ }, rfl, rfl⟩, ⟨{ init0 with packets := ⟨[[]], 0⟩ }, rfl, rfl⟩⟩

theorem witness_StepRunsDecodedCommand :
    let s := { init0 with packets := ⟨[[0x21, 0xAD, 0x06]], 0⟩, sched := ⟨[.host], 0⟩ };
    nextTurn s = .host ∧ s.busy = false ∧ decode (nextPacket s) = .ok (.rd 0xAD 6) := by decide

theorem witness_PlacedWordRunsNext : decodeTableWord 24 0x06AD21 = some (.rd 0xAD 6) := by decide

theorem witness_HostWaitsDuringCommand : (pending [.readTick] init0).busy = true := rfl

theorem witness_IssueLatchesAndLoads : init0.busy = false := rfl

theorem witness_SelDrivesChipSelectLow : init0.busy = false := rfl

theorem witness_DeselDrivesChipSelectHigh : init0.busy = false := rfl

theorem witness_OutloDrivesOnlyItsPin : init0.busy = false ∧ (0x01 : Byte) = 0x01 ∧ (0x00 : Byte) ≠ 0x01 := by decide

theorem witness_OuthiDrivesOnlyItsPin : init0.busy = false ∧ (0x01 : Byte) = 0x01 ∧ (0xFF : Byte) ≠ 0x01 := by decide

theorem witness_InitConfiguresPeripheral :
    (let s := { init0 with txpend := true };
      s.busy = false ∧ s.spicfg.getLsbD 6 = true ∧ (s.txpend = true ∨ s.shbusy = true)) ∧
      (let s := { rst0 cfgA with txpend := true };
        s.busy = false ∧ (s.spicfg.getLsbD 6 = false ∨ (s.txpend = false ∧ s.shbusy = false))) ∧
      (init0.busy = false ∧ (init0.spicfg.getLsbD 6 = false ∨ (init0.txpend = false ∧ init0.shbusy = false))) := by
  decide

theorem init0_wireInv : WireInv init0 :=
  ⟨by decide, fun _ => rfl, .inr (by decide), (fun h => by cases h), fun _ => by decide⟩

theorem witness_SecondInitMovesOnlyChipSelect : init0.busy = false ∧ WireInv init0 ∧ Inited init0 ∧ Quiescent init0 :=
  ⟨rfl, init0_wireInv, by decide, by decide⟩

theorem witness_ChipSelectMovesOnlyWhenDriven :
    (let s := pending [.driveCS false] init0;
      turnStep .seq s = .next (ran [.seq] s) ∧ (ran [.seq] s).csout ≠ s.csout) ∧
      (let s := pending [.applyInit] { init0 with csout := false };
        turnStep .seq s = .next (ran [.seq] s) ∧ (ran [.seq] s).csout ≠ s.csout) ∧
      (exec (.outlo 0x01) init0 = .next (issued (.outlo 0x01) init0) ∧ DuringCommand [.seq] ∧
        (microTrace [.seq] (issued (.outlo 0x01) init0)).any drivesChipSelect = true) :=
  ⟨⟨rfl, by decide⟩, ⟨rfl, by decide⟩, rfl, duringCommand_of_all rfl, by decide⟩

theorem witness_TransactionsIgnoreChipSelect :
    isTransaction (.wrb 0x5A) = true ∧ exec (.wrb 0x5A) init0 = .next (issued (.wrb 0x5A) init0) ∧
      DuringCommand [.seq, .shifter, .tick, .seq] :=
  ⟨rfl, rfl, duringCommand_of_all rfl⟩

theorem witness_SendByteIsUnconditional :
    let s := pending [.sendByte .dummy, .flagCheck .txe 0] { init0 with txpend := true, shbusy := true };
    s.busy = true ∧ s.cont = .sendByte .dummy :: .flagCheck .txe 0 :: [] := by decide

theorem witness_ReceiveByteIsUnconditional :
    (let s := pending [.receiveByte none, .sendByte .dummy] init0;
      s.busy = true ∧ s.cont = .receiveByte none :: .sendByte .dummy :: []) ∧
      (let s := pending [.receiveByte (some 1), .sendByte .dummy] { init0 with rsp := [0x11] };
        s.busy = true ∧ s.cont = .receiveByte (some 1) :: .sendByte .dummy :: [] ∧ 1 ≤ s.rsp.length) := by decide

theorem witness_PollEndsByFlagOrBudget :
    (let s := pending [.flagCheck .txe 7, .readTick] init0;
      s.busy = true ∧ s.cont = .flagCheck .txe 7 :: .readTick :: [] ∧ 7 < (s.cfg.retryBudget : ℕ) ∧ flagValue .txe s = true) ∧
      (let s := pending [.flagCheck .rxne 7, .readTick] init0;
        s.busy = true ∧ s.cont = .flagCheck .rxne 7 :: .readTick :: [] ∧ 7 < (s.cfg.retryBudget : ℕ) ∧
          flagValue .rxne s = false ∧ 7 + 1 = (s.cfg.retryBudget : ℕ)) ∧
      (let s := pending [.flagCheck .rxne 0, .readTick] init0;
        s.busy = true ∧ s.cont = .flagCheck .rxne 0 :: .readTick :: [] ∧ 0 < (s.cfg.retryBudget : ℕ) ∧
          flagValue .rxne s = false ∧ 0 + 1 < (s.cfg.retryBudget : ℕ)) := by decide

theorem witness_TransactionsIssueTheirMicroSteps :
    init0.busy = false ∧ isTransaction (.wrb 0x5A) = true ∧ isTransaction (.rd 0xAD 0) = true ∧
      (isTransaction (.wra [0x12, 0x34]) = true ∧ 1 < [(0x12 : Byte), 0x34].length) ∧
      isTransaction (.wrrd [0x12] 0xFF) = true := by decide

theorem witness_TransactionsCompleteWithinBudget :
    mode0.busy = false ∧
      (isTransaction (.wrb 0x5A) = true ∧ maxMicroSteps mode0.cfg (.wrb 0x5A) = some 2 ∧ 2 ≤ [Turn.seq, .seq].count .seq) ∧
      (isTransaction (.rd 0xAD 0) = true ∧ maxMicroSteps mode0.cfg (.rd 0xAD 0) = some 4 ∧
        4 ≤ [Turn.seq, .shifter, .seq, .tick, .seq, .seq].count .seq) ∧
      (isTransaction (.wra []) = true ∧ maxMicroSteps mode0.cfg (.wra []) = some 0 ∧ 0 ≤ ([] : List Turn).count .seq) ∧
      (isTransaction (.wrrd [0x12] 1) = true ∧ maxMicroSteps mode0.cfg (.wrrd [0x12] 1) = some 6 ∧
        6 ≤ (List.replicate 6 Turn.seq).count .seq) ∧
      DuringCommand [.seq, .shifter, .seq, .tick, .seq, .seq] := by decide

/-- One transmit without a read: SendByte, its frame, FlagCheck(TXE). -/
def writeTurns : List Turn := .seq :: frame ++ [.seq]

/-- One exchange: SendByte, its frame, FlagCheck(TXE), FlagCheck(RXNE), ReceiveByte. -/
def exchangeTurns : List Turn := writeTurns ++ [.seq, .seq]

/-- mode0 with a responder that answers 3C, then 5A. -/
def answered : State := { mode0 with miso := ⟨responderBits [0x3C, 0x5A], 0⟩ }

/-- The hypotheses of the statements about responsive runs, for one command and schedule. -/
abbrev RunsTo (i : Instr) (ts : List Turn) (s : State) : Prop :=
  Inited s ∧ Quiescent s ∧ (ts.all fun t => t != .host && !t.isReset) = true ∧ responsive ts (issued i s) = true ∧
    (ran ts (issued i s)).busy = false

/-- R245, each frame exists: a run cut off in mid-poll is not responsive, nor is one whose frame comes after the budget. -/
theorem test_responsive_needs_the_frames_end :
    responsive [.seq, .seq, .seq] (issued (.wrb 0x5A) init0) = false ∧
      responsive ([.seq, .seq] ++ frame ++ [.seq]) (issued (.wrb 0x5A) mode0) = false ∧
      responsive ([.seq, .seq] ++ frame ++ [.seq]) (issued (.wrb 0x5A) init0) = true := by decide +kernel

/-- R245, INITED from the first transaction command on: the same frame in a peripheral whose PINCFG is not INIT's. -/
theorem test_responsive_needs_initialised :
    responsive writeTurns (issued (.wrb 0x5A) { init0 with pincfg := 0 }) = false ∧
      responsive (.host :: writeTurns) { init0 with pincfg := 0, packets := ⟨[[0x20, 0x5A]], 0⟩ } = false ∧
      responsive [.seq] (issued .sel { init0 with pincfg := 0 }) = true := by decide +kernel

/-- R245, the parameter form, with POLLS_PER_FRAME_MAX = 0 and one FlagCheck before the frame, or none. -/
theorem test_responsive_by_parameter :
    responsiveByParameter ([.seq, .seq] ++ frame ++ [.seq]) (issued (.wrb 0x5A) init0) = false ∧
      responsiveByParameter writeTurns (issued (.wrb 0x5A) init0) = true := by decide +kernel

theorem witness_RdSendsCommandThenDummies :
    exec (.rd 0xAD 0) mode0 = .next (issued (.rd 0xAD 0) mode0) ∧ DuringCommand (List.replicate 4 .seq) ∧
      runTurns (List.replicate 4 .seq) (issued (.rd 0xAD 0) mode0) =
        .next (ran (List.replicate 4 .seq) (issued (.rd 0xAD 0) mode0)) ∧
      (ran (List.replicate 4 .seq) (issued (.rd 0xAD 0) mode0)).busy = false :=
  ⟨rfl, duringCommand_of_all rfl, rfl, by decide⟩

theorem witness_RdReturnsItsDummyFrames :
    exec (.rd 0xAD 1) answered = .next (issued (.rd 0xAD 1) answered) ∧
      RunsTo (.rd 0xAD 1) (exchangeTurns ++ exchangeTurns) answered ∧
      (ran (exchangeTurns ++ exchangeTurns) (issued (.rd 0xAD 1) answered)).respPort = some [0x5A] :=
  ⟨rfl, by decide +kernel, by decide +kernel⟩

theorem witness_WrrdReturnsItsDummyFrames :
    exec (.wrrd [0x07] 1) answered = .next (issued (.wrrd [0x07] 1) answered) ∧
      RunsTo (.wrrd [0x07] 1) (writeTurns ++ exchangeTurns) answered ∧
      (ran (writeTurns ++ exchangeTurns) (issued (.wrrd [0x07] 1) answered)).respPort = some [0x5A] :=
  ⟨rfl, by decide +kernel, by decide +kernel⟩

theorem witness_WraSendsItsBytesInOrder :
    exec (.wra [0x12]) answered = .next (issued (.wra [0x12]) answered) ∧ RunsTo (.wra [0x12]) writeTurns answered :=
  ⟨rfl, by decide +kernel⟩

theorem witness_WrbSendsItsByteOnce :
    exec (.wrb 0x5A) answered = .next (issued (.wrb 0x5A) answered) ∧ RunsTo (.wrb 0x5A) writeTurns answered :=
  ⟨rfl, by decide +kernel⟩

theorem witness_RdUnderEagerScheduleReturnsResponderBytes :
    answered.busy = false ∧ Inited answered ∧ Quiescent answered ∧ [(0x5A : Byte)].length = (1 : Byte).toNat ∧
      answered.miso.given = responderBits (0x3C :: [0x5A]) ++ [] ∧ ([] : List Byte).length = (0 : Byte).toNat ∧
      answered.miso.given = responderBits (0x3C :: []) ++ byteBits 0x5A := by decide

theorem witness_RdOfUnreadyPeripheralReturnsStaleData :
    let s := rst0 { cfgA with retryBudget := 1 };
    let ts := List.replicate 8 Turn.seq;
    s.busy = false ∧ (spicfgSpe s = false ∨ clkenSpi s = false) ∧ s.shbusy = false ∧ s.rxne = false ∧ DuringCommand ts ∧
      ((1 : Byte).toNat + 1) * (2 + 2 * (s.cfg.retryBudget : ℕ)) ≤ ts.count .seq ∧
      ((0 : Byte).toNat + 1) * (2 + 2 * (s.cfg.retryBudget : ℕ)) ≤ ts.count .seq := by decide

theorem witness_EmptyTransfersCompleteAtIssue : init0.busy = false := rfl

theorem witness_SeenTxeMeansOwnFrameEnded :
    let s := pending [.sendByte .dummy, .flagCheck .txe 0, .readTick] { mode0 with shbusy := true, edge := 16 };
    let t := ran [.seq] s;
    let ts := [Turn.shifter] ++ frame;
    let w := ran ts t;
    s.busy = true ∧ s.cont = .sendByte .dummy :: .flagCheck .txe 0 :: [.readTick] ∧ turnStep .seq s = .next t ∧
      DuringCommand ts ∧ runTurns ts t = .next w ∧ w.busy = true ∧ w.cont = .flagCheck .txe 0 :: [.readTick] ∧ txe w = true :=
  ⟨rfl, rfl, rfl, duringCommand_of_all rfl, runTurns_eq_ran (by decide +kernel), by decide +kernel, by decide +kernel,
    by decide +kernel⟩

theorem witness_EquivalentCommandsHaveSameMicroSteps : init0.busy = false := rfl

theorem witness_LoadStartsFrame :
    let s := { init0 with txdr := 0xAD, txpend := true };
    (s.clken.getLsbD 0 = true ∧ s.spicfg.getLsbD 6 = true ∧ s.txpend = true ∧ s.shbusy = false) ∧
      turnStep .shifter s = .next (ran [.shifter] s) ∧ (ran [.shifter] s).shbusy = true := ⟨by decide, rfl, by decide⟩

theorem witness_EdgeShiftsOrSamples :
    (let s := { init0 with shbusy := true, edge := 0 };
      s.shbusy = true ∧ s.edge.toNat < 16 ∧ s.spicfg.getLsbD 0 = true ∧ turnStep .shifter s = .next (ran [.shifter] s) ∧
        (ran [.shifter] s).sck ≠ s.sck) ∧
      (let s := { mode0 with shbusy := true, edge := 15 };
        s.shbusy = true ∧ s.edge.toNat < 16 ∧ s.spicfg.getLsbD 0 = false) :=
  ⟨⟨rfl, by decide, by decide, rfl, by decide⟩, by decide⟩

theorem witness_EndDeliversReceivedByte :
    let s := { init0 with shbusy := true, edge := 16, txpend := true };
    s.shbusy = true ∧ s.edge.toNat = 16 ∧ turnStep .shifter s = .next (ran [.shifter] s) ∧ (ran [.shifter] s).shbusy = false :=
  ⟨rfl, by decide, rfl, by decide⟩

theorem witness_WholeFrameExchangesOneByte :
    let s := { answered with txdr := 0xAD, txpend := true, shrx := 0xFF };
    s.clken.getLsbD 0 = true ∧ s.spicfg.getLsbD 6 = true ∧ s.txpend = true ∧ s.shbusy = false ∧
      s.miso.given = byteBits 0x3C ++ byteBits 0x5A ∧ 0 < 8 ∧ 7 < 8 ∧ 0 ≤ 16 ∧ 16 ≤ 16 := by decide

theorem witness_FlagsChangeOnlyByTheTable :
    (let s := pending [.sendByte .dummy] init0;
      turnStep .seq s = .next (ran [.seq] s) ∧ (performed .seq s).any isSend = true ∧ (ran [.seq] s).txpend = true) ∧
      (let s := pending [.receiveByte none] { init0 with rxne := true };
        turnStep .seq s = .next (ran [.seq] s) ∧ (performed .seq s).any isReceive = true ∧ (ran [.seq] s).rxne = false) ∧
      (let s := { init0 with txpend := true };
        turnStep .shifter s = .next (ran [.shifter] s) ∧ (ran [.shifter] s).shbusy = true ∧ (ran [.shifter] s).txpend = false) ∧
      (let s := { init0 with shbusy := true, edge := 16 };
        turnStep .shifter s = .next (ran [.shifter] s) ∧ (ran [.shifter] s).shbusy = false ∧ (ran [.shifter] s).rxne = true) ∧
      Turn.seq.isReset = false ∧ Turn.shifter.isReset = false :=
  ⟨⟨rfl, by decide⟩, ⟨rfl, by decide⟩, ⟨rfl, by decide⟩, ⟨rfl, by decide⟩, rfl, rfl⟩

theorem witness_TkstartArmsTickGenerator :
    (let s := rst0 { cfgA with coreClkHz := 1000, tgPeriodMax := 1 };
      s.busy = false ∧ 1 ≤ s.cfg.coreClkHz / 1000 ∧ s.cfg.coreClkHz / 1000 ≤ (s.cfg.tgPeriodMax : ℕ) ∧
        s.cfg.coreClkHz / 1000 < 2 ^ 32) ∧
      (let s := rst0 { cfgA with coreClkHz := 999 };
        s.busy = false ∧ ¬(1 ≤ s.cfg.coreClkHz / 1000 ∧ s.cfg.coreClkHz / 1000 ≤ (s.cfg.tgPeriodMax : ℕ))) ∧
      (let s := rst0 { cfgA with coreClkHz := 2000, tgPeriodMax := 1 };
        s.busy = false ∧ ¬(1 ≤ s.cfg.coreClkHz / 1000 ∧ s.cfg.coreClkHz / 1000 ≤ (s.cfg.tgPeriodMax : ℕ))) := by
  decide

theorem witness_TickDecrementsIfNonzero :
    (let s := { init0 with tgen := true, tickcnt := 1 };
      s.tgen = true ∧ s.tickcnt ≠ 0) ∧
      (let s := { init0 with tgen := true, tickcnt := 0 };
        s.tgen = true ∧ s.tickcnt = 0) ∧ init0.tgen = false := by decide

theorem witness_CounterRisesOnlyBySetTick :
    let s := pending [.setTick .one, .readTick] init0;
    turnStep .seq s = .next (ran [.seq] s) ∧ s.tickcnt.toNat < (ran [.seq] s).tickcnt.toNat :=
  ⟨rfl, by decide⟩

theorem witness_TickCommutesWithOtherSteps :
    let s := pending [.driveCS false] { init0 with tgen := true, tickcnt := 1, txpend := true };
    (∀ op ∈ performed .seq s, (∀ src, op ≠ .setTick src) ∧ op ≠ .readTick ∧ ∀ k, op ≠ .tickStart k) ∧
      (∀ op ∈ performed .shifter s, (∀ src, op ≠ .setTick src) ∧ op ≠ .readTick ∧ ∀ k, op ≠ .tickStart k) ∧
      runTurns [.seq, .tick] s = .next (ran [.seq, .tick] s) ∧ runTurns [.tick, .seq] s = .next (ran [.tick, .seq] s) ∧
      runTurns [.shifter, .tick] s = .next (ran [.shifter, .tick] s) ∧
      runTurns [.tick, .shifter] s = .next (ran [.tick, .shifter] s) := by
  refine ⟨?_, ?_, rfl, rfl, rfl, rfl⟩
  · intro op h; have : op = .driveCS false := by simpa [performed, pending] using h
    subst this; simp
  · intro op h; simp [performed] at h

theorem witness_TicksAreInvisibleToOtherCommands :
    let s := { init0 with tgen := true };
    let t := issued .sel s;
    (Instr.sel ≠ .tkstart ∧ Instr.sel ≠ .dlys ∧ ∀ n, Instr.sel ≠ .dlyms n) ∧ exec .sel s = .next t ∧
      DuringCommand [.tick, .seq, .tick] ∧ runTurns [.tick, .seq, .tick] t = .next (ran [.tick, .seq, .tick] t) :=
  ⟨⟨by decide, by decide, by simp⟩, rfl, duringCommand_of_all rfl, rfl⟩

theorem witness_DlymsCompletesAfterItsTicks : (rst0 cfgA).busy = false ∧ tickArmable (rst0 cfgA).cfg = true := by decide

theorem witness_DlymsNeverReturnsBeforeItsTicks :
    (let t := issued (.dlyms 0) (rst0 cfgA);
      let ts := [Turn.seq, .seq];
      tickArmable (rst0 cfgA).cfg = true ∧ exec (.dlyms 0) (rst0 cfgA) = .next t ∧ DuringCommand ts ∧
        runTurns ts t = .next (ran ts t) ∧ (ran ts t).busy = true ∧ turnStep .seq (ran ts t) = .next (ran (ts ++ [.seq]) t) ∧
        (ran (ts ++ [.seq]) t).busy = false) ∧
      (let t := issued (.dlyms 1) (rst0 cfgA);
        let ts := [Turn.seq, .seq, .tick];
        tickArmable (rst0 cfgA).cfg = true ∧ exec (.dlyms 1) (rst0 cfgA) = .next t ∧ DuringCommand ts ∧
          runTurns ts t = .next (ran ts t) ∧ (ran ts t).busy = true ∧
          turnStep .seq (ran ts t) = .next (ran (ts ++ [.seq]) t) ∧ (ran (ts ++ [.seq]) t).busy = false) :=
  ⟨⟨by decide, rfl, duringCommand_of_all rfl, rfl, by decide, rfl, by decide⟩,
    by decide, rfl, duringCommand_of_all rfl, rfl, by decide, rfl, by decide⟩

theorem witness_DlymsOfUnarmableGeneratorReturnsAtOnce :
    let s := rst0 { cfgA with coreClkHz := 999 };
    s.busy = false ∧ tickArmable s.cfg = false := by decide

theorem witness_DlymsHangsWithoutTicks :
    let t := issued (.dlyms 1) (rst0 cfgA);
    let ts := [Turn.seq, .shifter, .seq, .seq];
    tickArmable (rst0 cfgA).cfg = true ∧ (1 : Word) ≠ 0 ∧ exec (.dlyms 1) (rst0 cfgA) = .next t ∧ DuringCommand ts ∧
      Turn.tick ∉ ts ∧ 2 ≤ ts.count .seq :=
  ⟨by decide, by decide, rfl, duringCommand_of_all rfl, by decide, by decide⟩

theorem witness_DlysCompletesAfterThousandTicks : (rst0 cfgA).busy = false ∧ tickArmable (rst0 cfgA).cfg = true := by
  decide

theorem witness_DlysNeedsThousandTicks :
    let t := issued .dlys (rst0 cfgA);
    let ts := [Turn.seq, .seq, .tick, .seq];
    tickArmable (rst0 cfgA).cfg = true ∧ exec .dlys (rst0 cfgA) = .next t ∧ DuringCommand ts ∧ runTurns ts t = .next (ran ts t) ∧
      ticksSince t.hist (ran ts t).hist = 1 ∧ (microTrace ts t).length = 3 :=
  ⟨by decide, rfl, duringCommand_of_all rfl, rfl, by decide, by decide⟩

theorem witness_DlysOfUnarmableGeneratorDoesNotBlock :
    let s := rst0 { cfgA with coreClkHz := 16777217000, tgPeriodMax := 16777216 };
    s.busy = false ∧ tickArmable s.cfg = false := by decide

theorem witness_DlyusSpinsAndChangesNothing :
    init0.busy = false ∧ (0 : Word) = 0 ∧ (rst0 { cfgA with usLoopK := 0 }).cfg.usLoopK = 0 := by decide

/-- R243: a reset with other parameters and INIT give the other clock mode; a reset alone keeps the parameters. -/
theorem test_reset_with_other_parameters :
    (ran [.rst (some mode0.cfg)] init0).cfg = mode0.cfg ∧ (ran [.rst (some mode0.cfg)] init0).spicfg = 0 ∧
      (ran [.seq] (issued .init (ran [.rst (some mode0.cfg)] init0))).spicfg = 0x055C ∧
      (ran [.rst none] init0).cfg = cfgA := by decide

theorem witness_NothingMovesAfterReset :
    turnStep (.rst none) (pending [.readTick] init0) = .next (ran [.rst none] (pending [.readTick] init0)) ∧
      turnStep (.rst (some mode0.cfg)) init0 = .next (ran [.rst (some mode0.cfg)] init0) ∧
      DuringCommand [.seq, .shifter, .tick] :=
  ⟨rfl, rfl, duringCommand_of_all rfl⟩

theorem witness_WireInvariantKeptByEveryStep :
    let s := { init0 with txpend := true, sched := ⟨[.shifter], 0⟩ };
    WireInv s ∧ step s = .next (nextOr (step s) s) :=
  ⟨⟨by decide, fun _ => rfl, .inr (by decide), (fun h => by cases h), fun _ => by decide⟩, rfl⟩

theorem witness_SequencerInvariantKeptByEveryStep :
    let s := { pending [.setTick .one, .readTick] init0 with sched := ⟨[.seq], 0⟩ };
    SeqInv s ∧ step s = .next (nextOr (step s) s) :=
  ⟨⟨by decide +kernel, by decide +kernel, by decide +kernel, by decide +kernel, rfl, fun h => absurd rfl h⟩, rfl⟩

theorem witness_ReachableStatesKeepClockAndCounter :
    let s := { State.reset with cfg := cfgA, packets := ⟨[[0x01], [0x20, 0x5A]], 0⟩, miso := ⟨[], 0⟩ };
    let ts := [Turn.host, .seq, .host, .seq, .shifter];
    let u := ran ts s;
    runTurns ts s = .next u ∧ spicfgSpe u = true ∧ u.shbusy = true ∧ runTurns [] s = .next s ∧ s.busy = false ∧ s.shbusy = false :=
  ⟨rfl, by decide, by decide, rfl, rfl, rfl⟩

theorem witness_ConfigurationFixedOnceInited :
    let s := pending [.applyInit] init0;
    Inited s ∧ turnStep .seq s = .next (ran [.seq] s) ∧ Turn.seq.isReset = false :=
  ⟨by decide, rfl, rfl⟩

theorem witness_ParametersAndTraceArePreserved :
    let s := pending [.driveCS false] init0;
    turnStep .seq s = .next (ran [.seq] s) ∧ Turn.seq.isReset = false ∧
      turnStep (.rst (some mode0.cfg)) s = .next (ran [.rst (some mode0.cfg)] s) :=
  ⟨rfl, rfl, rfl⟩

end Sys2Proof.Tests
end

section
/-! The reset values (10_state.md R59). -/

namespace Sys2Proof.Machine

/-! ### The derived views, from the fields they are read off -/

/-- With no byte waiting and no frame in flight the transmit buffer is empty (10_state.md R35). -/
theorem txe_of_txpend_shbusy {s : State} (hpend : s.txpend = false) (hbusy : s.shbusy = false) : txe s = true := by
  simp [txe, hpend, hbusy]

/-- Nothing to send and nothing received: SPISR shows TXE alone (10_state.md R45). -/
theorem spisr_of_txe_rxne {s : State} (htxe : txe s = true) (hrxne : s.rxne = false) : spisr s = 0b10 := by
  simp [spisr, htxe, hrxne]

/-- Pin CS shows CSOUT.LEVEL (10_state.md R54). -/
@[simp] theorem csPin_eq_csout (s : State) : csPin s = s.csout := rfl

/-! ### The table -/

theorem txe_reset : txe State.reset = true := txe_of_txpend_shbusy rfl rfl

theorem spisr_reset : spisr State.reset = 0b10 := spisr_of_txe_rxne txe_reset rfl

theorem csPin_reset : csPin State.reset = true := csPin_eq_csout State.reset

/-- Settles O52: the stored elements are the fields of `State.reset`; TXE, SPISR and pin CS are derived from them. -/
theorem resetValues : Obligations.ResetValues := by
  unfold Obligations.ResetValues
  refine ⟨?csout, ?txdr, ?rxdr, ?shtx, ?shrx, ?tickcnt, ?rxne, ?txpend, ?shbusy, txe_reset, ?edge, ?clken, ?pincfg, ?spicfg,
    ?tgen, ?tgperiod, ?sck, ?mosi, ?busy, ?cont, ?op, ?a0, ?a1, ?txbuf, ?rsp, ?hist, spisr_reset, csPin_reset⟩
  all_goals rfl

end Sys2Proof.Machine
end

section
/-! Packets HOST's issue refuses (30_encoding.md R93, R94, R99, R100). -/

namespace Sys2Proof

/-! ### What the decoder refuses -/

@[simp] theorem decode_nil : decode [] = .error .badPacketLength := rfl

/-- A byte 0 outside the table is refused whatever follows (30_encoding.md R99). -/
theorem decode_cons_of_reserved {b : Byte} (rest : List Byte) (h : opcodeOfByte b = none) :
    decode (b :: rest) = .error .reservedOpcode := by
  simp [decode, h]

/-- Behind a byte 0 of the table the length alone decides (30_encoding.md R93, R100). -/
theorem decode_cons_of_opcode {b : Byte} {o : Opcode} (rest : List Byte) (h : opcodeOfByte b = some o) :
    decode (b :: rest) =
      if rest.length + 1 = packetLength o (b :: rest) then .ok (decodeOperands o (b :: rest)) else .error .badPacketLength := by
  simp [decode, h]

/-- Byte 0 alone makes a packet's opcode reserved. -/
theorem decode_cons_eq_reservedOpcode_iff (b : Byte) (rest : List Byte) :
    decode (b :: rest) = .error .reservedOpcode ↔ opcodeOfByte b = none := by
  cases h : opcodeOfByte b with
  | none => simp [decode_cons_of_reserved rest h]
  | some o =>
    rw [decode_cons_of_opcode rest h]
    split <;> simp

/-- Behind an opcode of the table a packet is refused for its length exactly when that is not R93's. -/
theorem decode_cons_eq_badPacketLength_iff (o : Opcode) (rest : List Byte) :
    decode (opcodeByte o :: rest) = .error .badPacketLength ↔
      rest.length + 1 ≠ packetLength o (opcodeByte o :: rest) := by
  rw [decode_cons_of_opcode rest (opcodeOfByte_opcodeByte o)]
  split <;> simp_all

/-! ### The reserved values of byte 0 -/

/-- A byte is reserved when it is no row's byte (30_encoding.md R94, R99). -/
theorem opcodeOfByte_eq_none_iff (b : Byte) :
    opcodeOfByte b = none ↔ b.toNat ∉ allOpcodes.map fun o => (opcodeByte o).toNat := by
  simp [opcodeOfByte, BitVec.toNat_inj]

/-- 256 values less the thirteen rows of R94. -/
theorem countP_reserved_bytes : ((List.range 256).countP fun b => opcodeOfByte (BitVec.ofNat 8 b) = none) = 243 := by
  decide +kernel

end Sys2Proof

namespace Sys2Proof.Machine

/-! ### HOST's issue from an idle SEQ -/

/-- The two reasons a packet has no behaviour stay apart as refusals (30_encoding.md R99, R100). -/
theorem refusalOf_injective : Function.Injective refusalOf
  | .reservedOpcode, .reservedOpcode, _ => rfl
  | .badPacketLength, .badPacketLength, _ => rfl

/-- With SEQ idle HOST's step is refused for the reason the decoder gives, and for no other. -/
theorem turnStep_host_refused_iff {s : State} (hidle : s.busy = false) (e : DecodeError) :
    turnStep .host s = .refused (refusalOf e) ↔ decode (nextPacket s) = .error e := by
  cases hd : decode (nextPacket s) with
  | ok i =>
    have hnext := exec_idle i (s := dropPacket s) hidle
    simp [hostStep, hidle, hd, hnext]
  | error d => simp [hostStep, hidle, hd, refusalOf_injective.eq_iff]

/-! ### The two refusals -/

/-- Settles O3: with SEQ idle HOST refuses what the decoder refuses, and the decoder looks byte 0 up in R94's table. -/
theorem reservedOpcodeRefused : Obligations.ReservedOpcodeRefused := by
  unfold Obligations.ReservedOpcodeRefused
  refine ⟨fun b rest s hidle hpacket => ?_, countP_reserved_bytes⟩
  calc turnStep .host s = .refused .reservedOpcode
      ↔ decode (b :: rest) = .error .reservedOpcode := hpacket ▸ turnStep_host_refused_iff hidle .reservedOpcode
    _ ↔ opcodeOfByte b = none := decode_cons_eq_reservedOpcode_iff b rest
    _ ↔ _ := opcodeOfByte_eq_none_iff b

/-- Settles O4: the decoder compares the packet's length with the one of the opcode's format, row by row of R94. -/
theorem wrongPacketLengthRefused : Obligations.WrongPacketLengthRefused := by
  unfold Obligations.WrongPacketLengthRefused
  refine ⟨fun o p s hidle hpacket => ?_, fun s hidle hempty => ?_⟩
  · have hrefused := turnStep_host_refused_iff hidle .badPacketLength
    rw [hpacket, decode_cons_eq_badPacketLength_iff] at hrefused
    cases o <;> exact hrefused
  · exact (turnStep_host_refused_iff hidle .badPacketLength).mpr (hempty ▸ decode_nil)

end Sys2Proof.Machine
end

section
/-! The chip-select line (41_init_cs.md R143 to R145). -/

namespace Sys2Proof.Machine

/-! ### Which micro-steps and which commands drive the line -/

/-- DriveCS and ApplyInit apart, no micro-step writes CSOUT.LEVEL. -/
theorem microEffect_csout_of_not_drives {op : MicroOp} (hop : drivesChipSelect op = false) (s : State) :
    (microEffect op s).csout = s.csout := by
  cases op with
  | applyInit => cases hop
  | driveCS level => cases hop
  | _ => rfl

/-- A micro-step adds nothing that drives the line to what is pending behind it: only polls, spins and loops stay pending. -/
theorem mem_microRest_of_drives {op x : MicroOp} {rest : List MicroOp} {s : State} (hx : x ∈ microRest op rest s)
    (hdrives : drivesChipSelect x = true) : x ∈ rest := by
  have mem_of_ne {y : MicroOp} (hy : drivesChipSelect y = false) (h : x ∈ y :: rest) : x ∈ rest :=
    (List.mem_cons.mp h).resolve_left fun e => by simp [e, hy] at hdrives
  cases op <;> simp only [microRest, afterFlagCheck] at hx
  case flagCheck | readTick | spinIter =>
    split at hx
    · exact hx
    · exact mem_of_ne rfl hx
  case tickStart onFail =>
    split at hx
    · exact hx
    · exact List.mem_of_mem_drop hx
  all_goals exact hx

theorem not_drives_of_mem_writeByteProc {src : ByteSrc} {op : MicroOp} (h : op ∈ writeByteProc src) :
    drivesChipSelect op = false := by
  simp only [writeByteProc, pollFlag, List.mem_cons, List.not_mem_nil, or_false] at h
  obtain rfl | rfl := h <;> rfl

theorem not_drives_of_mem_exchangeByte {src : ByteSrc} {dst : Option ℕ} {op : MicroOp} (h : op ∈ exchangeByte src dst) :
    drivesChipSelect op = false := by
  obtain hw | hr := List.mem_append.mp h
  · exact not_drives_of_mem_writeByteProc hw
  · simp only [readByteProc, pollFlag, List.mem_append, List.mem_cons, List.not_mem_nil, or_false] at hr
    obtain rfl | rfl := hr <;> rfl

theorem not_drives_of_mem_transmitLoop {n : ℕ} {op : MicroOp} (h : op ∈ transmitLoop n) : drivesChipSelect op = false := by
  obtain ⟨i, -, hi⟩ := List.mem_flatMap.mp h
  exact not_drives_of_mem_writeByteProc hi

theorem not_drives_of_mem_receiveLoop {n : ℕ} {op : MicroOp} (h : op ∈ receiveLoop n) : drivesChipSelect op = false := by
  obtain ⟨i, -, hi⟩ := List.mem_flatMap.mp h
  exact not_drives_of_mem_exchangeByte hi

theorem not_drives_of_mem_delayBody {src : WordSrc} {op : MicroOp} (h : op ∈ delayBody src) : drivesChipSelect op = false := by
  simp only [delayBody, List.mem_cons, List.not_mem_nil, or_false] at h
  obtain rfl | rfl | rfl := h <;> rfl

theorem not_drives_of_mem_spinLoop {n : ℕ} {op : MicroOp} (h : op ∈ spinLoop n) : drivesChipSelect op = false := by
  unfold spinLoop at h
  split at h
  · cases h
  · rw [List.mem_singleton.mp h]; rfl

/-- The commands whose micro-steps may write the line (41_init_cs.md R144). -/
def MayDriveChipSelect (i : Instr) : Prop :=
  i = .init ∨ i = .sel ∨ i = .desel ∨ i = .outlo 0x01 ∨ i = .outhi 0x01

theorem not_drives_of_mem_commandProgram {p : Params} {i : Instr} (hi : ¬MayDriveChipSelect i) {op : MicroOp}
    (h : op ∈ commandProgram p i) : drivesChipSelect op = false := by
  cases i with
  | init => exact absurd (by simp [MayDriveChipSelect]) hi
  | sel => exact absurd (by simp [MayDriveChipSelect]) hi
  | desel => exact absurd (by simp [MayDriveChipSelect]) hi
  | outlo pin =>
    have hpin : pin ≠ pinCs := by rintro rfl; exact hi (by simp [MayDriveChipSelect])
    rw [commandProgram, if_neg hpin] at h; cases h
  | outhi pin =>
    have hpin : pin ≠ pinCs := by rintro rfl; exact hi (by simp [MayDriveChipSelect])
    rw [commandProgram, if_neg hpin] at h; cases h
  | wrb value => exact not_drives_of_mem_writeByteProc h
  | rd command length =>
    exact (List.mem_append.mp h).elim not_drives_of_mem_exchangeByte not_drives_of_mem_receiveLoop
  | wra data => exact not_drives_of_mem_transmitLoop h
  | wrrd data rxlen =>
    exact (List.mem_append.mp h).elim not_drives_of_mem_transmitLoop not_drives_of_mem_receiveLoop
  | tkstart => rw [List.mem_singleton.mp h]; rfl
  | dlyms n => exact not_drives_of_mem_delayBody h
  | dlyus n => exact not_drives_of_mem_spinLoop h
  | dlys =>
    obtain ⟨body, hbody, hop⟩ := List.mem_flatten.mp h
    rw [List.eq_of_mem_replicate hbody] at hop
    exact not_drives_of_mem_delayBody hop

theorem not_mayDriveChipSelect_of_isTransaction {i : Instr} (hi : isTransaction i = true) : ¬MayDriveChipSelect i := by
  rintro (rfl | rfl | rfl | rfl | rfl) <;> cases hi

/-! ### Steps that leave the line alone -/

@[simp] theorem commandLatch_csout (i : Instr) (s : State) : (commandLatch i s).csout = s.csout := by
  rw [commandLatch_eq]

theorem csout_of_exec {i : Instr} {s t : State} (h : exec i s = .next t) : t.csout = s.csout := by
  obtain ⟨-, rfl⟩ := exec_cases h
  simp

theorem csout_of_hostStep {s t : State} (h : hostStep s = .next t) : t.csout = s.csout := by
  obtain ⟨-, rfl⟩ | ⟨i, -, -, hexec⟩ := hostStep_cases h
  · rfl
  · exact (csout_of_exec hexec).trans (dropPacket_csout s)

@[simp] theorem shifterStep_csout (s : State) : (shifterStep s).csout = s.csout := by
  obtain ⟨-, h⟩ | ⟨-, h⟩ | ⟨-, h⟩ | ⟨-, -, -, h⟩ := shifterStep_cases s <;> rw [h] <;> rfl

/-- Everything a TICK step can do. -/
theorem tickStep_cases (s : State) : (s.tgen = true ∧ tickStep s = takeTick s) ∨ (s.tgen = false ∧ tickStep s = s) := by
  unfold tickStep
  cases s.tgen
  · exact .inr ⟨rfl, rfl⟩
  · exact .inl ⟨rfl, rfl⟩

@[simp] theorem tickStep_csout (s : State) : (tickStep s).csout = s.csout := by
  obtain ⟨-, h⟩ | ⟨-, h⟩ := tickStep_cases s
  · rw [h, takeTick_csout]
  · rw [h]

@[simp] theorem tickStep_cont (s : State) : (tickStep s).cont = s.cont := by
  obtain ⟨-, h⟩ | ⟨-, h⟩ := tickStep_cases s
  · rw [h, takeTick_cont]
  · rw [h]

/-- A busy sequencer performs the first pending micro-step. -/
theorem performed_seq_cons {s : State} {op : MicroOp} {rest : List MicroOp} (hbusy : s.busy = true)
    (hcont : s.cont = op :: rest) : performed .seq s = [op] := by
  simp [performed, hbusy, hcont]

/-- A SEQ step that changes the level performs a DriveCS of the new level, or an ApplyInit that raises it. -/
theorem performed_of_seqStep_csout_ne {s s' : State} (h : seqStep s = .next s') (hne : s'.csout ≠ s.csout) :
    performed .seq s = [.driveCS s'.csout] ∨ (performed .seq s = [.applyInit] ∧ s'.csout = true) := by
  obtain ⟨-, rfl⟩ | ⟨-, -, rfl⟩ | ⟨op, rest, hbusy, hcont, -, rfl⟩ := seqStep_cases h
  · exact absurd rfl hne
  · exact absurd (complete_csout s) hne
  · rw [continueWith_csout] at hne ⊢
    rw [performed_seq_cons hbusy hcont]
    cases op with
    | driveCS level => exact .inl rfl
    | applyInit => exact .inr ⟨rfl, rfl⟩
    | _ => exact absurd (microEffect_csout_of_not_drives rfl s) hne

/-- 41_init_cs.md R144, of one step of any agent. -/
theorem performed_of_turnStep_csout_ne {t : Turn} {s s' : State} (h : turnStep t s = .next s') (hne : s'.csout ≠ s.csout) :
    t.isReset = true ∨ performed t s = [.driveCS s'.csout] ∨ (performed t s = [.applyInit] ∧ s'.csout = true) := by
  cases t with
  | host => exact absurd (csout_of_hostStep h) hne
  | seq => exact .inr (performed_of_seqStep_csout_ne h hne)
  | shifter => cases h; exact absurd (shifterStep_csout s) hne
  | tick => cases h; exact absurd (tickStep_csout s) hne
  | rst params => exact .inl rfl

/-! ### Commands that leave the line alone -/

/-- Nothing pending drives the chip-select line. -/
def Undriven (s : State) : Prop := ∀ op ∈ s.cont, drivesChipSelect op = false

theorem undriven_of_exec {i : Instr} {s t : State} (hi : ¬MayDriveChipSelect i) (h : exec i s = .next t) : Undriven t := by
  obtain ⟨-, rfl⟩ := exec_cases h
  intro op hop
  rw [continueWith_cont] at hop
  exact not_drives_of_mem_commandProgram hi hop

theorem Undriven.of_cont_eq {s t : State} (h : Undriven s) (hcont : t.cont = s.cont) : Undriven t := by
  unfold Undriven; rwa [hcont]

theorem Undriven.not_drives_of_performed {s : State} (h : Undriven s) {t : Turn} {op : MicroOp} (hop : op ∈ performed t s) :
    drivesChipSelect op = false := by
  unfold performed at hop
  split at hop
  · exact h op (List.mem_of_mem_head? (Option.mem_toList.mp hop))
  · cases hop

/-- Without a pending ApplyInit SEQ's step is not refused, and nothing that drives the line becomes pending. -/
theorem Undriven.seqStep_next {s : State} (h : Undriven s) : ∃ s', seqStep s = .next s' ∧ Undriven s' := by
  cases hbusy : s.busy with
  | false => exact ⟨s, seqStep_idle s hbusy, h⟩
  | true =>
    cases hcont : s.cont with
    | nil => exact ⟨_, seqStep_nil s hbusy hcont, by simp [Undriven]⟩
    | cons op rest =>
      have hop : drivesChipSelect op = false := h op (by simp [hcont])
      refine ⟨_, (seqStep_cons s op rest hbusy hcont).trans (microStep_eq op rest s ?_), fun x hx => ?_⟩
      · rintro rfl; cases hop
      · rw [continueWith_cont] at hx
        by_contra hdrives
        have hmem : x ∈ rest := mem_microRest_of_drives hx (by simpa using hdrives)
        exact hdrives (h x (by simp [hcont, hmem]))

/-- A step during such a command is not refused, and the command stays such. -/
theorem Undriven.turnStep_next {s : State} (h : Undriven s) {t : Turn} (ht : t ≠ .host ∧ t.isReset = false) :
    ∃ s', turnStep t s = .next s' ∧ Undriven s' := by
  cases t with
  | host => exact absurd rfl ht.1
  | seq => exact h.seqStep_next
  | shifter => exact ⟨_, rfl, h.of_cont_eq (shifterStep_still s).1.cont⟩
  | tick => exact ⟨_, rfl, h.of_cont_eq (tickStep_cont s)⟩
  | rst params => cases ht.2

/-- Nor does such a step move the line. -/
theorem Undriven.csout_of_turnStep {s s' : State} (h : Undriven s) {t : Turn} (ht : t.isReset = false)
    (hstep : turnStep t s = .next s') : s'.csout = s.csout := by
  by_contra hne
  obtain hreset | hdrive | ⟨hinit, -⟩ := performed_of_turnStep_csout_ne hstep hne
  · simp [ht] at hreset
  · cases h.not_drives_of_performed (hdrive ▸ List.mem_singleton_self _)
  · cases h.not_drives_of_performed (hinit ▸ List.mem_singleton_self _)

/-- The whole run of such a command performs no micro-step that drives the line. -/
theorem Undriven.not_drives_of_mem_microTrace {ts : List Turn} (hts : DuringCommand ts) {s : State} (h : Undriven s) :
    ∀ op ∈ microTrace ts s, drivesChipSelect op = false := by
  induction ts generalizing s with
  | nil => simp [microTrace]
  | cons t ts ih =>
    obtain ⟨ht, hrest⟩ := List.forall_mem_cons.mp hts
    obtain ⟨s', hstep, hs'⟩ := h.turnStep_next ht
    rw [microTrace_cons_next hstep, List.forall_mem_append]
    exact ⟨fun op => h.not_drives_of_performed, ih hrest hs'⟩

/-- Settles O16: no effect but DriveCS's and ApplyInit's writes CSOUT.LEVEL, and neither is pending, nor becomes pending, in a
command that is not one of the five. -/
theorem chipSelectMovesOnlyWhenDriven : Obligations.ChipSelectMovesOnlyWhenDriven := by
  unfold Obligations.ChipSelectMovesOnlyWhenDriven
  refine ⟨fun t s s' => performed_of_turnStep_csout_ne, fun i s t ts hexec hts hany => ?_⟩
  change MayDriveChipSelect i
  by_contra hi
  obtain ⟨op, hop, hdrives⟩ := List.any_eq_true.mp hany
  simp [(undriven_of_exec hi hexec).not_drives_of_mem_microTrace hts op hop] at hdrives

/-! ### The same run from the other level -/

/-- The state with the chip-select line at a given level. -/
def withChipSelect (b : Bool) (s : State) : State := { s with csout := b }

theorem continueWith_withChipSelect (b : Bool) (rest : List MicroOp) (s : State) :
    continueWith rest (withChipSelect b s) = withChipSelect b (continueWith rest s) := by
  cases rest <;> rfl

theorem microRest_withChipSelect (b : Bool) (op : MicroOp) (rest : List MicroOp) (s : State) :
    microRest op rest (withChipSelect b s) = microRest op rest s := by
  cases op <;> rfl

/-- The effect of a micro-step that does not drive the line does not read it either. -/
theorem microEffect_withChipSelect (b : Bool) {op : MicroOp} (hop : drivesChipSelect op = false) (s : State) :
    microEffect op (withChipSelect b s) = withChipSelect b (microEffect op s) := by
  cases op with
  | applyInit => cases hop
  | driveCS level => cases hop
  | _ => rfl

theorem shifterStep_withChipSelect (b : Bool) (s : State) :
    shifterStep (withChipSelect b s) = withChipSelect b (shifterStep s) := by
  change (if loadEnabled s then withChipSelect b (shifterLoad s)
    else if edgeEnabled s then withChipSelect b (shifterEdge s)
    else if endEnabled s then withChipSelect b (shifterEnd s)
    else withChipSelect b s) = _
  simp only [shifterStep, apply_ite (withChipSelect b)]

theorem tickStep_withChipSelect (b : Bool) (s : State) :
    tickStep (withChipSelect b s) = withChipSelect b (tickStep s) := by
  change (if s.tgen then withChipSelect b (takeTick s) else withChipSelect b s) = _
  simp only [tickStep, apply_ite (withChipSelect b)]

/-- SEQ's step does not read the line while nothing pending drives it. -/
theorem Undriven.seqStep_withChipSelect {s s' : State} (h : Undriven s) (b : Bool) (hstep : seqStep s = .next s') :
    seqStep (withChipSelect b s) = .next (withChipSelect b s') := by
  obtain ⟨hbusy, rfl⟩ | ⟨hbusy, hcont, rfl⟩ | ⟨op, rest, hbusy, hcont, hinit, rfl⟩ := seqStep_cases hstep
  · exact seqStep_idle _ hbusy
  · exact seqStep_nil _ hbusy hcont
  · have hop : drivesChipSelect op = false := h op (by simp [hcont])
    calc seqStep (withChipSelect b s)
        = microStep op rest (withChipSelect b s) := seqStep_cons _ op rest hbusy hcont
      _ = .next (continueWith (microRest op rest (withChipSelect b s)) (microEffect op (withChipSelect b s))) :=
          microStep_eq op rest _ hinit
      _ = .next (withChipSelect b (continueWith (microRest op rest s) (microEffect op s))) := by
          rw [microRest_withChipSelect, microEffect_withChipSelect b hop, continueWith_withChipSelect]

theorem Undriven.turnStep_withChipSelect {s s' : State} (h : Undriven s) (b : Bool) {t : Turn}
    (ht : t ≠ .host ∧ t.isReset = false) (hstep : turnStep t s = .next s') :
    turnStep t (withChipSelect b s) = .next (withChipSelect b s') := by
  cases t with
  | host => exact absurd rfl ht.1
  | seq => exact h.seqStep_withChipSelect b hstep
  | shifter => cases hstep; rw [turnStep_shifter, shifterStep_withChipSelect]
  | tick => cases hstep; rw [turnStep_tick, tickStep_withChipSelect]
  | rst params => cases ht.2

theorem performed_withChipSelect (b : Bool) (t : Turn) (s : State) : performed t (withChipSelect b s) = performed t s := rfl

/-- The run is not refused and leaves the level; from the other level it ends in the same state but for the level, by the same
micro-steps. -/
theorem Undriven.runTurns_withChipSelect {ts : List Turn} (hts : DuringCommand ts) {s : State} (h : Undriven s) (b : Bool) :
    ∃ u, runTurns ts s = .next u ∧ u.csout = s.csout ∧
      runTurns ts (withChipSelect b s) = .next (withChipSelect b u) ∧
      microTrace ts (withChipSelect b s) = microTrace ts s := by
  induction ts generalizing s with
  | nil => exact ⟨s, rfl, rfl, rfl, rfl⟩
  | cons t ts ih =>
    obtain ⟨ht, hrest⟩ := List.forall_mem_cons.mp hts
    obtain ⟨s', hstep, hs'⟩ := h.turnStep_next ht
    have hstep' := h.turnStep_withChipSelect b ht hstep
    obtain ⟨u, hrun, hlevel, hrun', htrace⟩ := ih hrest hs'
    refine ⟨u, ?_, hlevel.trans (h.csout_of_turnStep ht.2 hstep), ?_, ?_⟩
    · rw [runTurns_cons_next hstep, hrun]
    · rw [runTurns_cons_next hstep', hrun']
    · rw [microTrace_cons_next hstep, microTrace_cons_next hstep', performed_withChipSelect, htrace]

/-- The issue of a command does not read the line. -/
theorem exec_withChipSelect {i : Instr} {s t : State} (h : exec i s = .next t) (b : Bool) :
    exec i (withChipSelect b s) = .next (withChipSelect b t) := by
  obtain ⟨hidle, rfl⟩ := exec_cases h
  have hlatch : beginCommand (commandLatch i (withChipSelect b s)) = withChipSelect b (beginCommand (commandLatch i s)) := by
    cases i <;> rfl
  rw [exec_idle i (withChipSelect b s) hidle, hlatch, continueWith_withChipSelect]
  rfl

/-- Settles O17: nothing pending in a transaction command drives the line, so no step of its run reads or writes the level. -/
theorem transactionsIgnoreChipSelect : Obligations.TransactionsIgnoreChipSelect := by
  unfold Obligations.TransactionsIgnoreChipSelect
  intro i s t b ts hi hexec hts
  have hundriven : Undriven t := undriven_of_exec (not_mayDriveChipSelect_of_isTransaction hi) hexec
  obtain ⟨u, hrun, hlevel, hrun', htrace⟩ := hundriven.runTurns_withChipSelect hts b
  exact ⟨exec_withChipSelect hexec b, u, hrun, hlevel.trans (csout_of_exec hexec), hrun', htrace⟩

end Sys2Proof.Machine
end

section
/-! Commands with the same micro-steps (41_init_cs.md R143, 42_transactions.md R161, 40_timing.md R124). -/

namespace Sys2Proof.Machine

/-- Two commands with one program leave the same micro-steps pending. -/
theorem exec_cont_eq_of_commandProgram_eq {i j : Instr} {s : State} (hidle : s.busy = false)
    (hprogram : commandProgram s.cfg i = commandProgram s.cfg j) :
    ∃ t u, exec i s = .next t ∧ exec j s = .next u ∧ t.cont = u.cont :=
  ⟨_, _, exec_idle i s hidle, exec_idle j s hidle, by rw [continueWith_cont, continueWith_cont, hprogram]⟩

/-- With nothing to receive WRRD's receive phase is empty (42_transactions.md R161). -/
theorem commandProgram_wrrd_zero (p : Params) (data : List Byte) :
    commandProgram p (.wrrd data 0) = commandProgram p (.wra data) :=
  List.append_nil (transmitLoop data.length)

/-- The delay body of DLYS is the one of DLYMS but for where SetTick's duration comes from (40_timing.md R124). -/
theorem delayBody_one_map_operand :
    (delayBody .one).map (fun op => if op = .setTick .one then .setTick .operand else op) = delayBody .operand := rfl

/-- Settles O32: each pair has one program, DLYS's up to the source of its duration, which DLYMS 1 latches as the same word. -/
theorem equivalentCommandsHaveSameMicroSteps : Obligations.EquivalentCommandsHaveSameMicroSteps := by
  unfold Obligations.EquivalentCommandsHaveSameMicroSteps
  intro s hidle
  refine ⟨?sel, ?desel, fun data => ?wrrd, ?dlys⟩
  case sel => exact exec_cont_eq_of_commandProgram_eq hidle rfl
  case desel => exact exec_cont_eq_of_commandProgram_eq hidle rfl
  case wrrd =>
    refine ⟨_, _, exec_idle _ s hidle, exec_idle _ s hidle, ?_, ?_⟩
    · simp only [continueWith_cont, commandProgram_wrrd_zero]
    · simp [commandLatch]
  case dlys =>
    refine ⟨_, _, exec_idle _ s hidle, exec_idle _ s hidle, ?_, ?_⟩
    · simp only [continueWith_cont, commandProgram, List.map_flatten, List.map_replicate, delayBody_one_map_operand]
    · simp [readWordSrc, commandLatch]

end Sys2Proof.Machine
end

section
/-! The register-level primitives of a transaction: SendByte, ReceiveByte and the poll (42_transactions.md R151 to R154). -/

namespace Sys2Proof.Machine

/-! ### One micro-step of the sequencer -/

/-- Offered a step, a busy SEQ performs the first pending micro-step; only ApplyInit can be refused instead. -/
theorem turnStep_seq_cons {s : State} {op : MicroOp} {rest : List MicroOp} (hbusy : s.busy = true)
    (hcont : s.cont = op :: rest) (hop : op ≠ .applyInit) :
    turnStep .seq s = .next (continueWith (microRest op rest s) (microEffect op s)) :=
  (seqStep_cons s op rest hbusy hcont).trans (microStep_eq op rest s fun h => absurd h hop)

/-! ### SendByte -/

/-- A byte that waits in TXDR makes TXE 0, whatever the shifter is doing (10_state.md R35). -/
theorem txe_of_txpend {s : State} (hpend : s.txpend = true) : txe s = false := by
  simp [txe, hpend]

/-- Settles O18: SendByte's effect is two register writes and reads no flag. -/
theorem sendByteIsUnconditional : Obligations.SendByteIsUnconditional := by
  unfold Obligations.SendByteIsUnconditional
  intro s src op rest hbusy hcont
  refine ⟨_, turnStep_seq_cons hbusy hcont (by simp), ?_, txe_of_txpend rfl⟩
  cases src <;> rfl

/-! ### ReceiveByte -/

/-- A write within a buffer replaces one byte, and a write at its end appends one: the bytes on either side stay (20_memory.md R74). -/
theorem bufWrite_eq_take_append_drop {buf : List Byte} {j : ℕ} (hj : j ≤ buf.length) (b : Byte) :
    bufWrite buf j b = buf.take j ++ [b] ++ buf.drop (j + 1) := by
  obtain hlt | rfl := hj.lt_or_eq
  · simp [bufWrite, hlt, List.set_eq_take_append_cons_drop]
  · simp [bufWrite_length_self]

/-- Settles O19: ReceiveByte's effect is its store and the write of RXNE, and reads no flag. -/
theorem receiveByteIsUnconditional : Obligations.ReceiveByteIsUnconditional := by
  unfold Obligations.ReceiveByteIsUnconditional
  intro s op rest hbusy
  refine ⟨fun hcont => turnStep_seq_cons hbusy hcont (by simp), fun j hcont hj => ?_⟩
  rw [turnStep_seq_cons hbusy hcont (by simp), ← bufWrite_eq_take_append_drop hj]
  rfl

/-! ### The poll -/

/-- A set flag ends the poll, and so does the last check of the budget (42_transactions.md R154). -/
theorem afterFlagCheck_of_ends {f : Flag} {count : ℕ} {s : State} (rest : List MicroOp)
    (h : flagValue f s = true ∨ s.cfg.retryBudget ≤ count + 1) : afterFlagCheck f count rest s = rest :=
  if_pos (by simpa using h)

/-- A check that sees its flag 0 with budget left goes on to the next one. -/
theorem afterFlagCheck_of_continues {f : Flag} {count : ℕ} {s : State} (rest : List MicroOp) (hflag : flagValue f s = false)
    (hbudget : count + 1 < s.cfg.retryBudget) : afterFlagCheck f count rest s = .flagCheck f (count + 1) :: rest := by
  simp [afterFlagCheck, hflag, hbudget]

section
variable {s : State} {f : Flag} {count : ℕ} {op : MicroOp} {rest : List MicroOp}

/-- The check that ends a poll moves SEQ's position to the micro-step behind it and writes nothing else. -/
theorem turnStep_flagCheck_of_ends (hbusy : s.busy = true) (hcont : s.cont = .flagCheck f count :: op :: rest)
    (h : flagValue f s = true ∨ s.cfg.retryBudget ≤ count + 1) : turnStep .seq s = .next { s with cont := op :: rest } := by
  rw [turnStep_seq_cons hbusy hcont (by simp), microRest, afterFlagCheck_of_ends _ h]
  rfl

/-- Any other check counts itself and writes nothing else. -/
theorem turnStep_flagCheck_of_continues (hbusy : s.busy = true) (hcont : s.cont = .flagCheck f count :: op :: rest)
    (hflag : flagValue f s = false) (hbudget : count + 1 < s.cfg.retryBudget) :
    turnStep .seq s = .next { s with cont := .flagCheck f (count + 1) :: op :: rest } := by
  rw [turnStep_seq_cons hbusy hcont (by simp), microRest, afterFlagCheck_of_continues _ hflag hbudget]
  rfl

/-- Met by SEQ steps alone, a flag that is 0 stays 0, so a poll with `left + 1` checks of its budget to run runs them all. -/
theorem runTurns_poll_of_flag_unset {left : ℕ} (hbusy : s.busy = true) (hcont : s.cont = .flagCheck f count :: op :: rest)
    (hflag : flagValue f s = false) (hleft : count + (left + 1) = s.cfg.retryBudget) :
    runTurns (List.replicate (left + 1) .seq) s = .next { s with cont := op :: rest } := by
  induction left generalizing s count with
  | zero => exact runTurns_cons_next (turnStep_flagCheck_of_ends hbusy hcont (.inr hleft.ge))
  | succ left ih =>
    have hstep := turnStep_flagCheck_of_continues hbusy hcont hflag (by omega)
    rw [List.replicate_succ, runTurns_cons_next hstep]
    exact ih hbusy rfl hflag (by rw [← hleft]; omega)

end

/-- Settles O20: a check ends the poll or counts itself, and the run of a poll whose flag stays 0 is an induction on the checks
left. -/
theorem pollEndsByFlagOrBudget : Obligations.PollEndsByFlagOrBudget := by
  unfold Obligations.PollEndsByFlagOrBudget
  intro s f count op rest hbusy hcont hcount
  refine ⟨fun hflag => ?seen, fun _ hlast => ?last, fun hflag hbudget => ?next, fun hflag => ?run⟩
  case seen => exact turnStep_flagCheck_of_ends hbusy hcont (.inl hflag)
  case last => exact turnStep_flagCheck_of_ends hbusy hcont (.inr hlast.ge)
  case next => exact turnStep_flagCheck_of_continues hbusy hcont hflag hbudget
  case run =>
    obtain ⟨left, hleft⟩ := Nat.exists_eq_add_of_lt hcount
    have hchecks : s.cfg.retryBudget - count = left + 1 := by omega
    rw [hchecks]
    exact runTurns_poll_of_flag_unset hbusy hcont hflag (by omega)

end Sys2Proof.Machine
end

section
/-! One frame, step by step: LOAD, EDGE and END as the SHIFTER step takes them (43_shifter.md R176 to R180). -/

namespace Sys2Proof.Machine

/-! ### Which of the three steps moves what -/

/-- SHBUSY rises in LOAD alone. -/
theorem loadEnabled_of_shbusy_rises {s : State} (hidle : s.shbusy = false) (hstarts : (shifterStep s).shbusy = true) :
    loadEnabled s = true := by
  obtain ⟨hload, -⟩ | ⟨hedge, -⟩ | ⟨hend, -⟩ | ⟨-, -, -, hstays⟩ := shifterStep_cases s
  · exact hload
  · simp [hidle] at hedge
  · simp [hidle] at hend
  · simp [hstays, hidle] at hstarts

/-- SHBUSY falls in END alone. -/
theorem endEnabled_of_shbusy_falls {s : State} (hbusy : s.shbusy = true) (hends : (shifterStep s).shbusy = false) :
    endEnabled s = true := by
  obtain ⟨hload, -⟩ | ⟨-, hedge⟩ | ⟨hend, -⟩ | ⟨-, -, -, hstays⟩ := shifterStep_cases s
  · simp [hbusy] at hload
  · simp [hedge, hbusy] at hends
  · exact hend
  · simp [hstays, hbusy] at hends

/-- SCK moves in EDGE alone. -/
theorem edgeEnabled_of_sck_moves {s : State} (hmoves : (shifterStep s).sck ≠ s.sck) : edgeEnabled s = true := by
  obtain ⟨-, hload⟩ | ⟨hedge, -⟩ | ⟨-, hend⟩ | ⟨-, -, -, hstays⟩ := shifterStep_cases s
  · simp [hload] at hmoves
  · exact hedge
  · simp [hend] at hmoves
  · simp [hstays] at hmoves

/-! ### The two kinds of SCK transition -/

/-- A transition samples when its edge and the clock phase agree: leading with CPHA = 0, trailing with CPHA = 1. -/
theorem samplesNext_iff (s : State) : samplesNext s = true ↔ (s.edge.toNat % 2 = 0 ↔ spicfgCpha s = false) := by
  cases hphase : spicfgCpha s <;> simp [samplesNext, leadingEdge, hphase]

/-- Any other transition shifts: trailing with CPHA = 0, leading with CPHA = 1. -/
theorem samplesNext_eq_false_iff (s : State) : samplesNext s = false ↔ (s.edge.toNat % 2 = 0 ↔ spicfgCpha s = true) := by
  cases hphase : spicfgCpha s <;> simp [samplesNext, leadingEdge, hphase]

/-- Shifting a bit into SHRX is a shift to the left by one place with the bit in the place that it frees. -/
theorem shiftIn_eq_shiftLeft_or (r : Byte) (m : Bool) : shiftIn r m = r <<< 1 ||| (BitVec.ofBool m).setWidth 8 := by
  refine BitVec.eq_of_getElem_eq fun i hi => ?_
  cases i with
  | zero => simp [shiftIn]
  | succ i =>
    have hlt : i < 8 := by omega
    simp [shiftIn, BitVec.getLsbD_eq_getElem hlt]

/-- A sampling transition takes one bit from MISO into SHRX and leaves MOSI alone. -/
theorem shifterEdge_of_samples {s : State} (h : samplesNext s = true) :
    shifterEdge s = { s with
      sck := levelNot s.sck, edge := s.edge + 1, shrx := shiftIn s.shrx (nextMiso s), miso := feedTail s.miso } := by
  simp [shifterEdge, mosiAfterEdge, h]

/-- A transition that does not sample may move MOSI, and leaves SHRX and MISO's bits alone. -/
theorem shifterEdge_of_shifts {s : State} (h : samplesNext s = false) :
    shifterEdge s = { s with sck := levelNot s.sck, edge := s.edge + 1, mosi := mosiAfterEdge s } := by
  simp [shifterEdge, h]

/-- With CPHA = 0 a shifting transition presents the next slot's bit, and after the last slot nothing (43_shifter.md R178). -/
theorem mosiAfterEdge_of_cpha_zero {s : State} (h : samplesNext s = false) (hphase : spicfgCpha s = false) :
    mosiAfterEdge s =
      if s.edge.toNat / 2 < 7 then levelOfBit (s.shtx.getLsbD (6 - s.edge.toNat / 2)) else s.mosi := by
  rw [mosiAfterEdge, if_neg (by simp [h]), if_neg (by simp [hphase])]
  rfl

/-- With CPHA = 1 a shifting transition presents its own slot's bit (43_shifter.md R179). -/
theorem mosiAfterEdge_of_cpha_one {s : State} (h : samplesNext s = false) (hphase : spicfgCpha s = true) :
    mosiAfterEdge s = levelOfBit (s.shtx.getLsbD (7 - s.edge.toNat / 2)) := by
  rw [mosiAfterEdge, if_neg (by simp [h]), if_pos hphase]
  rfl

/-! ### LOAD, EDGE and END -/

/-- Settles O33: the guard makes the SHIFTER step LOAD, and SHBUSY rises in no other. -/
theorem loadStartsFrame : Obligations.LoadStartsFrame := by
  unfold Obligations.LoadStartsFrame
  refine ⟨fun s hclk hspe hpend hidle => ?load, fun s t hstep hidle hstarts => ?only⟩
  case load =>
    have hload : loadEnabled s = true := (loadEnabled_iff s).2 ⟨hclk, hspe, hpend, hidle⟩
    rw [turnStep_shifter, shifterStep_load s hload]
    rfl
  case only =>
    cases hstep
    obtain ⟨hclk, hspe, hpend, -⟩ := (loadEnabled_iff s).1 (loadEnabled_of_shbusy_rises hidle hstarts)
    exact ⟨hclk, hspe, hpend⟩

/-- Settles O34: the clock phase and the parity of EDGE say which of the two kinds of transition is next. -/
theorem edgeShiftsOrSamples : Obligations.EdgeShiftsOrSamples := by
  unfold Obligations.EdgeShiftsOrSamples
  refine ⟨fun s t hstep hmoves => ?only, fun s hbusy hedge => ?edge⟩
  case only =>
    cases hstep
    exact (edgeEnabled_iff s).1 (edgeEnabled_of_sck_moves hmoves)
  case edge =>
    rw [turnStep_shifter, shifterStep_edge s hbusy hedge, ← shiftIn_eq_shiftLeft_or]
    refine congrArg Host.Outcome.next ?_
    split
    next hphase =>
      split
      next hlead => exact shifterEdge_of_samples ((samplesNext_iff s).2 (iff_of_true hlead hphase))
      next htrail =>
        have hshifts := (samplesNext_eq_false_iff s).2 (iff_of_false htrail (Bool.eq_false_iff.1 hphase))
        rw [shifterEdge_of_shifts hshifts, mosiAfterEdge_of_cpha_zero hshifts hphase]
    next hphase =>
      split
      next hlead =>
        have hcpha := Bool.eq_true_of_not_eq_false hphase
        have hshifts := (samplesNext_eq_false_iff s).2 (iff_of_true hlead hcpha)
        rw [shifterEdge_of_shifts hshifts, mosiAfterEdge_of_cpha_one hshifts hcpha]
      next htrail => exact shifterEdge_of_samples ((samplesNext_iff s).2 (iff_of_false htrail hphase))

/-- Settles O35: at EDGE = 16 the SHIFTER step is END, which reads neither RXNE nor TXPEND, and SHBUSY falls in no other. -/
theorem endDeliversReceivedByte : Obligations.EndDeliversReceivedByte := by
  unfold Obligations.EndDeliversReceivedByte
  refine ⟨fun s t hstep hbusy hends => ?only, fun s hbusy hedge => ⟨shifterEnd s, ?step, rfl, ?txe⟩⟩
  case only =>
    cases hstep
    exact ((endEnabled_iff s).1 (endEnabled_of_shbusy_falls hbusy hends)).2
  case step => rw [turnStep_shifter, shifterStep_end s hbusy hedge]
  case txe => simp [txe]

end Sys2Proof.Machine
end

section
/-! The TICK step (60_exceptions.md R203). -/

namespace Sys2Proof.Machine

/-! ### The TICK step by the generator's state -/

theorem tickStep_of_armed {s : State} (harmed : s.tgen = true) : tickStep s = takeTick s := by
  obtain ⟨-, htakes⟩ | ⟨hoff, -⟩ := tickStep_cases s
  · exact htakes
  · simp [hoff] at harmed

theorem tickStep_of_not_armed {s : State} (hoff : s.tgen = false) : tickStep s = s := by
  obtain ⟨harmed, -⟩ | ⟨-, hstays⟩ := tickStep_cases s
  · simp [harmed] at hoff
  · exact hstays

/-! ### The handler by the counter's value -/

/-- A nonzero counter goes down by one without wrapping. -/
theorem sub_one_eq_ofNat_toNat_sub_one {w : Word} (hw : w ≠ 0) : w - 1 = BitVec.ofNat 32 (w.toNat - 1) := by
  bv_omega

theorem takeTick_of_tickcnt_ne_zero {s : State} (hcount : s.tickcnt ≠ 0) :
    takeTick s = { s with tickcnt := BitVec.ofNat 32 (s.tickcnt.toNat - 1), hist := s.hist ++ [.tick] } := by
  rw [takeTick, if_neg hcount, sub_one_eq_ofNat_toNat_sub_one hcount]

theorem takeTick_of_tickcnt_eq_zero {s : State} (hzero : s.tickcnt = 0) :
    takeTick s = { s with hist := s.hist ++ [.tick] } := by
  rw [takeTick, if_pos hzero, ← hzero]

/-- Settles O40: an armed generator takes the tick, whose handler decrements a nonzero counter alone; otherwise the step
stutters. -/
theorem tickDecrementsIfNonzero : Obligations.TickDecrementsIfNonzero := by
  unfold Obligations.TickDecrementsIfNonzero
  intro s
  refine ⟨fun harmed hcount => ?decrements, fun harmed hzero => ?staysZero, fun hoff t hstep => ?notArmed⟩
  case decrements => rw [turnStep_tick, tickStep_of_armed harmed, takeTick_of_tickcnt_ne_zero hcount]
  case staysZero => rw [turnStep_tick, tickStep_of_armed harmed, takeTick_of_tickcnt_eq_zero hzero]
  case notArmed =>
    rw [turnStep_tick, tickStep_of_not_armed hoff] at hstep
    cases hstep
    exact ⟨rfl, rfl⟩

end Sys2Proof.Machine
end

section
/-! Reset, the configuration registers, the parameters and the trace (70_reset_and_hazards.md R220, R224, R243). -/

namespace Sys2Proof.Machine

/-! ### Reset and the INIT after it -/

/-- Settles O53: the reset step is State.reset beside the parameters and the environment's inputs, whatever came before. -/
theorem resetAbandonsEverything : Obligations.ResetAbandonsEverything := by
  unfold Obligations.ResetAbandonsEverything
  intro s params
  exact ⟨resetBlock params s, turnStep_rst params s, rfl⟩

/-- Without an enabled peripheral there is no transfer that ApplyInit could cut off (41_init_cs.md R147). -/
theorem initBlocked_of_disabled {s : State} (hspe : spicfgSpe s = false) : initBlocked s = false := by
  simp [initBlocked, hspe]

/-- From an idle sequencer, ApplyInit not being blocked, INIT's one SEQ step applies the configuration and completes it
(41_init_cs.md R136). -/
theorem exec_init_then_seq {s : State} (hidle : s.busy = false) (hfree : initBlocked s = false) :
    ∃ u, exec .init s = .next u ∧ u.cfg = s.cfg ∧ turnStep .seq u = .next (complete (applyInit u)) := by
  refine ⟨_, exec_idle .init s hidle, by simp [commandLatch], ?_⟩
  exact (seqStep_cons _ .applyInit [] rfl rfl).trans (microStep_eq .applyInit [] _ fun _ => hfree)

theorem inited_applyInit (s : State) : Inited (applyInit s) := ⟨rfl, rfl, rfl⟩

/-! ### The clock mode and the divider of an initialised state -/

section
variable {s : State}

theorem Inited.spicfgCpha_eq (h : Inited s) : spicfgCpha s = s.cfg.cpha := by
  obtain ⟨-, -, hspicfg⟩ := h
  simp [spicfgCpha, hspicfg, spicfgInit]

theorem Inited.spicfgCpol_eq (h : Inited s) : spicfgCpol s = s.cfg.cpol := by
  obtain ⟨-, -, hspicfg⟩ := h
  simp [spicfgCpol, hspicfg, spicfgInit]

theorem Inited.spicfgBr_eq (h : Inited s) : spicfgBr s = s.cfg.br := by
  obtain ⟨-, -, hspicfg⟩ := h
  refine BitVec.eq_of_getLsbD_eq fun i hi => ?_
  interval_cases i <;> simp [spicfgBr, hspicfg, spicfgInit]

end

/-! ### What every step but a reset keeps -/

/-- From `s` to `t` the parameters stay, HIST grows at its end or stays, and the configuration registers stay or come to hold
INIT's values. -/
structure KeepsSetup (s t : State) : Prop where
  cfg : t.cfg = s.cfg
  hist : s.hist <+: t.hist
  registers : (t.spicfg = s.spicfg ∧ t.clken = s.clken ∧ t.pincfg = s.pincfg) ∨ Inited t

namespace KeepsSetup
variable {s t u : State}

theorem refl (s : State) : KeepsSetup s s := ⟨rfl, List.prefix_rfl, .inl ⟨rfl, rfl, rfl⟩⟩

/-- INIT's values depend on the parameters alone, so registers that stay keep them. -/
theorem inited (k : KeepsSetup s t) (h : Inited s) : Inited t := by
  obtain ⟨hspicfg, hclken, hpincfg⟩ | hinit := k.registers
  · obtain ⟨hclk, hpin, hspi⟩ := h
    exact ⟨hclken.trans hclk, hpincfg.trans hpin, by rw [hspicfg, hspi, k.cfg]⟩
  · exact hinit

theorem trans (h : KeepsSetup s t) (k : KeepsSetup t u) : KeepsSetup s u where
  cfg := k.cfg.trans h.cfg
  hist := h.hist.trans k.hist
  registers := by
    obtain ⟨hspicfg, hclken, hpincfg⟩ | hinit := h.registers
    · rw [← hspicfg, ← hclken, ← hpincfg]
      exact k.registers
    · exact .inr (k.inited hinit)

/-- From an initialised state the second way of `registers` is the first: INIT writes the values that are there. -/
theorem registers_of_inited (k : KeepsSetup s t) (h : Inited s) :
    t.spicfg = s.spicfg ∧ t.clken = s.clken ∧ t.pincfg = s.pincfg := by
  obtain ⟨hclk', hpin', hspi'⟩ := k.inited h
  obtain ⟨hclk, hpin, hspi⟩ := h
  exact ⟨by rw [hspi', hspi, k.cfg], hclk'.trans hclk.symm, hpin'.trans hpin.symm⟩

end KeepsSetup

/-! ### The operations and the agents' steps keep it -/

theorem continueWith_keepsSetup (rest : List MicroOp) (s : State) : KeepsSetup s (continueWith rest s) where
  cfg := continueWith_cfg rest s
  hist := continueWith_hist rest s ▸ List.prefix_append _ _
  registers := .inl ⟨continueWith_spicfg rest s, continueWith_clken rest s, continueWith_pincfg rest s⟩

/-- Of the micro-steps, ApplyInit alone writes the configuration registers, and it and DriveCS alone record an event. -/
theorem microEffect_keepsSetup (op : MicroOp) (s : State) : KeepsSetup s (microEffect op s) := by
  cases op with
  | applyInit => exact ⟨rfl, List.prefix_append _ _, .inr (inited_applyInit s)⟩
  | driveCS level => exact ⟨rfl, List.prefix_append _ _, .inl ⟨rfl, rfl, rfl⟩⟩
  | _ => exact ⟨rfl, List.prefix_rfl, .inl ⟨rfl, rfl, rfl⟩⟩

theorem exec_keepsSetup {i : Instr} {s t : State} (h : exec i s = .next t) : KeepsSetup s t := by
  obtain ⟨-, rfl⟩ := exec_cases h
  have hissue : KeepsSetup s (beginCommand (commandLatch i s)) := by
    rw [commandLatch_eq]
    exact ⟨rfl, List.prefix_rfl, .inl ⟨rfl, rfl, rfl⟩⟩
  exact hissue.trans (continueWith_keepsSetup _ _)

theorem hostStep_keepsSetup {s t : State} (h : hostStep s = .next t) : KeepsSetup s t := by
  obtain ⟨-, rfl⟩ | ⟨i, -, -, hexec⟩ := hostStep_cases h
  · exact .refl _
  · have hdrop : KeepsSetup s (dropPacket s) := ⟨rfl, List.prefix_rfl, .inl ⟨rfl, rfl, rfl⟩⟩
    exact hdrop.trans (exec_keepsSetup hexec)

theorem seqStep_keepsSetup {s t : State} (h : seqStep s = .next t) : KeepsSetup s t := by
  obtain ⟨-, rfl⟩ | ⟨-, -, rfl⟩ | ⟨op, rest, -, -, -, rfl⟩ := seqStep_cases h
  · exact .refl _
  · exact continueWith_keepsSetup [] s
  · exact (microEffect_keepsSetup op s).trans (continueWith_keepsSetup _ _)

theorem shifterStep_keepsSetup (s : State) : KeepsSetup s (shifterStep s) := by
  obtain ⟨-, h⟩ | ⟨-, h⟩ | ⟨-, h⟩ | ⟨-, -, -, h⟩ := shifterStep_cases s <;> rw [h]
  · exact ⟨rfl, List.prefix_append _ _, .inl ⟨rfl, rfl, rfl⟩⟩
  · exact ⟨rfl, List.prefix_rfl, .inl ⟨rfl, rfl, rfl⟩⟩
  · exact ⟨rfl, List.prefix_append _ _, .inl ⟨rfl, rfl, rfl⟩⟩
  · exact .refl s

theorem tickStep_keepsSetup (s : State) : KeepsSetup s (tickStep s) := by
  obtain ⟨-, h⟩ | ⟨-, h⟩ := tickStep_cases s <;> rw [h]
  · exact ⟨rfl, List.prefix_append _ _, .inl ⟨rfl, rfl, rfl⟩⟩
  · exact .refl s

theorem turnStep_keepsSetup {t : Turn} {s s' : State} (h : turnStep t s = .next s') (ht : t.isReset = false) :
    KeepsSetup s s' := by
  cases t with
  | host => exact hostStep_keepsSetup h
  | seq => exact seqStep_keepsSetup h
  | shifter => cases h; exact shifterStep_keepsSetup s
  | tick => cases h; exact tickStep_keepsSetup s
  | rst params => cases ht

/-! ### The statements -/

/-- Settles O59: a step without a reset keeps INITED with its registers, and INIT after a reset, which blocks no ApplyInit, writes
the clock mode and the divider of the reset's parameters. -/
theorem configurationFixedOnceInited : Obligations.ConfigurationFixedOnceInited := by
  unfold Obligations.ConfigurationFixedOnceInited
  refine ⟨fun t s s' hinit hstep ht => ?fixed, fun s p => ?road⟩
  case fixed =>
    have hkeeps := turnStep_keepsSetup hstep ht
    exact ⟨hkeeps.inited hinit, hkeeps.registers_of_inited hinit⟩
  case road =>
    have hfree : initBlocked (resetBlock (some p) s) = false := initBlocked_of_disabled (by simp [spicfgSpe, State.reset])
    obtain ⟨u, hexec, hcfg, hseq⟩ := exec_init_then_seq rfl hfree
    have hinit : Inited (complete (applyInit u)) := inited_applyInit u
    have hp : (complete (applyInit u)).cfg = p := hcfg
    refine ⟨_, u, _, turnStep_rst (some p) s, hexec, hseq, rfl, hinit, hp, ?cpol, ?cpha, ?br⟩
    case cpol => rw [hinit.spicfgCpol_eq, hp]
    case cpha => rw [hinit.spicfgCpha_eq, hp]
    case br => rw [hinit.spicfgBr_eq, hp]

/-- Settles O60: a reset takes the parameters it comes with, or keeps them; every other step keeps them and the events of HIST. -/
theorem parametersAndTraceArePreserved : Obligations.ParametersAndTraceArePreserved := by
  unfold Obligations.ParametersAndTraceArePreserved
  intro t s s' hstep
  cases t with
  | rst params =>
    cases hstep
    refine ⟨?_, nofun⟩
    cases params <;> rfl
  | _ =>
    have hkeeps := turnStep_keepsSetup hstep rfl
    exact ⟨hkeeps.cfg, fun _ => hkeeps.hist⟩

end Sys2Proof.Machine
end

section
/-! Packets that decode: the encoder and the decoder are inverse to each other (30_encoding.md R91 to R96). -/

namespace Sys2Proof

/-! ### The encoder's packets decode -/

/-- The length law of Laws/PerInstr.lean, of every command. -/
theorem encode_length {i : Instr} (h : i.WellFormed) : (encode i).length = packetLength (opcodeOf i) (encode i) := by
  cases i with
  | wra data => exact Laws.PacketLength.wra data h
  | wrrd data rxlen => exact Laws.PacketLength.wrrd data rxlen h
  | _ => rfl

/-- The operand of formats W is read back from its four little-endian bytes (20_memory.md R68). -/
theorem ofNat_memRead_leBytes (b : Byte) (n : Word) : BitVec.ofNat 32 (memRead (b :: leBytes 4 n.toNat) 1 4) = n := by
  have hread : memRead (b :: leBytes 4 n.toNat) 1 4 = n.toNat % 256 ^ 4 := by
    simpa using memRead_leBytes 4 n.toNat [b] []
  have hlt : n.toNat < 256 ^ 4 := n.isLt
  rw [hread, Nat.mod_eq_of_lt hlt, BitVec.ofNat_toNat, BitVec.setWidth_eq]

/-- Each format's operands stand where the decoder reads them (30_encoding.md R92, R96). -/
theorem decodeOperands_encode (i : Instr) : decodeOperands (opcodeOf i) (encode i) = i := by
  cases i with
  | dlyms n => exact congrArg Instr.dlyms (ofNat_memRead_leBytes _ n)
  | dlyus n => exact congrArg Instr.dlyus (ofNat_memRead_leBytes _ n)
  | _ => rfl

/-- Settles O1: byte 0 finds the command's row, the length is the one R93 gives, and the operands are read back. -/
theorem decodeOfEncodeReturnsCommand : Obligations.DecodeOfEncodeReturnsCommand := by
  unfold Obligations.DecodeOfEncodeReturnsCommand
  intro i hwf
  calc decode (encode i)
      = if (encode i).length = packetLength (opcodeOf i) (encode i) then .ok (decodeOperands (opcodeOf i) (encode i))
          else .error .badPacketLength := decode_cons_of_opcode (operandBytes i) (opcodeOfByte_opcodeByte (opcodeOf i))
    _ = .ok i := by rw [if_pos (encode_length hwf), decodeOperands_encode]

/-! ### A packet that decodes is encoded back -/

/-- What decodes has byte 0 of a row and the length of that row. -/
theorem decode_ok_cases {p : Packet} {i : Instr} (h : decode p = .ok i) :
    ∃ o rest, p = opcodeByte o :: rest ∧ rest.length + 1 = packetLength o p ∧ i = decodeOperands o p := by
  cases p with
  | nil => cases h
  | cons b rest =>
    cases ho : opcodeOfByte b with
    | none => rw [decode_cons_of_reserved rest ho] at h; cases h
    | some o =>
      rw [decode_cons_of_opcode rest ho] at h
      split at h
      next hlen => cases h; exact ⟨o, rest, by rw [opcodeByte_of_opcodeOfByte ho], hlen, rfl⟩
      next => cases h

@[simp] theorem opcodeOf_decodeOperands (o : Opcode) (p : Packet) : opcodeOf (decodeOperands o p) = o := by
  cases o <;> rfl

/-- The bytes of a number read little-endian from four bytes are these four bytes. -/
theorem leBytes_memRead_four (b0 b1 b2 b3 b4 : Byte) :
    leBytes 4 (BitVec.ofNat 32 (memRead [b0, b1, b2, b3, b4] 1 4)).toNat = [b1, b2, b3, b4] := by
  have h1 := b1.isLt; have h2 := b2.isLt; have h3 := b3.isLt; have h4 := b4.isLt
  simp only [leBytes, memRead, List.getD_cons_succ, List.getD_cons_zero, BitVec.toNat_ofNat, List.cons.injEq, and_true]
  refine ⟨?_, ?_, ?_, ?_⟩ <;> (apply BitVec.eq_of_toNat_eq; rw [BitVec.toNat_ofNat]; omega)

/-- The operand bytes of what the decoder reads are the packet's bytes behind byte 0, all of them. -/
theorem operandBytes_decodeOperands {o : Opcode} {rest : Packet}
    (hlen : rest.length + 1 = packetLength o (opcodeByte o :: rest)) :
    operandBytes (decodeOperands o (opcodeByte o :: rest)) = rest := by
  cases o
  case init | sel | desel | tkstart | dlys =>
    exact (List.length_eq_zero_iff.mp (Nat.succ.inj hlen)).symm
  case outlo | outhi | wrb =>
    obtain ⟨b, rfl⟩ := List.length_eq_one_iff.mp (Nat.succ.inj hlen)
    rfl
  case rd =>
    obtain ⟨b, c, rfl⟩ := List.length_eq_two.mp (Nat.succ.inj hlen)
    rfl
  case dlyms | dlyus =>
    match rest, hlen with
    | [b1, b2, b3, b4], _ => exact leBytes_memRead_four _ b1 b2 b3 b4
  case wra =>
    match rest with
    | [] => simp [packetLength, opcodeFormat, formatLength] at hlen
    | n :: data =>
      have hn : data.length = n.toNat := by simp [packetLength, opcodeFormat, formatLength] at hlen; omega
      simp [decodeOperands, operandBytes, hn]
  case wrrd =>
    match rest with
    | [] => simp [packetLength, opcodeFormat, formatLength] at hlen
    | [n] => simp [packetLength, opcodeFormat, formatLength] at hlen; omega
    | n :: rxlen :: data =>
      have hn : data.length = n.toNat := by simp [packetLength, opcodeFormat, formatLength] at hlen; omega
      simp [decodeOperands, operandBytes, hn]

/-- A count byte counts at most 255 (30_encoding.md R97). -/
theorem wellFormed_decodeOperands {o : Opcode} {p : Packet} (hlen : p.length = packetLength o p) :
    (decodeOperands o p).WellFormed := by
  have hcount : (p.getD 1 0).toNat < 256 := (p.getD 1 0).isLt
  cases o
  case wra =>
    simp only [packetLength, opcodeFormat, formatLength] at hlen
    simp only [decodeOperands, Instr.WellFormed, Instr.wellFormed, List.length_drop, decide_eq_true_eq, maxCount]
    omega
  case wrrd =>
    simp only [packetLength, opcodeFormat, formatLength] at hlen
    simp only [decodeOperands, Instr.WellFormed, Instr.wellFormed, List.length_drop, decide_eq_true_eq, maxCount]
    omega
  all_goals rfl

theorem wellFormed_of_decode {p : Packet} {i : Instr} (h : decode p = .ok i) : i.WellFormed := by
  obtain ⟨o, rest, rfl, hlen, rfl⟩ := decode_ok_cases h
  exact wellFormed_decodeOperands hlen

/-- Settles O2: the row of byte 0 is the command's, and its operand bytes are the packet's others. -/
theorem decodedPacketIsItsEncoding : Obligations.DecodedPacketIsItsEncoding := by
  unfold Obligations.DecodedPacketIsItsEncoding
  intro p i h
  refine ⟨wellFormed_of_decode h, ?_⟩
  obtain ⟨o, rest, rfl, hlen, rfl⟩ := decode_ok_cases h
  rw [encode, opcodeOf_decodeOperands, operandBytes_decodeOperands hlen]

/-- Settles O5: each of these packets is the encoder's own for its command, so O1 reads it back. -/
theorem specPacketsDecode : Obligations.SpecPacketsDecode := by
  unfold Obligations.SpecPacketsDecode
  exact ⟨decodeOfEncodeReturnsCommand .init rfl, decodeOfEncodeReturnsCommand (.outlo 0x01) rfl,
    decodeOfEncodeReturnsCommand (.rd 0xAD 6) rfl, decodeOfEncodeReturnsCommand (.wra [0x12, 0x34]) rfl,
    decodeOfEncodeReturnsCommand (.wrrd [0x00, 0x02] 8) rfl, decodeOfEncodeReturnsCommand (.dlyms 1000) rfl⟩

end Sys2Proof
end

section
/-! The step of the machine, HOST's issue, and the commands of one micro-step or none. -/

namespace Sys2Proof.Machine

/-! ### Steps -/

/-- The state after HOST's and the schedule's inputs have moved on. -/
theorem step_of_host {s : State} {i : Instr} (hturn : nextTurn s = .host) (hidle : s.busy = false)
    (hdecode : decode (nextPacket s) = .ok i) : step s = exec i (dropPacket (dropTurn s)) := by
  have hdecode' : decode (nextPacket (dropTurn s)) = .ok i := hdecode
  simp [step, hturn, hostStep, hidle, hdecode']

/-- Settles O6: HOST's step with SEQ idle is exec of what its packet decodes to. -/
theorem stepRunsDecodedCommand : Obligations.StepRunsDecodedCommand := by
  unfold Obligations.StepRunsDecodedCommand
  intro s i hturn hidle hdecode
  exact step_of_host hturn hidle hdecode

theorem decode_of_decodeTableWord {nbits w : ℕ} {i : Instr} (h : decodeTableWord nbits w = some i) :
    decode (tablePacket nbits w) = .ok i := by
  unfold decodeTableWord at h
  split at h
  next j hdecode => cases h; exact hdecode
  next => cases h

/-- Settles O7: the placed packet is HOST's next one, the schedule offers HOST the step, and taking both leaves the state as it
was but for SEQ made idle. -/
theorem placedWordRunsNext : Obligations.PlacedWordRunsNext := by
  unfold Obligations.PlacedWordRunsNext
  intro s nbits w i h
  exact step_of_host (s := s.withFetchWord nbits w) rfl rfl (decode_of_decodeTableWord h)

/-- Settles O8: both guards read SEQ.BUSY. -/
theorem hostWaitsDuringCommand : Obligations.HostWaitsDuringCommand := by
  unfold Obligations.HostWaitsDuringCommand
  intro s i hbusy
  exact ⟨by simp [hostStep, hbusy], exec_busy i s hbusy⟩

/-! ### The issue step -/

/-- The state in which HOST's issue leaves a command, its micro-steps aside. -/
def latched (i : Instr) (s : State) : State := beginCommand (commandLatch i s)

theorem latched_eq (i : Instr) (s : State) :
    latched i s = { s with
      op := opcodeByte (opcodeOf i), a0 := (commandLatch i s).a0, a1 := (commandLatch i s).a1
      txbuf := (commandLatch i s).txbuf, busy := true, rsp := [], respPort := none } := by
  rw [latched, commandLatch_eq]
  rfl

theorem exec_eq_latched {i : Instr} {s : State} (hidle : s.busy = false) :
    exec i s = .next (continueWith (commandProgram s.cfg i) (latched i s)) := exec_idle i s hidle

theorem exec_eq_latched_cases {i : Instr} {s t : State} (h : exec i s = .next t) :
    s.busy = false ∧ t = continueWith (commandProgram s.cfg i) (latched i s) := exec_cases h

/-- With an empty SEQ.RSP every command's response is empty. -/
theorem response_of_rsp_nil {s : State} (h : s.rsp = []) : response s = [] := by
  simp [response, h]

theorem complete_of_rsp_nil {s : State} (h : s.rsp = []) :
    complete s = { s with busy := false, cont := [], respPort := some [], hist := s.hist ++ [.done s.op []] } := by
  simp [complete, response_of_rsp_nil h]

/-- A command without micro-steps is complete after its issue. -/
theorem exec_of_program_nil {i : Instr} {s : State} (hidle : s.busy = false) (hprogram : commandProgram s.cfg i = []) :
    exec i s = .next { latched i s with
      busy := false, cont := [], respPort := some [], hist := s.hist ++ [.done (opcodeByte (opcodeOf i)) []] } := by
  rw [exec_eq_latched hidle, hprogram, continueWith, latched_eq, complete_of_rsp_nil rfl]

/-- A command whose first micro-step leaves nothing pending is complete after its issue and one SEQ step. -/
theorem exec_then_seq_completes {i : Instr} {op : MicroOp} {rest : List MicroOp} {s : State} (hidle : s.busy = false)
    (hprogram : commandProgram s.cfg i = op :: rest) (hop : op = .applyInit → initBlocked s = false)
    (hlast : microRest op rest (latched i s) = []) :
    ∃ t, exec i s = .next t ∧ turnStep .seq t = .next (complete (microEffect op (latched i s))) := by
  refine ⟨{ latched i s with cont := op :: rest }, by rw [exec_eq_latched hidle, hprogram, continueWith_cons], ?_⟩
  have hstep := microStep_eq op rest { latched i s with cont := op :: rest } fun h => by
    rw [latched_eq]; exact hop h
  have hrest : microRest op rest { latched i s with cont := op :: rest } = [] := by rw [← hlast]; cases op <;> rfl
  rw [turnStep_seq, seqStep_cons _ op rest rfl rfl, hstep, hrest]
  cases op <;> rfl

/-- Settles O9: the latch writes the operand latches, and the continuation is the command's program or, if that is empty, the
completion. -/
theorem issueLatchesAndLoads : Obligations.IssueLatchesAndLoads := by
  unfold Obligations.IssueLatchesAndLoads
  intro i s hidle
  refine ⟨_, exec_eq_latched hidle, ?op, ?rsp, ?operands, ?pending, ?frame⟩
  case op => rw [continueWith_op, latched_eq]
  case rsp => rw [continueWith_rsp, latched_eq]
  case operands => cases i <;> simp [latched, commandLatch, bufLoad]
  case pending =>
    rw [latched_eq]
    cases commandProgram s.cfg i with
    | nil => right; rw [continueWith, complete_of_rsp_nil rfl]; exact ⟨rfl, rfl, rfl, rfl⟩
    | cons op ops => left; exact ⟨rfl, List.cons_ne_nil op ops, rfl, rfl⟩
  case frame => rw [latched_eq]; cases commandProgram s.cfg i <;> rfl

/-! ### Chip-select and initialisation -/

theorem driveCS_false_eq (s : State) :
    driveCS false s = { s with csout := false, hist := s.hist ++ (if s.csout then [.csl] else []) } := by
  cases h : s.csout <;> simp [driveCS, h]

theorem driveCS_true_eq (s : State) :
    driveCS true s = { s with csout := true, hist := s.hist ++ (if s.csout then [] else [.csh]) } := by
  cases h : s.csout <;> simp [driveCS, h]

/-- A command of one DriveCS drives the line and completes. -/
theorem exec_then_seq_of_drive {i : Instr} {level : Bool} {s : State} (hidle : s.busy = false)
    (hprogram : commandProgram s.cfg i = [.driveCS level]) :
    ∃ t, exec i s = .next t ∧ turnStep .seq t = .next { latched i s with
      busy := false, cont := [], respPort := some [], csout := level
      hist := (driveCS level s).hist ++ [.done (opcodeByte (opcodeOf i)) []] } := by
  obtain ⟨t, hexec, hstep⟩ := exec_then_seq_completes hidle hprogram nofun rfl
  refine ⟨t, hexec, hstep.trans ?_⟩
  rw [latched_eq, complete_of_rsp_nil rfl]
  rfl

/-- Settles O10: SEL's program is one DriveCS(0). -/
theorem selDrivesChipSelectLow : Obligations.SelDrivesChipSelectLow := by
  unfold Obligations.SelDrivesChipSelectLow
  refine ⟨decodeOfEncodeReturnsCommand .sel rfl, fun s hidle => ?_⟩
  obtain ⟨t, hexec, hstep⟩ := exec_then_seq_of_drive hidle (i := .sel) rfl
  refine ⟨t, hexec, hstep.trans ?_⟩
  rw [driveCS_false_eq]
  simp [latched, commandLatch, latchZ, beginCommand, opcodeByte, opcodeOf, hidle]

/-- Settles O11: DESEL's program is one DriveCS(1). -/
theorem deselDrivesChipSelectHigh : Obligations.DeselDrivesChipSelectHigh := by
  unfold Obligations.DeselDrivesChipSelectHigh
  refine ⟨decodeOfEncodeReturnsCommand .desel rfl, fun s hidle => ?_⟩
  obtain ⟨t, hexec, hstep⟩ := exec_then_seq_of_drive hidle (i := .desel) rfl
  refine ⟨t, hexec, hstep.trans ?_⟩
  rw [driveCS_true_eq]
  simp [latched, commandLatch, latchZ, beginCommand, opcodeByte, opcodeOf, hidle]

/-- Settles O12: OUTLO's program is one DriveCS(0) for PIN_CS and empty for any other pin. -/
theorem outloDrivesOnlyItsPin : Obligations.OutloDrivesOnlyItsPin := by
  unfold Obligations.OutloDrivesOnlyItsPin
  intro s pin hidle
  refine ⟨decodeOfEncodeReturnsCommand (.outlo pin) rfl, ?drives, fun hpin => ?noEffect⟩
  case drives =>
    rintro rfl
    obtain ⟨t, hexec, hstep⟩ := exec_then_seq_of_drive hidle (i := .outlo 0x01) rfl
    refine ⟨t, hexec, hstep.trans ?_⟩
    rw [driveCS_false_eq]
    simp [latched, commandLatch, latchB, beginCommand, opcodeByte, opcodeOf, hidle]
  case noEffect =>
    rw [exec_of_program_nil hidle (i := .outlo pin) (if_neg hpin)]
    simp [latched, commandLatch, latchB, beginCommand, opcodeByte, opcodeOf, hidle]

/-- Settles O13: OUTHI's program is one DriveCS(1) for PIN_CS and empty for any other pin. -/
theorem outhiDrivesOnlyItsPin : Obligations.OuthiDrivesOnlyItsPin := by
  unfold Obligations.OuthiDrivesOnlyItsPin
  intro s pin hidle
  refine ⟨decodeOfEncodeReturnsCommand (.outhi pin) rfl, ?drives, fun hpin => ?noEffect⟩
  case drives =>
    rintro rfl
    obtain ⟨t, hexec, hstep⟩ := exec_then_seq_of_drive hidle (i := .outhi 0x01) rfl
    refine ⟨t, hexec, hstep.trans ?_⟩
    rw [driveCS_true_eq]
    simp [latched, commandLatch, latchB, beginCommand, opcodeByte, opcodeOf, hidle]
  case noEffect =>
    rw [exec_of_program_nil hidle (i := .outhi pin) (if_neg hpin)]
    simp [latched, commandLatch, latchB, beginCommand, opcodeByte, opcodeOf, hidle]

theorem initBlocked_iff (s : State) : initBlocked s = true ↔ spicfgSpe s = true ∧ (s.txpend = true ∨ s.shbusy = true) := by
  simp [initBlocked, txe, or_iff_not_imp_left]

/-- Past its guard INIT writes the configuration, drives the line to Idle and SCK to its idle level, and completes. -/
theorem exec_init_then_seq_of_free {s : State} (hidle : s.busy = false) (hfree : initBlocked s = false) :
    ∃ t, exec .init s = .next t ∧ turnStep .seq t = .next { s with
      op := 0x01, rsp := [], cont := [], respPort := some []
      clken := 0b11, pincfg := pincfgInit, spicfg := spicfgInit s.cfg, csout := true, sck := levelOfBit s.cfg.cpol
      hist := s.hist ++ (if s.csout then [] else [.csh]) ++ [.done 0x01 []] } := by
  obtain ⟨t, hexec, hstep⟩ := exec_then_seq_completes hidle (i := .init) rfl (fun _ => hfree) rfl
  refine ⟨t, hexec, hstep.trans ?_⟩
  simp only [microEffect, applyInit]
  rw [latched_eq, driveCS_true_eq, complete_of_rsp_nil rfl]
  simp [commandLatch, latchZ, opcodeByte, opcodeOf, hidle]

/-- Settles O14: INIT's program is one ApplyInit, which its guard refuses or which writes the configuration. -/
theorem initConfiguresPeripheral : Obligations.InitConfiguresPeripheral := by
  unfold Obligations.InitConfiguresPeripheral
  refine ⟨decodeOfEncodeReturnsCommand .init rfl, fun s hidle => ?_⟩
  cases hblocked : initBlocked s with
  | true =>
    obtain ⟨hspe, htransfer⟩ := (initBlocked_iff s).1 hblocked
    refine ⟨_, exec_eq_latched hidle, fun _ => ?refused, fun hfree => ?_⟩
    case refused =>
      have hblocked' : initBlocked (continueWith (commandProgram s.cfg .init) (latched .init s)) = true := hblocked
      rw [turnStep_seq, seqStep_cons _ .applyInit [] rfl rfl, microStep, if_pos hblocked']
    · exfalso
      obtain hdisabled | ⟨hpend, hshift⟩ := hfree
      · exact Bool.eq_false_iff.1 hdisabled hspe
      · simp [hpend, hshift] at htransfer
  | false =>
    obtain ⟨t, hexec, hstep⟩ := exec_init_then_seq_of_free hidle hblocked
    exact ⟨t, hexec, fun hbusy => absurd ((initBlocked_iff s).2 hbusy) (by simp [hblocked]), fun _ => hstep⟩

/-- Settles O15: in a quiescent state EDGE is 0, so the clock line is already at the level INIT drives it to, and the configuration
registers hold INIT's values. -/
theorem secondInitMovesOnlyChipSelect : Obligations.SecondInitMovesOnlyChipSelect := by
  unfold Obligations.SecondInitMovesOnlyChipSelect
  intro s hidle hwire hinit hquiet
  obtain ⟨hpend, hshift⟩ := hquiet
  have hfree : initBlocked s = false := by simp [initBlocked, txe_of_txpend_shbusy hpend hshift]
  obtain ⟨t, hexec, hstep⟩ := exec_init_then_seq_of_free hidle hfree
  have hsck : s.sck = levelOfBit s.cfg.cpol := by
    rw [hwire.clock_line hinit, clockLevel, hinit.spicfgCpol_eq, hwire.edge_idle hshift]
    simp
  obtain ⟨hclk, hpin, hspi⟩ := hinit
  refine ⟨t, hexec, hstep.trans ?_⟩
  rw [← hclk, ← hpin, ← hspi, ← hsck]

/-! ### The tick generator -/

theorem tickArmable_iff (p : Params) : tickArmable p = true ↔ 1 ≤ tickPeriod p ∧ tickPeriod p ≤ p.tgPeriodMax := by
  simp [tickArmable]

theorem toNat_periodWord {n : ℕ} (h : n < 2 ^ 32) : (periodWord n).toNat = n := by
  rw [periodWord, if_pos h, BitVec.toNat_ofNat, Nat.mod_eq_of_lt h]

theorem tickStart_of_armable {s : State} (h : tickArmable s.cfg = true) :
    tickStart s = { s with tgperiod := periodWord (tickPeriod s.cfg), tgen := true } := by
  simp [tickStart, h]

theorem tickStart_of_not_armable {s : State} (h : tickArmable s.cfg = false) : tickStart s = s := by
  simp [tickStart, h]

/-- Settles O39: TKSTART's program is one TickStart, which arms the generator or, its period out of range, does nothing. -/
theorem tkstartArmsTickGenerator : Obligations.TkstartArmsTickGenerator := by
  unfold Obligations.TkstartArmsTickGenerator
  refine ⟨decodeOfEncodeReturnsCommand .tkstart rfl, fun s hidle => ?_⟩
  have hlast : microRest (.tickStart 0) [] (latched .tkstart s) = [] := by simp [microRest]
  obtain ⟨t, hexec, hstep⟩ := exec_then_seq_completes hidle (i := .tkstart) rfl nofun hlast
  refine ⟨t, hexec, fun harm => ⟨periodWord (tickPeriod s.cfg), toNat_periodWord, hstep.trans ?arms⟩,
    fun hrange => hstep.trans ?fails⟩
  case arms =>
    have harm' : tickArmable (latched .tkstart s).cfg = true := (tickArmable_iff s.cfg).2 harm
    rw [microEffect, tickStart_of_armable harm', latched_eq, complete_of_rsp_nil rfl]
    simp [commandLatch, latchZ, opcodeByte, opcodeOf, hidle]
  case fails =>
    have hfail : tickArmable (latched .tkstart s).cfg = false :=
      Bool.eq_false_iff.2 fun h => hrange ((tickArmable_iff s.cfg).1 h)
    rw [microEffect, tickStart_of_not_armable hfail, latched_eq, complete_of_rsp_nil rfl]
    simp [commandLatch, latchZ, opcodeByte, opcodeOf, hidle]

/-- Settles O46: a failing TickStart drops the two micro-steps behind it, so it is DLYMS's last. -/
theorem dlymsOfUnarmableGeneratorReturnsAtOnce : Obligations.DlymsOfUnarmableGeneratorReturnsAtOnce := by
  unfold Obligations.DlymsOfUnarmableGeneratorReturnsAtOnce
  intro s n hidle hfail
  have hfail' : tickArmable (latched (.dlyms n) s).cfg = false := hfail
  have hlast : microRest (.tickStart 2) [.setTick .operand, .readTick] (latched (.dlyms n) s) = [] := by
    simp [microRest, hfail']
  obtain ⟨t, hexec, hstep⟩ := exec_then_seq_completes hidle (i := .dlyms n) rfl nofun hlast
  refine ⟨t, hexec, hstep.trans ?_⟩
  rw [microEffect, tickStart_of_not_armable hfail', latched_eq, complete_of_rsp_nil rfl]
  simp [commandLatch, latchW, opcodeByte, opcodeOf, hidle]

/-! ### The transaction commands -/

/-- The issue's operands, as SEQ will read them. -/
theorem readByteSrc_value_of_exec_wrb {value : Byte} {s t : State} (h : exec (.wrb value) s = .next t) :
    readByteSrc .value t = value := by
  obtain ⟨-, rfl⟩ := exec_eq_latched_cases h
  simp [readByteSrc, latched, commandLatch]

theorem readByteSrc_value_of_exec_rd {command length : Byte} {s t : State} (h : exec (.rd command length) s = .next t) :
    readByteSrc .value t = command := by
  obtain ⟨-, rfl⟩ := exec_eq_latched_cases h
  simp [readByteSrc, latched, commandLatch]

theorem readByteSrc_txbuf_of_exec {i : Instr} {data : List Byte} {s t : State} (h : exec i s = .next t)
    (hi : i = .wra data ∨ ∃ rxlen, i = .wrrd data rxlen) {j : ℕ} (hj : j < data.length) :
    readByteSrc (.txbuf j) t = data[j] := by
  obtain ⟨-, rfl⟩ := exec_eq_latched_cases h
  have htxbuf : (latched i s).txbuf = bufLoad s.txbuf data := by
    obtain rfl | ⟨rxlen, rfl⟩ := hi <;> rfl
  rw [readByteSrc, continueWith_txbuf, htxbuf, bufRead_bufLoad _ _ _ hj]

/-- Settles O21: the model's procedures, written out, are the programs. -/
theorem transactionsIssueTheirMicroSteps : Obligations.TransactionsIssueTheirMicroSteps := by
  unfold Obligations.TransactionsIssueTheirMicroSteps
  intro i s hidle write exchange program hi
  have hprogram : commandProgram s.cfg i = program := by
    cases i
    case wrb | rd | wra | wrrd => rfl
    all_goals cases hi
  have hexec := exec_eq_latched (i := i) hidle
  refine ⟨_, hexec, ?pending, ?busy, ?value, ?command, ?data⟩
  case pending => rw [continueWith_cont, hprogram]
  case busy => rw [continueWith_busy, hprogram, latched_eq]; simp
  case value => rintro value rfl; exact readByteSrc_value_of_exec_wrb hexec
  case command => rintro command length rfl; exact readByteSrc_value_of_exec_rd hexec
  case data => intro data hdata j hj; exact readByteSrc_txbuf_of_exec hexec hdata hj

/-- Settles O30: with no byte either way the loops are empty. -/
theorem emptyTransfersCompleteAtIssue : Obligations.EmptyTransfersCompleteAtIssue := by
  unfold Obligations.EmptyTransfersCompleteAtIssue
  intro s hidle
  refine ⟨(exec_of_program_nil hidle (i := .wra []) rfl).trans ?_, (exec_of_program_nil hidle (i := .wrrd [] 0) rfl).trans ?_⟩
  · simp [latched, commandLatch, latchV, bufLoad, beginCommand, opcodeByte, opcodeOf, hidle]
  · simp [latched, commandLatch, latchX, bufLoad, beginCommand, opcodeByte, opcodeOf, hidle]

end Sys2Proof.Machine
end

section
/-! What the steps of SHIFTER, TICK and SEQ leave alone: the frames of the agents, the flag table and the counter. -/

namespace Sys2Proof.Machine

/-! ### SHIFTER and the rest of the machine -/

/-- A SHIFTER step writes the frame's registers, RXDR, RXNE, TXPEND, SCK, MOSI, the MISO input and HIST, and nothing else
(43_shifter.md R185). -/
theorem shifterStep_eq (s : State) : shifterStep s = { s with
    shtx := (shifterStep s).shtx, shrx := (shifterStep s).shrx, rxdr := (shifterStep s).rxdr, rxne := (shifterStep s).rxne
    txpend := (shifterStep s).txpend, shbusy := (shifterStep s).shbusy, edge := (shifterStep s).edge
    sck := (shifterStep s).sck, mosi := (shifterStep s).mosi, miso := (shifterStep s).miso, hist := (shifterStep s).hist } := by
  obtain ⟨-, h⟩ | ⟨-, h⟩ | ⟨-, h⟩ | ⟨-, -, -, h⟩ := shifterStep_cases s <;> rw [h] <;> rfl

/-- The state `s` with the chip-select line, the tick side, PINCFG and the sequencer of `x`. -/
def withRestOf (x s : State) : State :=
  { s with
    csout := x.csout, tickcnt := x.tickcnt, tgen := x.tgen, tgperiod := x.tgperiod, pincfg := x.pincfg, busy := x.busy
    op := x.op, a0 := x.a0, a1 := x.a1, txbuf := x.txbuf, rsp := x.rsp, cont := x.cont, respPort := x.respPort }

/-- SHIFTER reads none of these (43_shifter.md R185). -/
theorem shifterStep_withRestOf (x s : State) : shifterStep (withRestOf x s) = withRestOf x (shifterStep s) := by
  change (if loadEnabled s then withRestOf x (shifterLoad s)
    else if edgeEnabled s then withRestOf x (shifterEdge s)
    else if endEnabled s then withRestOf x (shifterEnd s)
    else withRestOf x s) = _
  simp only [shifterStep, apply_ite (withRestOf x)]

/-- Settles O37: the frame of the SHIFTER step, and the step from a state whose other registers are those of any other state. -/
theorem shifterIgnoresTheRest : Obligations.ShifterIgnoresTheRest := by
  unfold Obligations.ShifterIgnoresTheRest
  intro s x
  exact ⟨shifterStep s, rfl, shifterStep_eq s, congrArg Host.Outcome.next (shifterStep_withRestOf x s)⟩

/-! ### TICK and the rest of the machine -/

/-- A TICK step writes TICKCNT and HIST and nothing else (60_exceptions.md R203). -/
theorem tickStep_eq (s : State) :
    tickStep s = { s with tickcnt := (tickStep s).tickcnt, hist := (tickStep s).hist } := by
  obtain ⟨-, h⟩ | ⟨-, h⟩ := tickStep_cases s
  · rw [h]; rfl
  · rw [h]

/-! ### The sequencer in the steps of the other agents -/

/-- From `s` to `t` the sequencer and the parameters stay. -/
structure SeqSame (s t : State) : Prop where
  busy : t.busy = s.busy
  op : t.op = s.op
  a0 : t.a0 = s.a0
  a1 : t.a1 = s.a1
  txbuf : t.txbuf = s.txbuf
  rsp : t.rsp = s.rsp
  cont : t.cont = s.cont
  respPort : t.respPort = s.respPort
  cfg : t.cfg = s.cfg

theorem SeqSame.refl (s : State) : SeqSame s s := ⟨rfl, rfl, rfl, rfl, rfl, rfl, rfl, rfl, rfl⟩

theorem shifterStep_seqSame (s : State) : SeqSame s (shifterStep s) := by
  rw [shifterStep_eq]; exact ⟨rfl, rfl, rfl, rfl, rfl, rfl, rfl, rfl, rfl⟩

theorem tickStep_seqSame (s : State) : SeqSame s (tickStep s) := by
  rw [tickStep_eq]; exact ⟨rfl, rfl, rfl, rfl, rfl, rfl, rfl, rfl, rfl⟩

/-- During a command only SEQ's step moves the sequencer. -/
theorem turnStep_seqSame {t : Turn} {s s' : State} (h : turnStep t s = .next s') (ht : t ≠ .host ∧ t.isReset = false)
    (hseq : t ≠ .seq) : SeqSame s s' := by
  cases t with
  | host => exact absurd rfl ht.1
  | seq => exact absurd rfl hseq
  | shifter => cases h; exact shifterStep_seqSame s
  | tick => cases h; exact tickStep_seqSame s
  | rst params => cases ht.2

/-- What SHIFTER leaves of the tick side. -/
@[simp] theorem shifterStep_tickcnt (s : State) : (shifterStep s).tickcnt = s.tickcnt := by rw [shifterStep_eq]
@[simp] theorem shifterStep_tgen (s : State) : (shifterStep s).tgen = s.tgen := by rw [shifterStep_eq]

/-- What TICK leaves of the wire side. -/
@[simp] theorem tickStep_txpend (s : State) : (tickStep s).txpend = s.txpend := by rw [tickStep_eq]
@[simp] theorem tickStep_shbusy (s : State) : (tickStep s).shbusy = s.shbusy := by rw [tickStep_eq]
@[simp] theorem tickStep_rxne (s : State) : (tickStep s).rxne = s.rxne := by rw [tickStep_eq]
@[simp] theorem tickStep_rxdr (s : State) : (tickStep s).rxdr = s.rxdr := by rw [tickStep_eq]
@[simp] theorem tickStep_txdr (s : State) : (tickStep s).txdr = s.txdr := by rw [tickStep_eq]
@[simp] theorem tickStep_shtx (s : State) : (tickStep s).shtx = s.shtx := by rw [tickStep_eq]
@[simp] theorem tickStep_tgen (s : State) : (tickStep s).tgen = s.tgen := by rw [tickStep_eq]

/-! ### SEQ's micro-steps and the flags -/

theorem performed_of_ne_seq {t : Turn} (ht : t ≠ .seq) (s : State) : performed t s = [] := by simp [performed, ht]

theorem performed_of_idle {s : State} (hidle : s.busy = false) (t : Turn) : performed t s = [] := by
  simp [performed, hidle]

theorem performed_of_cont_nil {s : State} (hcont : s.cont = []) (t : Turn) : performed t s = [] := by
  simp [performed, hcont]

theorem microEffect_txpend (op : MicroOp) (s : State) : (microEffect op s).txpend = (isSend op || s.txpend) := by
  cases op <;> rfl

theorem microEffect_rxne (op : MicroOp) (s : State) : (microEffect op s).rxne = (!isReceive op && s.rxne) := by
  cases op <;> rfl

@[simp] theorem microEffect_shbusy (op : MicroOp) (s : State) : (microEffect op s).shbusy = s.shbusy := by cases op <;> rfl

/-- What a step does to the flags, SHIFTER's and a reset apart: only the micro-step performed counts (10_state.md R39). -/
theorem flags_of_turnStep {t : Turn} {s s' : State} (h : turnStep t s = .next s') (ht : t.isReset = false)
    (hshift : t ≠ .shifter) :
    s'.txpend = ((performed t s).any isSend || s.txpend) ∧ s'.rxne = (!(performed t s).any isReceive && s.rxne) ∧
      s'.shbusy = s.shbusy := by
  cases t with
  | host =>
    rw [performed_of_ne_seq (by decide) s]
    obtain ⟨-, rfl⟩ | ⟨i, -, -, hexec⟩ := hostStep_cases h
    · exact ⟨rfl, rfl, rfl⟩
    · obtain ⟨-, rfl⟩ := exec_eq_latched_cases hexec
      simp [latched_eq]
  | seq =>
    obtain ⟨hidle, rfl⟩ | ⟨-, hcont, rfl⟩ | ⟨op, rest, hbusy, hcont, -, rfl⟩ := seqStep_cases h
    · simp [performed_of_idle hidle]
    · simp [performed_of_cont_nil hcont]
    · simp [performed_seq_cons hbusy hcont, microEffect_txpend, microEffect_rxne]
  | shifter => exact absurd rfl hshift
  | tick => cases h; simp [performed_of_ne_seq (t := .tick) (by decide) s]
  | rst params => cases ht

/-- Settles O38: SendByte and ReceiveByte write a flag each, and of SHIFTER's three steps LOAD and END do. -/
theorem flagsChangeOnlyByTheTable : Obligations.FlagsChangeOnlyByTheTable := by
  unfold Obligations.FlagsChangeOnlyByTheTable
  intro t s s' hstep ht
  by_cases hshift : t = .shifter
  · subst hshift
    cases hstep
    rw [performed_of_ne_seq (by decide) s]
    obtain ⟨hload, h⟩ | ⟨hedge, h⟩ | ⟨hend, h⟩ | ⟨-, -, -, h⟩ := shifterStep_cases s
    · obtain ⟨-, -, hpend, hidle⟩ := (loadEnabled_iff s).1 hload
      simp [h, hpend, hidle]
    · obtain ⟨hbusy, -⟩ := (edgeEnabled_iff s).1 hedge
      simp [h, hbusy]
    · obtain ⟨hbusy, -⟩ := (endEnabled_iff s).1 hend
      simp [h, hbusy]
    · simp [h]
  · obtain ⟨hpend, hrxne, hbusy⟩ := flags_of_turnStep hstep ht hshift
    refine ⟨?pendRises, ?sends, ?rxneFalls, ?receives, ?others, fun h => absurd h hshift⟩
    case pendRises => rw [hpend, Bool.or_eq_true]; exact Or.symm
    case sends => intro hsend; rw [hsend] at hpend; exact ⟨hpend, txe_of_txpend hpend⟩
    case rxneFalls => rw [hrxne, Bool.and_eq_false_iff]; intro h; simpa using h.symm
    case receives => intro hreceive; simp [hrxne, hreceive]
    case others =>
      rintro (hne | ⟨hfalls, hwas⟩ | ⟨hrises, hwas⟩)
      · exact absurd hbusy hne
      · simp [hpend, hwas] at hfalls
      · simp [hrxne, hwas] at hrises

/-! ### The counter -/

/-- SetTick apart, no micro-step writes TICKCNT. -/
theorem microEffect_tickcnt {op : MicroOp} (hop : ∀ src, op ≠ .setTick src) (s : State) :
    (microEffect op s).tickcnt = s.tickcnt := by
  cases op with
  | setTick src => exact absurd rfl (hop src)
  | _ => rfl

/-- A tick takes one from a counter that is not 0 and never wraps (90_conflicts.md C7). -/
theorem toNat_tickcnt_takeTick (s : State) : (takeTick s).tickcnt.toNat = s.tickcnt.toNat - 1 := by
  by_cases hzero : s.tickcnt = 0
  · simp [takeTick_of_tickcnt_eq_zero hzero, hzero]
  · simp only [takeTick_of_tickcnt_ne_zero hzero, BitVec.toNat_ofNat]
    have := s.tickcnt.isLt
    omega

theorem toNat_tickcnt_tickStep_le (s : State) : (tickStep s).tickcnt.toNat ≤ s.tickcnt.toNat := by
  obtain ⟨-, h⟩ | ⟨-, h⟩ := tickStep_cases s
  · rw [h, toNat_tickcnt_takeTick]; omega
  · rw [h]

theorem tickcnt_of_hostStep {s t : State} (h : hostStep s = .next t) : t.tickcnt = s.tickcnt := by
  obtain ⟨-, rfl⟩ | ⟨i, -, -, hexec⟩ := hostStep_cases h
  · rfl
  · obtain ⟨-, rfl⟩ := exec_eq_latched_cases hexec
    simp [latched_eq]

/-- Settles O41: of all steps SetTick's alone writes TICKCNT anything but less or 0. -/
theorem counterRisesOnlyBySetTick : Obligations.CounterRisesOnlyBySetTick := by
  unfold Obligations.CounterRisesOnlyBySetTick
  intro t s s' hstep hrises
  cases t with
  | host => simp [tickcnt_of_hostStep hstep] at hrises
  | seq =>
    obtain ⟨-, rfl⟩ | ⟨-, -, rfl⟩ | ⟨op, rest, hbusy, hcont, -, rfl⟩ := seqStep_cases hstep
    · simp at hrises
    · simp at hrises
    · rw [continueWith_tickcnt] at hrises
      by_cases hset : ∃ src, op = .setTick src
      · obtain ⟨src, rfl⟩ := hset
        exact ⟨src, performed_seq_cons hbusy hcont, by rw [continueWith_tickcnt]; rfl⟩
      · rw [microEffect_tickcnt fun src h => hset ⟨src, h⟩] at hrises
        exact absurd hrises (lt_irrefl _)
  | shifter => cases hstep; simp at hrises
  | tick => cases hstep; exact absurd hrises (toNat_tickcnt_tickStep_le s).not_gt
  | rst params => cases hstep; simp [State.reset] at hrises

/-! ### After reset -/

/-- A run of offers none of which is enabled stays where it is. -/
theorem runTurns_of_stutter {ts : List Turn} {s : State} (h : ∀ t ∈ ts, turnStep t s = .next s) :
    runTurns ts s = .next s := by
  induction ts with
  | nil => rfl
  | cons t ts ih =>
    obtain ⟨ht, hrest⟩ := List.forall_mem_cons.mp h
    rw [runTurns_cons_next ht, ih hrest]

/-- With SEQ idle, nothing to send or in flight and the generator off, no agent but HOST and the reset input moves. -/
theorem turnStep_of_still {s : State} (hidle : s.busy = false) (hquiet : Quiescent s) (hoff : s.tgen = false) {t : Turn}
    (ht : t ≠ .host ∧ t.isReset = false) : turnStep t s = .next s := by
  cases t with
  | host => exact absurd rfl ht.1
  | seq => exact seqStep_idle s hidle
  | shifter => rw [turnStep_shifter, shifterStep_quiescent s hquiet.1 hquiet.2]
  | tick => rw [turnStep_tick, tickStep_of_not_armed hoff]
  | rst params => cases ht.2

/-- Settles O54: the reset values enable none of the three agents. -/
theorem nothingMovesAfterReset : Obligations.NothingMovesAfterReset := by
  unfold Obligations.NothingMovesAfterReset
  intro s t params ts hreset hts
  cases hreset
  exact runTurns_of_stutter fun a ha => turnStep_of_still rfl ⟨rfl, rfl⟩ rfl (hts a ha)

end Sys2Proof.Machine
end

section
/-! The invariants of the machine: kept by every step, and met at reset (70_reset_and_hazards.md R247). -/

namespace Sys2Proof.Machine

/-! ### The wire invariant -/

/-- From `s` to `t` everything the wire invariant speaks of stays. -/
structure WireSame (s t : State) : Prop where
  edge : t.edge = s.edge
  shbusy : t.shbusy = s.shbusy
  clken : t.clken = s.clken
  pincfg : t.pincfg = s.pincfg
  spicfg : t.spicfg = s.spicfg
  cfg : t.cfg = s.cfg
  sck : t.sck = s.sck

namespace WireSame
variable {s t u : State}

theorem refl (s : State) : WireSame s s := ⟨rfl, rfl, rfl, rfl, rfl, rfl, rfl⟩

theorem trans (h : WireSame s t) (k : WireSame t u) : WireSame s u :=
  ⟨k.edge.trans h.edge, k.shbusy.trans h.shbusy, k.clken.trans h.clken, k.pincfg.trans h.pincfg, k.spicfg.trans h.spicfg,
    k.cfg.trans h.cfg, k.sck.trans h.sck⟩

theorem inited_iff (h : WireSame s t) : Inited t ↔ Inited s := by
  simp only [Inited, h.clken, h.pincfg, h.spicfg, h.cfg]

theorem clockLevel_eq (h : WireSame s t) : clockLevel t = clockLevel s := by
  simp only [clockLevel, spicfgCpol, h.spicfg, h.edge]

end WireSame

theorem WireInv.of_same {s t : State} (h : WireInv s) (k : WireSame s t) : WireInv t where
  edge_le := by rw [k.edge]; exact h.edge_le
  edge_idle := by rw [k.edge, k.shbusy]; exact h.edge_idle
  config := by rw [k.inited_iff, k.clken, k.pincfg, k.spicfg]; exact h.config
  frame_enabled := by rw [k.inited_iff, k.shbusy]; exact h.frame_enabled
  clock_line := by rw [k.inited_iff, k.clockLevel_eq, k.sck]; exact h.clock_line

theorem dropTurn_wireSame (s : State) : WireSame s (dropTurn s) := ⟨rfl, rfl, rfl, rfl, rfl, rfl, rfl⟩

theorem continueWith_wireSame (rest : List MicroOp) (s : State) : WireSame s (continueWith rest s) :=
  ⟨by simp, by simp, by simp, by simp, by simp, by simp, by simp⟩

theorem hostStep_wireSame {s t : State} (h : hostStep s = .next t) : WireSame s t := by
  obtain ⟨-, rfl⟩ | ⟨i, -, -, hexec⟩ := hostStep_cases h
  · exact .refl _
  · obtain ⟨-, rfl⟩ := exec_eq_latched_cases hexec
    have hlatch : WireSame s (latched i (dropPacket s)) := by rw [latched_eq]; exact ⟨rfl, rfl, rfl, rfl, rfl, rfl, rfl⟩
    exact hlatch.trans (continueWith_wireSame _ _)

/-- ApplyInit apart, no micro-step writes the wire side. -/
theorem microEffect_wireSame {op : MicroOp} (hop : op ≠ .applyInit) (s : State) : WireSame s (microEffect op s) := by
  cases op with
  | applyInit => exact absurd rfl hop
  | _ => exact ⟨rfl, rfl, rfl, rfl, rfl, rfl, rfl⟩

theorem tickStep_wireSame (s : State) : WireSame s (tickStep s) := by
  rw [tickStep_eq]; exact ⟨rfl, rfl, rfl, rfl, rfl, rfl, rfl⟩

theorem spicfgSpe_of_inited {s : State} (h : Inited s) : spicfgSpe s = true := by
  rw [spicfgSpe, h.2.2, spe_spicfgInit]

theorem clkenSpi_of_inited {s : State} (h : Inited s) : clkenSpi s = true := by
  simp [clkenSpi, h.1]

/-- Where ApplyInit is not blocked no frame is in flight. -/
theorem WireInv.shbusy_of_free {s : State} (h : WireInv s) (hfree : initBlocked s = false) : s.shbusy = false := by
  cases hbusy : s.shbusy with
  | false => rfl
  | true =>
    have hblocked : initBlocked s = true := (initBlocked_iff s).2 ⟨spicfgSpe_of_inited (h.frame_enabled hbusy), .inr hbusy⟩
    simp [hfree] at hblocked

/-- An ApplyInit past its guard drives SCK to the idle level that EDGE = 0 asks for. -/
theorem WireInv.applyInit {s : State} (h : WireInv s) (hfree : initBlocked s = false) : WireInv (applyInit s) := by
  have hidle := h.shbusy_of_free hfree
  have hinit := inited_applyInit s
  have hedge : (Machine.applyInit s).edge = 0 := h.edge_idle hidle
  refine ⟨h.edge_le, fun _ => hedge, .inr hinit, fun _ => hinit, fun _ => ?_⟩
  rw [clockLevel, hinit.spicfgCpol_eq, hedge]
  simp

theorem WireInv.seqStep {s t : State} (h : WireInv s) (hstep : seqStep s = .next t) : WireInv t := by
  obtain ⟨-, rfl⟩ | ⟨-, -, rfl⟩ | ⟨op, rest, -, -, hfree, rfl⟩ := seqStep_cases hstep
  · exact h
  · exact h.of_same (continueWith_wireSame [] s)
  · by_cases hop : op = .applyInit
    · subst hop
      exact (h.applyInit (hfree rfl)).of_same (continueWith_wireSame _ _)
    · exact h.of_same ((microEffect_wireSame hop s).trans (continueWith_wireSame _ _))

theorem levelNot_levelOfBit (b : Bool) : levelNot (levelOfBit b) = levelOfBit (!b) := by cases b <;> rfl

theorem toNat_edge_add_one {s : State} (h : s.edge.toNat < 16) : (s.edge + 1).toNat = s.edge.toNat + 1 := by
  bv_omega

/-- LOAD needs an enabled peripheral and begins with SCK at rest; every EDGE turns SCK and the parity of EDGE over together; END
comes after the sixteenth. -/
theorem WireInv.shifterStep {s : State} (h : WireInv s) : WireInv (shifterStep s) := by
  obtain ⟨hload, hs⟩ | ⟨hedge, hs⟩ | ⟨hend, hs⟩ | ⟨-, -, -, hs⟩ := shifterStep_cases s <;> rw [hs]
  · obtain ⟨-, hspe, -, hidle⟩ := (loadEnabled_iff s).1 hload
    have hinit : Inited s := h.config.resolve_left fun ⟨_, _, hspi⟩ => by simp [spicfgSpe, hspi] at hspe
    have hzero := h.edge_idle hidle
    refine ⟨by simp, by simp, .inr hinit, fun _ => hinit, fun _ => ?_⟩
    have hclock := h.clock_line hinit
    rw [clockLevel, hzero] at hclock
    exact hclock
  · obtain ⟨hbusy, hlt⟩ := (edgeEnabled_iff s).1 hedge
    have hinit := h.frame_enabled hbusy
    have hnext := toNat_edge_add_one hlt
    refine ⟨by simp only [shifterEdge_edge, hnext]; exact hlt, by simp [hbusy], .inr hinit, fun _ => hinit, fun _ => ?_⟩
    have hparity : decide ((s.edge.toNat + 1) % 2 = 1) = !decide (s.edge.toNat % 2 = 1) := by
      obtain hpar | hpar := Nat.mod_two_eq_zero_or_one s.edge.toNat <;> simp [Nat.add_mod, hpar]
    rw [clockLevel, shifterEdge_sck, shifterEdge_edge, hnext, hparity, h.clock_line hinit, clockLevel, levelNot_levelOfBit]
    simp [spicfgCpol]
  · obtain ⟨hbusy, hlast⟩ := (endEnabled_iff s).1 hend
    have hinit := h.frame_enabled hbusy
    refine ⟨by simp, by simp, .inr hinit, fun _ => hinit, fun _ => ?_⟩
    have hclock := h.clock_line hinit
    rw [clockLevel, hlast] at hclock
    exact hclock
  · exact h

theorem wireInv_resetBlock (p : Option Params) (s : State) : WireInv (resetBlock p s) := by
  have hoff : ¬Inited (resetBlock p s) := by simp [Inited, State.reset]
  exact ⟨by simp [State.reset], fun _ => rfl, .inl ⟨rfl, rfl, rfl⟩, nofun, fun h => absurd h hoff⟩

/-- Every agent's step keeps the wire invariant. -/
theorem WireInv.turnStep {t : Turn} {s s' : State} (h : WireInv s) (hstep : turnStep t s = .next s') : WireInv s' := by
  cases t with
  | host => exact h.of_same (hostStep_wireSame hstep)
  | seq => exact h.seqStep hstep
  | shifter => cases hstep; exact h.shifterStep
  | tick => cases hstep; exact h.of_same (tickStep_wireSame s)
  | rst params => cases hstep; exact wireInv_resetBlock params s

/-- Settles O55: the machine's step is the step of the agent that the schedule names. -/
theorem wireInvariantKeptByEveryStep : Obligations.WireInvariantKeptByEveryStep := by
  unfold Obligations.WireInvariantKeptByEveryStep
  intro s s' h hstep
  exact (h.of_same (dropTurn_wireSame s)).turnStep hstep

/-! ### The micro-steps of the transaction commands -/

/-- SendByte, FlagCheck and ReceiveByte: the micro-steps of a transaction command (42_transactions.md section 2). -/
def isTransfer (op : MicroOp) : Bool := isSend op || isFlagCheck op || isReceive op

theorem all_isTransfer_exchangeByte (src : ByteSrc) (dst : Option ℕ) : (exchangeByte src dst).all isTransfer = true := rfl

theorem all_isTransfer_transmitLoop (n : ℕ) : (transmitLoop n).all isTransfer = true := by
  rw [transmitLoop, List.all_flatMap, List.all_eq_true]
  exact fun _ _ => rfl

theorem all_isTransfer_receiveLoop (n : ℕ) : (receiveLoop n).all isTransfer = true := by
  rw [receiveLoop, List.all_flatMap, List.all_eq_true]
  exact fun _ _ => rfl

theorem all_isTransfer_commandProgram (p : Params) {i : Instr} (hi : isTransaction i = true) :
    (commandProgram p i).all isTransfer = true := by
  cases i
  case wrb value => rfl
  case rd command length => simp [commandProgram, all_isTransfer_exchangeByte, all_isTransfer_receiveLoop]
  case wra data => exact all_isTransfer_transmitLoop data.length
  case wrrd data rxlen => simp [commandProgram, all_isTransfer_transmitLoop, all_isTransfer_receiveLoop]
  all_goals cases hi

/-! ### The sequencer invariant: what is pending -/

@[simp] theorem microOpOk_flagCheck_zero (p : Params) (f : Flag) : microOpOk p (.flagCheck f 0) = true := by
  simp [microOpOk]

theorem all_microOpOk_transmitLoop (p : Params) {n : ℕ} (hn : n ≤ maxCount) : (transmitLoop n).all (microOpOk p) = true := by
  simp only [transmitLoop, List.all_flatMap, List.all_eq_true, List.mem_range]
  intro i hi
  simpa [writeByteProc, pollFlag, microOpOk] using hi.trans_le hn

theorem all_microOpOk_receiveLoop (p : Params) {n : ℕ} (hn : n ≤ maxCount) : (receiveLoop n).all (microOpOk p) = true := by
  simp only [receiveLoop, List.all_flatMap, List.all_eq_true, List.mem_range]
  intro i hi
  simpa [exchangeByte, writeByteProc, readByteProc, pollFlag, microOpOk] using hi.trans_le hn

theorem toNat_le_maxCount (b : Byte) : b.toNat ≤ maxCount := Nat.le_of_lt_succ b.isLt

/-- A well-formed command's buffer indexes are in range and its polls have done no check yet. -/
theorem all_microOpOk_commandProgram (p : Params) {i : Instr} (hwf : i.WellFormed) :
    (commandProgram p i).all (microOpOk p) = true := by
  cases i with
  | outlo pin => simp only [commandProgram]; split <;> rfl
  | outhi pin => simp only [commandProgram]; split <;> rfl
  | dlyus n => simp only [commandProgram, spinLoop]; split <;> rfl
  | wrb value => simp [commandProgram, writeByteProc, pollFlag, microOpOk]
  | rd command length =>
    rw [commandProgram, List.all_append, all_microOpOk_receiveLoop p (toNat_le_maxCount length)]
    simp [exchangeByte, writeByteProc, readByteProc, pollFlag, microOpOk]
  | wra data => exact all_microOpOk_transmitLoop p (of_decide_eq_true hwf)
  | wrrd data rxlen =>
    rw [commandProgram, List.all_append, all_microOpOk_transmitLoop p (of_decide_eq_true hwf),
      all_microOpOk_receiveLoop p (toNat_le_maxCount rxlen), Bool.and_self]
  | dlys =>
    rw [commandProgram, List.all_flatten, List.all_replicate]
    simp [delayBody, microOpOk]
  | _ => rfl

theorem setsThenSpins_of_cons {op : MicroOp} {rest : List MicroOp} (h : setsThenSpins (op :: rest) = true) :
    setsThenSpins rest = true := by
  cases op with
  | setTick src =>
    obtain ⟨-, hrest⟩ : _ ∧ setsThenSpins rest = true := by simpa [setsThenSpins] using h
    exact hrest
  | _ => exact h

theorem setsThenSpins_drop {ops : List MicroOp} (h : setsThenSpins ops = true) (k : ℕ) : setsThenSpins (ops.drop k) = true := by
  induction k generalizing ops with
  | zero => exact h
  | succ k ih =>
    cases ops with
    | nil => rfl
    | cons op rest => exact ih (setsThenSpins_of_cons h)

/-- Transfer micro-steps set no counter. -/
theorem setsThenSpins_of_all_isTransfer {ops : List MicroOp} (h : ops.all isTransfer = true) : setsThenSpins ops = true := by
  induction ops with
  | nil => rfl
  | cons op rest ih =>
    rw [List.all_cons, Bool.and_eq_true] at h
    obtain ⟨hop, hrest⟩ := h
    cases op with
    | setTick src => cases hop
    | _ => exact ih hrest

theorem setsThenSpins_delayBodies (src : WordSrc) (m : ℕ) :
    setsThenSpins (List.replicate m (delayBody src)).flatten = true := by
  induction m with
  | zero => rfl
  | succ m ih => simpa [List.replicate_succ, delayBody, setsThenSpins] using ih

theorem setsThenSpins_commandProgram (p : Params) (i : Instr) : setsThenSpins (commandProgram p i) = true := by
  cases i with
  | wrb | rd | wra | wrrd => exact setsThenSpins_of_all_isTransfer (all_isTransfer_commandProgram p rfl)
  | dlys => exact setsThenSpins_delayBodies .one secMs
  | outlo pin => simp only [commandProgram]; split <;> rfl
  | outhi pin => simp only [commandProgram]; split <;> rfl
  | dlyus n => simp only [commandProgram, spinLoop]; split <;> rfl
  | _ => rfl

/-- A micro-step leaves pending what was pending behind it, less what a failing TickStart drops, or its own next round, which is
within the bounds. -/
theorem all_microOpOk_microRest {op : MicroOp} {rest : List MicroOp} {s : State}
    (h : (op :: rest).all (microOpOk s.cfg) = true) : (microRest op rest s).all (microOpOk s.cfg) = true := by
  rw [List.all_cons, Bool.and_eq_true] at h
  obtain ⟨hop, hrest⟩ := h
  cases op <;> simp only [microRest, afterFlagCheck]
  case flagCheck f count =>
    split
    · exact hrest
    · next hgoes =>
      have hbudget : count + 1 < s.cfg.retryBudget := by simp at hgoes; exact hgoes.2
      simpa [microOpOk, hbudget] using hrest
  case tickStart onFail =>
    split
    · exact hrest
    · exact List.all_eq_true.2 fun x hx => List.all_eq_true.1 hrest x (List.mem_of_mem_drop hx)
  case readTick => split <;> simpa [microOpOk] using hrest
  case spinIter left => split <;> simpa [microOpOk] using hrest
  all_goals exact hrest

theorem setsThenSpins_microRest {op : MicroOp} {rest : List MicroOp} {s : State} (h : setsThenSpins (op :: rest) = true) :
    setsThenSpins (microRest op rest s) = true := by
  have hrest := setsThenSpins_of_cons h
  cases op <;> simp only [microRest, afterFlagCheck]
  case tickStart onFail =>
    split
    · exact hrest
    · exact setsThenSpins_drop hrest onFail
  case flagCheck | readTick | spinIter => split <;> exact hrest
  all_goals exact hrest

/-! ### The sequencer invariant: every step -/

/-- An idle sequencer counts nothing (40_timing.md R123). -/
theorem SeqInv.tickcnt_of_idle {s : State} (h : SeqInv s) (hidle : s.busy = false) : s.tickcnt = 0 := by
  have hcont : s.cont = [] := by
    by_contra hne
    simp [h.busy_iff.2 hne] at hidle
  by_contra hcount
  have hspin := h.counter hcount
  simp [hcont] at hspin

/-- The steps of the other agents keep the sequencer; of the counter they may only make less. -/
theorem SeqInv.of_same {s t : State} (h : SeqInv s) (k : SeqSame s t) (hcount : t.tickcnt ≠ 0 → s.tickcnt ≠ 0) :
    SeqInv t where
  busy_iff := by rw [k.busy, k.cont]; exact h.busy_iff
  txbuf_length := by rw [k.txbuf]; exact h.txbuf_length
  rsp_length := by rw [k.rsp]; exact h.rsp_length
  ops_ok := by rw [k.cont, k.cfg]; exact h.ops_ok
  sets_spin := by rw [k.cont]; exact h.sets_spin
  counter := by rw [k.cont]; exact fun hne => h.counter (hcount hne)

theorem length_commandLatch_txbuf {i : Instr} {s : State} (hwf : i.WellFormed) (hbuf : s.txbuf.length = maxCount) :
    (commandLatch i s).txbuf.length = maxCount := by
  cases i with
  | wra data => exact (length_bufLoad s.txbuf data (hbuf ▸ of_decide_eq_true hwf)).trans hbuf
  | wrrd data rxlen => exact (length_bufLoad s.txbuf data (hbuf ▸ of_decide_eq_true hwf)).trans hbuf
  | _ => exact hbuf

/-- The issue of a well-formed command loads its program; HOST's packets decode to no other. -/
theorem SeqInv.exec {i : Instr} {s t : State} (h : SeqInv s) (hwf : i.WellFormed) (hexec : exec i s = .next t) : SeqInv t := by
  obtain ⟨hidle, rfl⟩ := exec_eq_latched_cases hexec
  have hcount := h.tickcnt_of_idle hidle
  rw [latched_eq]
  refine ⟨?_, ?_, ?_, ?_, ?_, ?_⟩
  · rw [continueWith_busy, continueWith_cont]; simp
  · rw [continueWith_txbuf]; exact length_commandLatch_txbuf hwf h.txbuf_length
  · rw [continueWith_rsp]; exact Nat.zero_le _
  · rw [continueWith_cont, continueWith_cfg]; exact all_microOpOk_commandProgram s.cfg hwf
  · rw [continueWith_cont]; exact setsThenSpins_commandProgram s.cfg i
  · rw [continueWith_tickcnt]; exact fun hne => absurd hcount hne

theorem SeqInv.hostStep {s t : State} (h : SeqInv s) (hstep : hostStep s = .next t) : SeqInv t := by
  obtain ⟨-, rfl⟩ | ⟨i, -, hdecode, hexec⟩ := hostStep_cases hstep
  · exact h
  · have hdrop : SeqInv (dropPacket s) := h.of_same ⟨rfl, rfl, rfl, rfl, rfl, rfl, rfl, rfl, rfl⟩ id
    exact hdrop.exec (wellFormed_of_decode hdecode) hexec

@[simp] theorem microEffect_txbuf (op : MicroOp) (s : State) : (microEffect op s).txbuf = s.txbuf := by cases op <;> rfl

/-- Only a ReceiveByte that stores writes SEQ.RSP, and within its index's bound. -/
theorem length_rsp_microEffect {op : MicroOp} {s : State} (hop : microOpOk s.cfg op = true) (hrsp : s.rsp.length ≤ maxCount) :
    (microEffect op s).rsp.length ≤ maxCount := by
  cases op with
  | receiveByte dst =>
    cases dst with
    | none => exact hrsp
    | some j =>
      simp only [microEffect, receiveByte_some_rsp, length_bufWrite]
      exact max_le hrsp (of_decide_eq_true hop)
  | _ => exact hrsp

/-- A micro-step that leaves the counter nonzero is SetTick, whose spin follows, or the spin itself. -/
theorem counter_of_microStep {op : MicroOp} {rest : List MicroOp} {s : State} (hsets : setsThenSpins (op :: rest) = true)
    (hcount : s.tickcnt ≠ 0 → op = .readTick) (hne : (microEffect op s).tickcnt ≠ 0) :
    (microRest op rest s).head? = some .readTick := by
  by_cases hset : ∃ src, op = .setTick src
  · obtain ⟨src, rfl⟩ := hset
    obtain ⟨hspin, -⟩ : rest.head? = some .readTick ∧ _ := by simpa [setsThenSpins] using hsets
    exact hspin
  · rw [microEffect_tickcnt fun src h => hset ⟨src, h⟩] at hne
    rw [hcount hne, microRest, readTick, if_neg hne, List.head?_cons]

theorem SeqInv.seqStep {s t : State} (h : SeqInv s) (hstep : seqStep s = .next t) : SeqInv t := by
  obtain ⟨-, rfl⟩ | ⟨hbusy, hcont, -⟩ | ⟨op, rest, hbusy, hcont, -, rfl⟩ := seqStep_cases hstep
  · exact h
  · exact absurd hcont (h.busy_iff.1 hbusy)
  · have hops := h.ops_ok
    have hsets := h.sets_spin
    have hcounter := h.counter
    rw [hcont] at hops hsets hcounter
    have hop : microOpOk s.cfg op = true := List.all_eq_true.1 hops op List.mem_cons_self
    refine ⟨?_, ?_, ?_, ?_, ?_, ?_⟩
    · rw [continueWith_busy, continueWith_cont, microEffect_busy, hbusy]; simp
    · rw [continueWith_txbuf, microEffect_txbuf]; exact h.txbuf_length
    · rw [continueWith_rsp]; exact length_rsp_microEffect hop h.rsp_length
    · rw [continueWith_cont, continueWith_cfg, microEffect_cfg]; exact all_microOpOk_microRest hops
    · rw [continueWith_cont]; exact setsThenSpins_microRest hsets
    · rw [continueWith_cont, continueWith_tickcnt]
      exact counter_of_microStep hsets fun hne => by simpa using hcounter hne

theorem seqInv_resetBlock (p : Option Params) (s : State) : SeqInv (resetBlock p s) :=
  ⟨by simp [State.reset], by simp [State.reset], Nat.zero_le _, rfl, rfl, fun h => absurd rfl h⟩

/-- Every agent's step keeps the sequencer invariant. -/
theorem SeqInv.turnStep {t : Turn} {s s' : State} (h : SeqInv s) (hstep : turnStep t s = .next s') : SeqInv s' := by
  cases t with
  | host => exact h.hostStep hstep
  | seq => exact h.seqStep hstep
  | shifter => cases hstep; exact h.of_same (shifterStep_seqSame s) (by simp)
  | tick =>
    cases hstep
    refine h.of_same (tickStep_seqSame s) fun hne hzero => hne ?_
    have hle := toNat_tickcnt_tickStep_le s
    rw [hzero] at hle
    exact BitVec.eq_of_toNat_eq (Nat.le_zero.1 hle)
  | rst params => cases hstep; exact seqInv_resetBlock params s

/-- Settles O56: the machine's step is the step of the agent that the schedule names. -/
theorem sequencerInvariantKeptByEveryStep : Obligations.SequencerInvariantKeptByEveryStep := by
  unfold Obligations.SequencerInvariantKeptByEveryStep
  intro s s' h hstep
  have hdrop : SeqInv (dropTurn s) := h.of_same ⟨rfl, rfl, rfl, rfl, rfl, rfl, rfl, rfl, rfl⟩ id
  exact hdrop.turnStep hstep

/-! ### The reachable states -/

/-- Settles O57: the state after a reset that keeps the parameters, from the reset state itself. -/
theorem resetMeetsMachineInvariant : Obligations.ResetMeetsMachineInvariant :=
  ⟨wireInv_resetBlock none State.reset, seqInv_resetBlock none State.reset⟩

/-- The invariant of the whole machine holds along every run. -/
theorem MachineInv.runTurns {ts : List Turn} {s u : State} (h : MachineInv s) (hrun : runTurns ts s = .next u) :
    MachineInv u :=
  runTurns_invariant MachineInv (fun _ _ _ _ hs hstep => ⟨hs.wire.turnStep hstep, hs.seq.turnStep hstep⟩) h hrun

/-- Settles O58: both invariants hold at reset and along every run; SPE = 1 singles out the initialised states. -/
theorem reachableStatesKeepClockAndCounter : Obligations.ReachableStatesKeepClockAndCounter := by
  unfold Obligations.ReachableStatesKeepClockAndCounter
  intro cfg packets miso ts u hrun
  have hstart : MachineInv { State.reset with cfg := cfg, packets := packets, miso := miso } :=
    ⟨wireInv_resetBlock (some cfg) { State.reset with packets := packets, miso := miso },
      seqInv_resetBlock (some cfg) { State.reset with packets := packets, miso := miso }⟩
  obtain ⟨hwire, hseq⟩ := hstart.runTurns hrun
  refine ⟨hseq.tickcnt_of_idle, hwire.edge_idle, fun hspe => ?_, fun hbusy => spicfgSpe_of_inited (hwire.frame_enabled hbusy)⟩
  have hinit : Inited u := hwire.config.resolve_left fun ⟨_, _, hspi⟩ => by simp [spicfgSpe, hspi] at hspe
  exact hwire.clock_line hinit

end Sys2Proof.Machine
end

section
/-! Ticks and the other agents' steps: which commute (20_memory.md R77), and which commands see them (60_exceptions.md R200). -/

namespace Sys2Proof.Machine

/-! ### Steps that neither read nor write the counter and the trace -/

/-- The micro-steps that set or read TICKCNT or arm the generator. -/
def isTimed : MicroOp → Bool
  | .setTick _ | .readTick | .tickStart _ => true
  | .applyInit | .driveCS _ | .sendByte _ | .flagCheck _ _ | .receiveByte _ | .spinIter _ => false

theorem isTimed_eq_false_iff (op : MicroOp) :
    isTimed op = false ↔ (∀ src, op ≠ .setTick src) ∧ op ≠ .readTick ∧ ∀ k, op ≠ .tickStart k := by
  cases op <;> simp [isTimed]

/-- The state `s` with another counter and another trace. -/
def withTicks (n : Word) (h : List Event) (s : State) : State := { s with tickcnt := n, hist := h }

/-- A step from `s` to `s'` that does not notice ticks: it adds the events `e`, no tick among them, leaves the tick side alone,
and is the same step from any counter and any trace. -/
structure Tickless (t : Turn) (s s' : State) (e : List Event) : Prop where
  hist : s'.hist = s.hist ++ e
  no_tick : Event.tick ∉ e
  tickcnt : s'.tickcnt = s.tickcnt
  tgen : s'.tgen = s.tgen
  anyTicks : ∀ n h, turnStep t (withTicks n h s) = .next (withTicks n (h ++ e) s')

theorem shifterStep_of_none_enabled {s : State} (hload : loadEnabled s = false) (hedge : edgeEnabled s = false)
    (hend : endEnabled s = false) : shifterStep s = s := by
  simp [shifterStep, hload, hedge, hend]

/-- No SHIFTER step notices ticks; a LOAD and an END add one event each. -/
theorem tickless_shifter (s : State) : ∃ e, Tickless .shifter s (shifterStep s) e := by
  obtain ⟨hload, hs⟩ | ⟨hedge, hs⟩ | ⟨hend, hs⟩ | ⟨hload, hedge, hend, hs⟩ := shifterStep_cases s
  · rw [hs]
    exact ⟨[.xstart s.txdr], by simp, by simp, rfl, rfl,
      fun n h => congrArg Host.Outcome.next (shifterStep_load (withTicks n h s) hload)⟩
  · obtain ⟨hbusy, hlt⟩ := (edgeEnabled_iff s).1 hedge
    rw [hs]
    refine ⟨[], by simp, by simp, rfl, rfl, fun n h => congrArg Host.Outcome.next ?_⟩
    rw [List.append_nil]
    exact shifterStep_edge _ hbusy hlt
  · obtain ⟨hbusy, hlast⟩ := (endEnabled_iff s).1 hend
    rw [hs]
    exact ⟨[.xend s.shrx], by simp, by simp, rfl, rfl,
      fun n h => congrArg Host.Outcome.next (shifterStep_end (withTicks n h s) hbusy hlast)⟩
  · rw [hs]
    refine ⟨[], by simp, by simp, rfl, rfl, fun n h => congrArg Host.Outcome.next ?_⟩
    rw [List.append_nil]
    exact shifterStep_of_none_enabled hload hedge hend

/-- The events of a micro-step. -/
def microEvents : MicroOp → State → List Event
  | .applyInit, s => if s.csout = true then [] else [.csh]
  | .driveCS level, s => if s.csout = level then [] else [if level then .csh else .csl]
  | _, _ => []

theorem tick_not_mem_microEvents (op : MicroOp) (s : State) : Event.tick ∉ microEvents op s := by
  cases op with
  | applyInit => simp only [microEvents]; split <;> simp
  | driveCS level => simp only [microEvents]; split <;> cases level <;> simp
  | _ => simp [microEvents]

theorem microEffect_hist (op : MicroOp) (s : State) : (microEffect op s).hist = s.hist ++ microEvents op s := by
  cases op with
  | applyInit => exact applyInit_hist s
  | driveCS level => exact driveCS_hist level s
  | _ => exact (List.append_nil s.hist).symm

theorem microEffect_withTicks {op : MicroOp} (hop : isTimed op = false) (n : Word) (h : List Event) (s : State) :
    microEffect op (withTicks n h s) = withTicks n (h ++ microEvents op s) (microEffect op s) := by
  cases op with
  | setTick src => cases hop
  | readTick => cases hop
  | tickStart k => cases hop
  | applyInit => rfl
  | driveCS level => rfl
  | _ => simp only [microEvents, List.append_nil]; rfl

theorem microRest_withTicks {op : MicroOp} (hop : isTimed op = false) (n : Word) (h : List Event) (rest : List MicroOp)
    (s : State) : microRest op rest (withTicks n h s) = microRest op rest s := by
  cases op with
  | readTick => cases hop
  | _ => rfl

/-- The event of a command's completion, where nothing is left to do. -/
def doneEvents (rest : List MicroOp) (s : State) : List Event := if rest = [] then [.done s.op (response s)] else []

theorem continueWith_withTicks (n : Word) (h : List Event) (rest : List MicroOp) (s : State) :
    continueWith rest (withTicks n h s) = withTicks n (h ++ doneEvents rest s) (continueWith rest s) := by
  cases rest with
  | nil => rfl
  | cons op rest => simp only [doneEvents, List.cons_ne_nil, if_false, List.append_nil]; rfl

theorem tick_not_mem_doneEvents (rest : List MicroOp) (s : State) : Event.tick ∉ doneEvents rest s := by
  unfold doneEvents; split <;> simp

/-- TickStart apart, no micro-step writes TGCTRL.EN. -/
theorem microEffect_tgen_eq {op : MicroOp} (hop : isTimed op = false) (s : State) : (microEffect op s).tgen = s.tgen := by
  cases op with
  | tickStart k => cases hop
  | _ => rfl

theorem ne_setTick_of_untimed {op : MicroOp} (hop : isTimed op = false) (src : WordSrc) : op ≠ .setTick src :=
  ((isTimed_eq_false_iff op).1 hop).1 src

/-- A SEQ step notices no tick unless its micro-step is a timed one. -/
theorem tickless_seq {s s' : State} (hops : ∀ op ∈ performed .seq s, isTimed op = false) (h : seqStep s = .next s') :
    ∃ e, Tickless .seq s s' e := by
  obtain ⟨hidle, rfl⟩ | ⟨hbusy, hcont, rfl⟩ | ⟨op, rest, hbusy, hcont, hfree, rfl⟩ := seqStep_cases h
  · refine ⟨[], by simp, by simp, rfl, rfl, fun n h => ?_⟩
    rw [List.append_nil]
    exact seqStep_idle _ hidle
  · exact ⟨[.done s.op (response s)], by simp, by simp, rfl, rfl, fun n h => seqStep_nil _ hbusy hcont⟩
  · have hop : isTimed op = false := hops op (by simp [performed_seq_cons hbusy hcont])
    refine ⟨microEvents op s ++ doneEvents (microRest op rest s) (microEffect op s), ?_, ?_, ?_, ?_, fun n h => ?_⟩
    · rw [continueWith_hist, microEffect_hist, List.append_assoc]; rfl
    · rw [List.mem_append, not_or]; exact ⟨tick_not_mem_microEvents op s, tick_not_mem_doneEvents _ _⟩
    · rw [continueWith_tickcnt, microEffect_tickcnt (ne_setTick_of_untimed hop)]
    · rw [continueWith_tgen, microEffect_tgen_eq hop]
    · rw [turnStep_seq, seqStep_cons (withTicks n h s) op rest hbusy hcont, microStep_eq op rest (withTicks n h s) hfree,
        microRest_withTicks hop, microEffect_withTicks hop, continueWith_withTicks, List.append_assoc]

theorem tickless_of_turnStep {t : Turn} {s s' : State} (ht : t = .shifter ∨ t = .seq)
    (hops : ∀ op ∈ performed t s, isTimed op = false) (h : turnStep t s = .next s') : ∃ e, Tickless t s s' e := by
  obtain rfl | rfl := ht
  · cases h; exact tickless_shifter s
  · exact tickless_seq hops h

/-! ### A tick before or after such a step -/

/-- The counter after a tick. -/
def tickDown (n : Word) : Word := if n = 0 then 0 else n - 1

theorem takeTick_eq_withTicks (s : State) : takeTick s = withTicks (tickDown s.tickcnt) (s.hist ++ [.tick]) s := rfl

/-- Settles O42: such a step takes the tick's counter along and adds its events behind or before the tick's. -/
theorem tickCommutesWithOtherSteps : Obligations.TickCommutesWithOtherSteps := by
  unfold Obligations.TickCommutesWithOtherSteps
  intro t s s1 s2 ht hops h1 h2
  obtain ⟨x, hx, hx1⟩ := runTurns_cons_cases h1
  cases hx1
  obtain ⟨_, hy, hy2⟩ := runTurns_cons_cases h2
  cases hy
  obtain ⟨y, hy, hnil⟩ := runTurns_cons_cases hy2
  cases hnil
  obtain ⟨e, hblind⟩ := tickless_of_turnStep ht (fun op hop => (isTimed_eq_false_iff op).2 (hops op hop)) hx
  cases harmed : s.tgen with
  | false =>
    rw [tickStep_of_not_armed harmed, hx] at hy
    cases hy
    rw [tickStep_of_not_armed (hblind.tgen.trans harmed)]
    exact ⟨rfl, rfl, rfl⟩
  | true =>
    rw [tickStep_of_armed harmed, takeTick_eq_withTicks, hblind.anyTicks] at hy
    cases hy
    rw [tickStep_of_armed (hblind.tgen.trans harmed), takeTick_eq_withTicks, hblind.tickcnt, hblind.hist]
    refine ⟨rfl, ?_, ?_⟩
    · simp [withTicks, List.filter_append]
    · simp [withTicks, List.count_append]

/-! ### Commands that see no tick -/

/-- What is pending after a micro-step has a property that everything before it had, if further rounds of a poll and of a loop
inherit it. -/
theorem all_microRest {P : MicroOp → Bool} (hpoll : ∀ f k, P (.flagCheck f k) = true → P (.flagCheck f (k + 1)) = true)
    (hloop : ∀ k, P (.spinIter k) = true → P (.spinIter (k - 1)) = true) {op : MicroOp} {rest : List MicroOp}
    (h : (op :: rest).all P = true) (s : State) : (microRest op rest s).all P = true := by
  rw [List.all_cons, Bool.and_eq_true] at h
  obtain ⟨hop, hrest⟩ := h
  have more {x : MicroOp} (hx : P x = true) : (x :: rest).all P = true := by rw [List.all_cons, hx, hrest, Bool.and_self]
  cases op <;> simp only [microRest, afterFlagCheck]
  case flagCheck f count =>
    split
    · exact hrest
    · exact more (hpoll f count hop)
  case tickStart onFail =>
    split
    · exact hrest
    · exact List.all_eq_true.2 fun x hx => List.all_eq_true.1 hrest x (List.mem_of_mem_drop hx)
  case readTick =>
    split
    · exact hrest
    · exact more hop
  case spinIter left =>
    split
    · exact hrest
    · exact more (hloop left hop)
  all_goals exact hrest

/-- Nothing pending is timed. -/
abbrev Untimed (ops : List MicroOp) : Prop := ops.all (fun op => !isTimed op) = true

theorem untimed_of_all_isTransfer {ops : List MicroOp} (h : ops.all isTransfer = true) : Untimed ops := by
  refine List.all_eq_true.2 fun op hop => ?_
  have htransfer := List.all_eq_true.1 h op hop
  cases op with
  | sendByte src => rfl
  | flagCheck f k => rfl
  | receiveByte dst => rfl
  | _ => cases htransfer

/-- TKSTART, DLYMS and DLYS apart, no command has a timed micro-step. -/
theorem untimed_commandProgram (p : Params) {i : Instr} (htk : i ≠ .tkstart) (hdlys : i ≠ .dlys)
    (hdlyms : ∀ n, i ≠ .dlyms n) :
    Untimed (commandProgram p i) := by
  cases i with
  | wrb | rd | wra | wrrd => exact untimed_of_all_isTransfer (all_isTransfer_commandProgram p rfl)
  | tkstart => exact absurd rfl htk
  | dlys => exact absurd rfl hdlys
  | dlyms n => exact absurd rfl (hdlyms n)
  | outlo pin => simp only [commandProgram]; split <;> rfl
  | outhi pin => simp only [commandProgram]; split <;> rfl
  | dlyus n => simp only [commandProgram, spinLoop]; split <;> rfl
  | _ => rfl

theorem untimed_of_performed {s : State} (h : Untimed s.cont) {t : Turn} {op : MicroOp} (hop : op ∈ performed t s) :
    isTimed op = false := by
  unfold performed at hop
  split at hop
  · have hmem := List.mem_of_mem_head? (Option.mem_toList.mp hop)
    simpa using List.all_eq_true.1 h op hmem
  · cases hop

/-- During such a command nothing timed becomes pending. -/
theorem untimed_of_turnStep {t : Turn} {s s' : State} (h : Untimed s.cont) (ht : t ≠ .host ∧ t.isReset = false)
    (hstep : turnStep t s = .next s') : Untimed s'.cont := by
  by_cases hseq : t = .seq
  · subst hseq
    obtain ⟨-, rfl⟩ | ⟨-, -, rfl⟩ | ⟨op, rest, -, hcont, -, rfl⟩ := seqStep_cases hstep
    · exact h
    · rfl
    · rw [continueWith_cont]
      exact all_microRest (fun _ _ _ => rfl) (fun _ _ => rfl) (hcont ▸ h) s
  · rw [(turnStep_seqSame hstep ht hseq).cont]; exact h

/-- The same state but for the counter and the ticks of the trace. -/
def SameButTicks (s z : State) : Prop :=
  ∃ n h, z = withTicks n h s ∧ h.filter (· ≠ Event.tick) = s.hist.filter (· ≠ Event.tick)

theorem SameButTicks.refl (s : State) : SameButTicks s s := ⟨s.tickcnt, s.hist, rfl, rfl⟩

/-- A tick that one side alone takes makes no difference. -/
theorem SameButTicks.tickStep {s z : State} (h : SameButTicks s z) : SameButTicks (tickStep s) z := by
  obtain ⟨n, hist, rfl, hfilter⟩ := h
  refine ⟨n, hist, by rw [tickStep_eq]; rfl, hfilter.trans ?_⟩
  obtain ⟨-, hs⟩ | ⟨-, hs⟩ := tickStep_cases s <;> simp [hs]

/-- Any other step of such a command is taken by both sides alike. -/
theorem SameButTicks.turnStep {t : Turn} {s z s' : State} (h : SameButTicks s z) (ht : t = .shifter ∨ t = .seq)
    (hcont : Untimed s.cont) (hstep : turnStep t s = .next s') : ∃ z', turnStep t z = .next z' ∧ SameButTicks s' z' := by
  obtain ⟨n, hist, rfl, hfilter⟩ := h
  obtain ⟨e, hblind⟩ := tickless_of_turnStep ht (fun _ hop => untimed_of_performed hcont hop) hstep
  exact ⟨_, hblind.anyTicks n hist, n, hist ++ e, rfl, by rw [List.filter_append, hfilter, hblind.hist, List.filter_append]⟩

theorem SameButTicks.performed_eq {s z : State} (h : SameButTicks s z) (t : Turn) : performed t z = performed t s := by
  obtain ⟨n, hist, rfl, -⟩ := h
  rfl

theorem runTurns_without_ticks {ts : List Turn} (hts : DuringCommand ts) {s z u : State} (h : SameButTicks s z)
    (hcont : Untimed s.cont) (hrun : runTurns ts s = .next u) :
    ∃ v, runTurns (ts.filter (· ≠ Turn.tick)) z = .next v ∧
      microTrace (ts.filter (· ≠ Turn.tick)) z = microTrace ts s ∧ SameButTicks u v := by
  induction ts generalizing s z with
  | nil => cases hrun; exact ⟨z, rfl, rfl, h⟩
  | cons t ts ih =>
    obtain ⟨ht, hrest⟩ := List.forall_mem_cons.mp hts
    obtain ⟨s', hstep, hrun⟩ := runTurns_cons_cases hrun
    have hcont' := untimed_of_turnStep hcont ht hstep
    rw [microTrace_cons_next hstep]
    by_cases htick : t = .tick
    · subst htick
      cases hstep
      obtain ⟨v, hv, htrace, hsame⟩ := ih hrest h.tickStep hcont' hrun
      refine ⟨v, ?_, ?_, hsame⟩
      · rwa [List.filter_cons_of_neg (by simp)]
      · rwa [List.filter_cons_of_neg (by simp), performed_of_ne_seq (by decide), List.nil_append]
    · have hagent : t = .shifter ∨ t = .seq := by
        cases t with
        | host => exact absurd rfl ht.1
        | rst params => cases ht.2
        | tick => exact absurd rfl htick
        | seq => exact .inr rfl
        | shifter => exact .inl rfl
      obtain ⟨z', hzstep, hz'⟩ := h.turnStep hagent hcont hstep
      obtain ⟨v, hv, htrace, hsame⟩ := ih hrest hz' hcont' hrun
      refine ⟨v, ?_, ?_, hsame⟩
      · rw [List.filter_cons_of_pos (by simpa using htick), runTurns_cons_next hzstep, hv]
      · rw [List.filter_cons_of_pos (by simpa using htick), microTrace_cons_next hzstep, htrace, h.performed_eq]

/-- Settles O43: nothing pending in such a command is timed, so each step is the same with and without the ticks. -/
theorem ticksAreInvisibleToOtherCommands : Obligations.TicksAreInvisibleToOtherCommands := by
  unfold Obligations.TicksAreInvisibleToOtherCommands
  intro i s t ts htk hdlys hdlyms hexec hts u hrun
  have hcont : Untimed t.cont := by
    obtain ⟨-, rfl⟩ := exec_eq_latched_cases hexec
    rw [continueWith_cont]
    exact untimed_commandProgram s.cfg htk hdlys hdlyms
  obtain ⟨v, hv, htrace, n, hist, rfl, hfilter⟩ := runTurns_without_ticks hts (.refl t) hcont hrun
  refine ⟨_, hv, htrace, ?_⟩
  simp only [withTicks]
  rw [hfilter]

end Sys2Proof.Machine
end

section
/-! A whole frame: LOAD, sixteen EDGEs and END, in every clock mode (43_shifter.md R182). -/

namespace Sys2Proof.Machine

/-! ### The bits of a byte -/

/-- Eight bits shifted in are the byte, whatever stood in the register before. -/
theorem foldl_shiftIn_byteBits (x r : Byte) : (byteBits r).foldl shiftIn x = r := by
  refine BitVec.eq_of_getLsbD_eq fun i hi => ?_
  have hbits : byteBits r = [r.getLsbD 7, r.getLsbD 6, r.getLsbD 5, r.getLsbD 4, r.getLsbD 3, r.getLsbD 2, r.getLsbD 1,
    r.getLsbD 0] := rfl
  rw [hbits]
  interval_cases i <;> simp [shiftIn]

@[simp] theorem length_byteBits (r : Byte) : (byteBits r).length = 8 := by simp [byteBits]

/-! ### MISO's input -/

theorem feedHead_drop {α : Type} (free : ℕ → α) {l : List α} {m : ℕ} (hm : m < l.length) (d : ℕ) :
    feedHead free ⟨l.drop m, d⟩ = l[m] := by
  rw [List.drop_eq_getElem_cons hm]; rfl

theorem feedTail_drop {α : Type} {l : List α} {m : ℕ} (hm : m < l.length) (d : ℕ) :
    feedTail ⟨l.drop m, d⟩ = ⟨l.drop (m + 1), d⟩ := by
  rw [List.drop_eq_getElem_cons hm]; rfl

/-! ### The state inside a frame -/

/-- The samples that `j` transitions take. -/
def samplesTaken (cpha : Bool) (j : ℕ) : ℕ := if cpha then j / 2 else (j + 1) / 2

/-- MOSI after `j` transitions of a frame that LOAD starts in `s`. -/
def mosiInFrame (s : State) (j : ℕ) : Level :=
  if spicfgCpha s then (if j = 0 then s.mosi else levelOfBit (s.txdr.getLsbD (7 - (j - 1) / 2)))
  else levelOfBit (s.txdr.getLsbD (7 - j / 2))

/-- The state after LOAD in `s` and `j` transitions. -/
def inFrame (s : State) (j : ℕ) : State :=
  { shifterLoad s with
    edge := BitVec.ofNat 5 j
    sck := if j % 2 = 0 then s.sck else levelNot s.sck
    mosi := mosiInFrame s j
    shrx := (s.miso.given.take (samplesTaken (spicfgCpha s) j)).foldl shiftIn s.shrx
    miso := ⟨s.miso.given.drop (samplesTaken (spicfgCpha s) j), s.miso.drawn⟩ }

theorem toNat_inFrame_edge (s : State) {j : ℕ} (hj : j ≤ 16) : (inFrame s j).edge.toNat = j := by
  simp only [inFrame, BitVec.toNat_ofNat]; omega

theorem inFrame_zero (s : State) : inFrame s 0 = shifterLoad s := by
  cases hphase : spicfgCpha s <;> simp [inFrame, samplesTaken, mosiInFrame, shifterLoad, hphase]

theorem levelNot_levelNot (l : Level) : levelNot (levelNot l) = l := by cases l <;> rfl

/-- Each transition turns SCK over. -/
theorem sck_inFrame_succ (s : State) (j : ℕ) : levelNot (inFrame s j).sck = (inFrame s (j + 1)).sck := by
  simp only [inFrame]
  obtain hpar | hpar := Nat.mod_two_eq_zero_or_one j <;> simp [Nat.add_mod, hpar, levelNot_levelNot]

theorem samplesNext_inFrame_iff (s : State) {j : ℕ} (hj : j ≤ 16) :
    samplesNext (inFrame s j) = true ↔ (j % 2 = 0 ↔ spicfgCpha s = false) := by
  rw [samplesNext_iff, toNat_inFrame_edge s hj]; rfl

/-- A sampling transition counts among the samples and leaves MOSI where it is. -/
theorem succ_of_samples {s : State} {j : ℕ} (h : j % 2 = 0 ↔ spicfgCpha s = false) :
    samplesTaken (spicfgCpha s) (j + 1) = samplesTaken (spicfgCpha s) j + 1 ∧ mosiInFrame s (j + 1) = mosiInFrame s j := by
  cases hphase : spicfgCpha s with
  | false =>
    have hj : j % 2 = 0 := h.2 hphase
    have hslot : (j + 1) / 2 = j / 2 := by omega
    simp only [samplesTaken, mosiInFrame, hphase, hslot]
    exact ⟨by simp only [Bool.false_eq_true, if_false]; omega, rfl⟩
  | true =>
    have hj : j % 2 = 1 := by simpa [hphase] using h
    have hpos : j ≠ 0 := by omega
    have hslot : (j - 1) / 2 = j / 2 := by omega
    simp only [samplesTaken, mosiInFrame, hphase, hpos, hslot]
    exact ⟨by simp only [if_true]; omega, by simp⟩

/-- Any other transition takes no sample and presents the bit of its slot, or after the last slot none. -/
theorem succ_of_shifts {s : State} {j : ℕ} (hj : j < 16) (h : j % 2 = 0 ↔ spicfgCpha s = true) :
    samplesTaken (spicfgCpha s) (j + 1) = samplesTaken (spicfgCpha s) j ∧
      mosiInFrame s (j + 1) = mosiAfterEdge (inFrame s j) := by
  have hshifts : samplesNext (inFrame s j) = false := by
    rw [samplesNext_eq_false_iff, toNat_inFrame_edge s hj.le]; exact h
  cases hphase : spicfgCpha s with
  | false =>
    have hodd : j % 2 = 1 := by simpa [hphase] using h
    rw [mosiAfterEdge_of_cpha_zero hshifts hphase, toNat_inFrame_edge s hj.le]
    refine ⟨by simp only [samplesTaken, Bool.false_eq_true, if_false]; omega, ?_⟩
    have hslot : 7 - (j + 1) / 2 = 6 - j / 2 := by omega
    split
    next => simp only [mosiInFrame, hphase, hslot]; rfl
    next hlast =>
      have hbit : 6 - j / 2 = 7 - j / 2 := by omega
      simp [inFrame, mosiInFrame, hphase, hslot, hbit]
  | true =>
    have heven : j % 2 = 0 := h.2 hphase
    rw [mosiAfterEdge_of_cpha_one hshifts hphase, toNat_inFrame_edge s hj.le]
    refine ⟨by simp only [samplesTaken, if_true]; omega, ?_⟩
    simp [mosiInFrame, hphase, inFrame]

theorem samplesTaken_lt {s : State} {j : ℕ} (hj : j < 16) (h : j % 2 = 0 ↔ spicfgCpha s = false) :
    samplesTaken (spicfgCpha s) j < 8 := by
  cases hphase : spicfgCpha s with
  | false => simp only [samplesTaken, Bool.false_eq_true, if_false]; have := h.2 hphase; omega
  | true => simp only [samplesTaken, if_true]; omega

theorem edge_inFrame_succ (s : State) (j : ℕ) : (inFrame s j).edge + 1 = (inFrame s (j + 1)).edge := by
  simp [inFrame, BitVec.ofNat_add]

/-- One transition of the frame. -/
theorem shifterEdge_inFrame {s : State} (hmiso : 8 ≤ s.miso.given.length) {j : ℕ} (hj : j < 16) :
    shifterEdge (inFrame s j) = inFrame s (j + 1) := by
  by_cases h : j % 2 = 0 ↔ spicfgCpha s = false
  · have hm : samplesTaken (spicfgCpha s) j < s.miso.given.length := (samplesTaken_lt hj h).trans_le hmiso
    obtain ⟨htaken, hmosi⟩ := succ_of_samples h
    have hhead : nextMiso (inFrame s j) = s.miso.given[samplesTaken (spicfgCpha s) j] := feedHead_drop _ hm _
    have htail : feedTail (inFrame s j).miso = ⟨s.miso.given.drop (samplesTaken (spicfgCpha s) j + 1), s.miso.drawn⟩ :=
      feedTail_drop hm _
    rw [shifterEdge_of_samples ((samplesNext_inFrame_iff s hj.le).2 h), hhead, htail, sck_inFrame_succ, edge_inFrame_succ]
    simp only [inFrame, htaken, hmosi, List.take_succ_eq_append_getElem hm, List.foldl_append, List.foldl_cons,
      List.foldl_nil]
  · have hshifts : j % 2 = 0 ↔ spicfgCpha s = true := by
      cases hphase : spicfgCpha s <;> simpa [hphase] using h
    obtain ⟨htaken, hmosi⟩ := succ_of_shifts hj hshifts
    have hnext : samplesNext (inFrame s j) = false := by
      rw [samplesNext_eq_false_iff, toNat_inFrame_edge s hj.le]; exact hshifts
    rw [shifterEdge_of_shifts hnext, sck_inFrame_succ, edge_inFrame_succ, ← hmosi]
    simp only [inFrame, htaken]

/-! ### The run of a frame -/

section
variable {s : State}

theorem shifterStep_inFrame (hmiso : 8 ≤ s.miso.given.length) {j : ℕ} (hj : j < 16) :
    shifterStep (inFrame s j) = inFrame s (j + 1) := by
  rw [shifterStep_edge _ rfl (by rw [toNat_inFrame_edge s hj.le]; exact hj), shifterEdge_inFrame hmiso hj]

/-- LOAD and `j` transitions, by SHIFTER steps alone. -/
theorem runTurns_inFrame (hload : loadEnabled s = true) (hmiso : 8 ≤ s.miso.given.length) {j : ℕ} (hj : j ≤ 16) :
    runTurns (List.replicate (1 + j) .shifter) s = .next (inFrame s j) := by
  induction j with
  | zero => rw [inFrame_zero, ← shifterStep_load s hload]; rfl
  | succ j ih =>
    have hstep : turnStep .shifter (inFrame s j) = .next (inFrame s (j + 1)) :=
      congrArg Host.Outcome.next (shifterStep_inFrame hmiso hj)
    rw [← Nat.add_assoc, List.replicate_succ', runTurns_append_next (ih (Nat.le_of_lt hj)), runTurns_cons_next hstep,
      runTurns_nil]

/-- The state after a whole frame from `s` in which RESPONDER answers `r` and has the bits `later` left. -/
def afterFrame (s : State) (r : Byte) (later : List Bool) : State :=
  { s with
    shtx := s.txdr, shrx := r, rxdr := r, rxne := true, txpend := false, edge := 0
    mosi := levelOfBit (s.txdr.getLsbD 0)
    miso := ⟨later, s.miso.drawn⟩
    hist := s.hist ++ [.xstart s.txdr, .xend r] }

theorem shifterStep_inFrame_last {r : Byte} {later : List Bool} (hidle : s.shbusy = false)
    (hmiso : s.miso.given = byteBits r ++ later) : shifterStep (inFrame s 16) = afterFrame s r later := by
  have htaken : samplesTaken (spicfgCpha s) 16 = (byteBits r).length := by cases spicfgCpha s <;> rfl
  have hmosi : mosiInFrame s 16 = levelOfBit (s.txdr.getLsbD 0) := by cases h : spicfgCpha s <;> simp [mosiInFrame, h]
  rw [shifterStep_end _ rfl (toNat_inFrame_edge s le_rfl)]
  simp only [inFrame, shifterEnd, afterFrame, hmosi, hmiso, htaken, List.take_left', List.drop_left', foldl_shiftIn_byteBits]
  simp [shifterLoad, hidle]

/-- The eighteen SHIFTER steps of a whole frame. -/
theorem runTurns_frame (hload : loadEnabled s = true) {r : Byte} {later : List Bool}
    (hmiso : s.miso.given = byteBits r ++ later) :
    runTurns (List.replicate 18 .shifter) s = .next (afterFrame s r later) := by
  obtain ⟨-, -, -, hidle⟩ := (loadEnabled_iff s).1 hload
  have hlen : 8 ≤ s.miso.given.length := by simp [hmiso]
  have hlast : turnStep .shifter (inFrame s 16) = .next (afterFrame s r later) :=
    congrArg Host.Outcome.next (shifterStep_inFrame_last hidle hmiso)
  rw [show (18 : ℕ) = 1 + 16 + 1 from rfl, List.replicate_succ', runTurns_append_next (runTurns_inFrame hload hlen le_rfl),
    runTurns_cons_next hlast, runTurns_nil]

end

/-- Settles O36: the state after LOAD and j transitions is known for every j, and END delivers the eight bits taken. -/
theorem wholeFrameExchangesOneByte : Obligations.WholeFrameExchangesOneByte := by
  unfold Obligations.WholeFrameExchangesOneByte
  intro s r later hclk hspe hpend hidle hmiso
  have hload : loadEnabled s = true := (loadEnabled_iff s).2 ⟨hclk, hspe, hpend, hidle⟩
  have hlen : 8 ≤ s.miso.given.length := by simp [hmiso]
  refine ⟨runTurns_frame hload hmiso, fun c hc => ⟨_, runTurns_inFrame hload hlen (by omega), ?mosi⟩,
    fun j hj => ⟨_, runTurns_inFrame hload hlen hj, rfl⟩⟩
  case mosi =>
    have hslot : (2 * c + 1) / 2 = c := by omega
    cases hphase : spicfgCpha s <;> simp [inFrame, mosiInFrame, hphase, hslot]

end Sys2Proof.Machine
end

section
/-! The delays: DLYMS, DLYS and DLYUS, with ticks and without (40_timing.md sections 5, 6 and 8). -/

namespace Sys2Proof.Machine

/-! ### A micro-step from a state given by what is pending -/

/-- SEQ's position is no operand of an effect. -/
theorem continueWith_microEffect_cont (ops rest : List MicroOp) (op : MicroOp) (s : State) :
    continueWith rest (microEffect op { s with cont := ops }) = continueWith rest (microEffect op s) := by
  cases op <;> cases rest <;> rfl

/-- One SEQ step, ApplyInit's apart, where `op` is the next micro-step. -/
theorem turnStep_seq_continueWith {s : State} (hbusy : s.busy = true) {op : MicroOp} (hop : op ≠ .applyInit)
    (rest : List MicroOp) :
    turnStep .seq (continueWith (op :: rest) s) = .next (continueWith (microRest op rest s) (microEffect op s)) := by
  have hrest : microRest op rest { s with cont := op :: rest } = microRest op rest s := by cases op <;> rfl
  rw [continueWith_cons, turnStep_seq_cons (s := { s with cont := op :: rest }) hbusy rfl hop, hrest,
    continueWith_microEffect_cont]

theorem microRest_tickStart_of_armable {s : State} (harm : tickArmable s.cfg = true) (k : ℕ) (rest : List MicroOp) :
    microRest (.tickStart k) rest s = rest := if_pos harm

theorem microRest_tickStart_of_not_armable {s : State} (hfail : tickArmable s.cfg = false) (k : ℕ) (rest : List MicroOp) :
    microRest (.tickStart k) rest s = rest.drop k := if_neg (by simp [hfail])

theorem microRest_readTick_of_zero {s : State} (hzero : s.tickcnt = 0) (rest : List MicroOp) :
    microRest .readTick rest s = rest := if_pos hzero

/-- A ReadTick that does not read 0 is performed again. -/
theorem microRest_readTick_of_ne_zero {s : State} (hne : s.tickcnt ≠ 0) (rest : List MicroOp) :
    microRest .readTick rest s = .readTick :: rest := if_neg hne

/-- Ticks of an armed generator, no more of them than the counter holds. -/
theorem runTurns_ticks {k : ℕ} {s : State} (harmed : s.tgen = true) (hk : k ≤ s.tickcnt.toNat) :
    runTurns (List.replicate k .tick) s =
      .next (withTicks (BitVec.ofNat 32 (s.tickcnt.toNat - k)) (s.hist ++ List.replicate k .tick) s) := by
  induction k generalizing s with
  | zero => simp [withTicks]
  | succ k ih =>
    have hstep : turnStep .tick s = .next (takeTick s) := by rw [turnStep_tick, tickStep_of_armed harmed]
    have hdown := toNat_tickcnt_takeTick s
    have hrest := ih (s := takeTick s) harmed (by omega)
    rw [List.replicate_succ, runTurns_cons_next hstep, hrest, hdown, Nat.sub_sub, Nat.add_comm 1 k, takeTick_hist,
      List.append_assoc]
    rfl

/-! ### A whole delay -/

/-- The state after a delay from `s` with the micro-steps behind it aside: the generator armed, the counter run down. -/
def afterDelay (ticks : ℕ) (s : State) : State :=
  { s with
    tgperiod := periodWord (tickPeriod s.cfg), tgen := true, tickcnt := 0, hist := s.hist ++ List.replicate ticks .tick }

theorem afterDelay_eq {s : State} (harm : tickArmable s.cfg = true) (ticks : ℕ) :
    afterDelay ticks s = withTicks 0 (s.hist ++ List.replicate ticks .tick) (tickStart s) := by
  rw [tickStart_of_armable harm]; rfl

/-- TickStart, SetTick, as many ticks as it set, and one ReadTick. -/
theorem runTurns_delayBody {s : State} {src : WordSrc} {rest : List MicroOp} (hbusy : s.busy = true)
    (harm : tickArmable s.cfg = true) :
    runTurns ([.seq, .seq] ++ List.replicate (readWordSrc src s).toNat .tick ++ [.seq])
        (continueWith (delayBody src ++ rest) s) =
      .next (continueWith rest (afterDelay (readWordSrc src s).toNat s)) := by
  have hsrc : readWordSrc src (tickStart s) = readWordSrc src s := by cases src <;> rfl
  have hstart : turnStep .seq (continueWith (delayBody src ++ rest) s) =
      .next (continueWith (.setTick src :: .readTick :: rest) (tickStart s)) := by
    refine (turnStep_seq_continueWith hbusy (op := .tickStart 2) nofun (.setTick src :: .readTick :: rest)).trans ?_
    rw [microRest_tickStart_of_armable harm, microEffect]
  have hset : turnStep .seq (continueWith (.setTick src :: .readTick :: rest) (tickStart s)) =
      .next (continueWith (.readTick :: rest) (setTick (readWordSrc src s) (tickStart s))) := by
    rw [← hsrc]
    exact turnStep_seq_continueWith (s := tickStart s) hbusy (op := .setTick src) nofun (.readTick :: rest)
  have hticks : runTurns (List.replicate (readWordSrc src s).toNat .tick)
        (continueWith (.readTick :: rest) (setTick (readWordSrc src s) (tickStart s))) =
      .next (continueWith (.readTick :: rest) (afterDelay (readWordSrc src s).toNat s)) := by
    have harmed : (continueWith (.readTick :: rest) (setTick (readWordSrc src s) (tickStart s))).tgen = true := by
      simp [harm]
    refine (runTurns_ticks harmed le_rfl).trans ?_
    rw [afterDelay_eq harm, continueWith_tickcnt, setTick_tickcnt, Nat.sub_self]
    rfl
  have hread : turnStep .seq (continueWith (.readTick :: rest) (afterDelay (readWordSrc src s).toNat s)) =
      .next (continueWith rest (afterDelay (readWordSrc src s).toNat s)) := by
    refine (turnStep_seq_continueWith (s := afterDelay _ s) hbusy (op := .readTick) nofun rest).trans ?_
    rw [microRest_readTick_of_zero rfl, microEffect]
  rw [List.append_assoc, List.cons_append, runTurns_cons_next hstart, List.cons_append, runTurns_cons_next hset,
    List.nil_append, runTurns_append_next hticks, runTurns_cons_next hread, runTurns_nil]

/-- Settles O44: DLYMS's program is one delay body, whose counter the n ticks run down. -/
theorem dlymsCompletesAfterItsTicks : Obligations.DlymsCompletesAfterItsTicks := by
  unfold Obligations.DlymsCompletesAfterItsTicks
  intro s n hidle harm
  refine ⟨_, periodWord (tickPeriod s.cfg), exec_eq_latched hidle, toNat_periodWord, ?_⟩
  refine (runTurns_delayBody (s := latched (.dlyms n) s) (src := .operand) (rest := []) rfl harm).trans ?_
  rw [continueWith, latched_eq, complete_of_rsp_nil rfl]
  simp [afterDelay, readWordSrc, commandLatch, latchW, opcodeByte, opcodeOf, hidle]

/-- Delay bodies, one after the other. -/
abbrev delayBodies (m : ℕ) : List MicroOp := (List.replicate m (delayBody .one)).flatten

theorem afterDelay_afterDelay (j k : ℕ) (s : State) : afterDelay j (afterDelay k s) = afterDelay (k + j) s := by
  simp [afterDelay]

/-- Each body of DLYS gets its tick. -/
theorem runTurns_delayBodies {m : ℕ} {s : State} (hbusy : s.busy = true) (harm : tickArmable s.cfg = true) :
    runTurns (List.replicate (m + 1) [Turn.seq, .seq, .tick, .seq]).flatten (continueWith (delayBodies (m + 1)) s) =
      .next (complete (afterDelay (m + 1) s)) := by
  induction m generalizing s with
  | zero => exact runTurns_delayBody (src := .one) (rest := []) hbusy harm
  | succ m ih =>
    have hbody : runTurns [.seq, .seq, .tick, .seq] (continueWith (delayBodies (m + 2)) s) =
        .next (continueWith (delayBodies (m + 1)) (afterDelay 1 s)) := runTurns_delayBody (src := .one) hbusy harm
    rw [List.replicate_succ, List.flatten_cons, runTurns_append_next hbody, ih (s := afterDelay 1 s) hbusy harm,
      afterDelay_afterDelay, Nat.add_comm 1]

/-- The end of DLYS after any number of ticks. -/
theorem complete_afterDelay_latched_dlys (k : ℕ) {s : State} (hidle : s.busy = false) :
    complete (afterDelay k (latched .dlys s)) = { s with
      op := 0x33, rsp := [], cont := [], respPort := some []
      tgperiod := periodWord (tickPeriod s.cfg), tgen := true, tickcnt := 0
      hist := s.hist ++ List.replicate k .tick ++ [.done 0x33 []] } := by
  rw [latched_eq, complete_of_rsp_nil rfl]
  simp [afterDelay, commandLatch, latchZ, opcodeByte, opcodeOf, hidle]

/-- Settles O48: DLYS's program is a thousand delay bodies of one tick each. -/
theorem dlysCompletesAfterThousandTicks : Obligations.DlysCompletesAfterThousandTicks := by
  unfold Obligations.DlysCompletesAfterThousandTicks
  intro s hidle harm
  refine ⟨_, periodWord (tickPeriod s.cfg), exec_eq_latched hidle, ?_⟩
  rw [← complete_afterDelay_latched_dlys 1000 hidle]
  exact runTurns_delayBodies (m := 999) (s := latched .dlys s) rfl harm

/-! ### A generator that cannot be armed -/

/-- A failing TickStart drops its body, so each body takes one SEQ step. -/
theorem runTurns_delayBodies_of_not_armable {m : ℕ} {s : State} (hbusy : s.busy = true) (hfail : tickArmable s.cfg = false) :
    runTurns (List.replicate (m + 1) .seq) (continueWith (delayBodies (m + 1)) s) = .next (complete s) := by
  have hbody (k : ℕ) : turnStep .seq (continueWith (delayBodies (k + 1)) s) = .next (continueWith (delayBodies k) s) := by
    refine (turnStep_seq_continueWith hbusy (op := .tickStart 2) nofun (.setTick .one :: .readTick :: delayBodies k)).trans ?_
    rw [microRest_tickStart_of_not_armable hfail, microEffect, tickStart_of_not_armable hfail]
    rfl
  induction m with
  | zero => exact runTurns_cons_next (hbody 0)
  | succ m ih => rw [List.replicate_succ, runTurns_cons_next (hbody (m + 1)), ih]

/-- Settles O50: a thousand bodies, each dropped by its failing TickStart. -/
theorem dlysOfUnarmableGeneratorDoesNotBlock : Obligations.DlysOfUnarmableGeneratorDoesNotBlock := by
  unfold Obligations.DlysOfUnarmableGeneratorDoesNotBlock
  intro s hidle hfail
  refine ⟨_, exec_eq_latched hidle, ?_⟩
  refine (runTurns_delayBodies_of_not_armable (m := 999) (s := latched .dlys s) rfl hfail).trans ?_
  rw [latched_eq, complete_of_rsp_nil rfl]
  simp [commandLatch, latchZ, opcodeByte, opcodeOf, hidle]

/-! ### The SpinIter loop -/

/-- With more iterations left than steps taken the loop only counts. -/
theorem runTurns_spinIter {s : State} (hbusy : s.busy = true) (left k : ℕ) :
    runTurns (List.replicate k .seq) { s with cont := [.spinIter (left + 1 + k)] } =
      .next { s with cont := [.spinIter (left + 1)] } := by
  induction k with
  | zero => rfl
  | succ k ih =>
    have hstep : turnStep .seq { s with cont := [.spinIter (left + 1 + k + 1)] } =
        .next { s with cont := [.spinIter (left + 1 + k)] } := by
      refine (turnStep_seq_continueWith hbusy (op := .spinIter (left + 1 + k + 1)) nofun []).trans ?_
      rw [microRest, if_neg (by omega)]
      rfl
    rw [List.replicate_succ, ← Nat.add_assoc, runTurns_cons_next hstep, ih]

/-- The whole loop, to the completion of its command. -/
theorem runTurns_spinLoop {s : State} (hbusy : s.busy = true) (n : ℕ) :
    runTurns (List.replicate n .seq) (continueWith (spinLoop n) s) = .next (complete s) := by
  cases n with
  | zero => rfl
  | succ n =>
    have hrun := runTurns_spinIter hbusy 0 n
    rw [Nat.zero_add, Nat.add_comm 1 n] at hrun
    have hlast : turnStep .seq { s with cont := [.spinIter 1] } = .next (complete s) :=
      turnStep_seq_continueWith hbusy (op := .spinIter 1) nofun []
    have hloop : continueWith (spinLoop (n + 1)) s = { s with cont := [.spinIter (n + 1)] } := rfl
    rw [hloop, List.replicate_succ', runTurns_append_next hrun, runTurns_cons_next hlast, runTurns_nil]

/-- Settles O51: the loop's micro-steps move SEQ's position alone. -/
theorem dlyusSpinsAndChangesNothing : Obligations.DlyusSpinsAndChangesNothing := by
  unfold Obligations.DlyusSpinsAndChangesNothing
  intro s n hidle
  refine ⟨decodeOfEncodeReturnsCommand (.dlyus n) rfl, _, spinCount s.cfg n, exec_eq_latched hidle, ?zero, fun k hk => ?spins,
    ?completes⟩
  case zero => rintro (rfl | hzero) <;> simp [spinCount, *]
  case spins =>
    obtain ⟨left, hleft⟩ := Nat.exists_eq_add_of_lt hk
    have hprogram : commandProgram s.cfg (.dlyus n) = [.spinIter (left + 1 + k)] := by
      rw [commandProgram, spinLoop, if_neg (by omega)]; congr 2; omega
    rw [hprogram, continueWith_cons]
    exact ⟨_, runTurns_spinIter (s := latched (.dlyus n) s) rfl left k, rfl, rfl⟩
  case completes =>
    refine (runTurns_spinLoop (s := latched (.dlyus n) s) rfl _).trans ?_
    rw [latched_eq, complete_of_rsp_nil rfl]
    simp [commandLatch, latchW, opcodeByte, opcodeOf, hidle]

end Sys2Proof.Machine
end

section
/-! The delays under every schedule: what DLYMS and DLYS wait for (40_timing.md R122, R124, 70_reset_and_hazards.md R239). -/

namespace Sys2Proof.Machine

/-! ### Runs up to SEQ's next step -/

theorem SeqSame.trans {s t u : State} (h : SeqSame s t) (k : SeqSame t u) : SeqSame s u where
  busy := k.busy.trans h.busy
  op := k.op.trans h.op
  a0 := k.a0.trans h.a0
  a1 := k.a1.trans h.a1
  txbuf := k.txbuf.trans h.txbuf
  rsp := k.rsp.trans h.rsp
  cont := k.cont.trans h.cont
  respPort := k.respPort.trans h.respPort
  cfg := k.cfg.trans h.cfg

/-- A run during a command either has no SEQ step, and leaves the sequencer as it is, or has a first one. -/
theorem runTurns_first_seq {ts : List Turn} (hts : DuringCommand ts) {s v : State} (hrun : runTurns ts s = .next v) :
    SeqSame s v ∨ ∃ before after x w, ts = before ++ .seq :: after ∧ runTurns before s = .next x ∧ SeqSame s x ∧
      turnStep .seq x = .next w ∧ runTurns after w = .next v ∧ DuringCommand after := by
  induction ts generalizing s with
  | nil => cases hrun; exact .inl (.refl _)
  | cons t ts ih =>
    obtain ⟨ht, hrest⟩ := List.forall_mem_cons.mp hts
    obtain ⟨s', hstep, hrun'⟩ := runTurns_cons_cases hrun
    by_cases hseq : t = .seq
    · subst hseq
      exact .inr ⟨[], ts, s, s', rfl, rfl, .refl s, hstep, hrun', hrest⟩
    · have hsame := turnStep_seqSame hstep ht hseq
      obtain hv | ⟨before, after, x, w, rfl, hx, hsx, hw, hv, hafter⟩ := ih hrest hrun'
      · exact .inl (hsame.trans hv)
      · exact .inr ⟨t :: before, after, x, w, rfl, by rw [runTurns_cons_next hstep, hx], hsame.trans hsx, hw, hv, hafter⟩

/-! ### Counting ticks -/

theorem ticksSince_self (h : List Event) : ticksSince h h = 0 := by simp [ticksSince]

theorem ticksSince_append {h h' : List Event} (hprefix : h <+: h') (e : List Event) :
    ticksSince h (h' ++ e) = ticksSince h h' + e.count .tick := by
  obtain ⟨d, rfl⟩ := hprefix
  simp [ticksSince, List.append_assoc]

/-- The events of a SHIFTER step are no ticks. -/
theorem shifterStep_hist (s : State) : ∃ e, (shifterStep s).hist = s.hist ++ e ∧ e.count Event.tick = 0 := by
  obtain ⟨e, hblind⟩ := tickless_shifter s
  exact ⟨e, hblind.hist, List.count_eq_zero.2 hblind.no_tick⟩

/-- A tick that is taken is recorded, and takes at most one from the counter. -/
theorem tickStep_hist (s : State) :
    ∃ e, (tickStep s).hist = s.hist ++ e ∧ s.tickcnt.toNat ≤ (tickStep s).tickcnt.toNat + e.count Event.tick := by
  obtain ⟨-, h⟩ | ⟨-, h⟩ := tickStep_cases s
  · refine ⟨[.tick], by rw [h, takeTick_hist], ?_⟩
    rw [h, toNat_tickcnt_takeTick, List.count_singleton_self]
    omega
  · exact ⟨[], by rw [h, List.append_nil], by rw [h]; exact Nat.le_add_right _ _⟩

/-! ### DLYMS -/

/-- In the spin of a delay that began in `w`: while the command is in execution, the counter has lost no more than there were
ticks. -/
def SpinningSince (w z : State) : Prop :=
  z.busy = true → z.cont = [.readTick] ∧ w.hist <+: z.hist ∧ w.tickcnt.toNat ≤ z.tickcnt.toNat + ticksSince w.hist z.hist

/-- More events in HIST, with a counter that pays for them. -/
theorem SpinningSince.of_same {w z z' : State} (h : SpinningSince w z) (k : SeqSame z z') {e : List Event}
    (hhist : z'.hist = z.hist ++ e) (hcount : z.tickcnt.toNat ≤ z'.tickcnt.toNat + e.count Event.tick) :
    SpinningSince w z' := by
  intro hbusy
  obtain ⟨hcont, hprefix, hle⟩ := h (k.busy.symm.trans hbusy)
  refine ⟨k.cont.trans hcont, hhist ▸ hprefix.trans (List.prefix_append _ e), ?_⟩
  rw [hhist, ticksSince_append hprefix]
  omega

theorem SpinningSince.of_turnStep {w z z' : State} (h : SpinningSince w z) {t : Turn} (ht : t ≠ .host ∧ t.isReset = false)
    (hstep : turnStep t z = .next z') : SpinningSince w z' := by
  cases t with
  | host => exact absurd rfl ht.1
  | rst params => cases ht.2
  | shifter =>
    cases hstep
    obtain ⟨e, hhist, hcount⟩ := shifterStep_hist z
    exact h.of_same (shifterStep_seqSame z) hhist (by rw [shifterStep_tickcnt, hcount]; exact le_rfl)
  | tick =>
    cases hstep
    obtain ⟨e, hhist, hcount⟩ := tickStep_hist z
    exact h.of_same (tickStep_seqSame z) hhist hcount
  | seq =>
    cases hbusy : z.busy with
    | false =>
      rw [turnStep_seq, seqStep_idle z hbusy] at hstep
      cases hstep
      exact h
    | true =>
      obtain ⟨hcont, -, -⟩ := h hbusy
      rw [turnStep_seq_cons hbusy hcont nofun] at hstep
      cases hstep
      by_cases hzero : z.tickcnt = 0
      · intro hbusy'
        rw [microRest_readTick_of_zero hzero, continueWith_busy] at hbusy'
        simp at hbusy'
      · rw [microRest_readTick_of_ne_zero hzero, microEffect, continueWith_cons, ← hcont]
        exact h

/-- The micro-step that ends DLYMS reads 0 in its spin. -/
theorem SpinningSince.ticks_of_completes {w v u : State} (h : SpinningSince w v) (hbusy : v.busy = true)
    (hstep : turnStep .seq v = .next u) (hidle : u.busy = false) : w.tickcnt.toNat ≤ ticksSince w.hist v.hist := by
  obtain ⟨hcont, -, hle⟩ := h hbusy
  rw [turnStep_seq_cons hbusy hcont nofun] at hstep
  cases hstep
  have hzero : v.tickcnt = 0 := by
    by_contra hne
    rw [microRest_readTick_of_ne_zero hne, continueWith_busy] at hidle
    simp [hbusy] at hidle
  rw [hzero] at hle
  simpa using hle

/-- SetTick and its spin are pending, so the command is not about to complete. -/
theorem busy_after_micro {s u : State} {op next : MicroOp} {rest : List MicroOp} (hbusy : s.busy = true)
    (hcont : s.cont = op :: next :: rest) (hop : op ≠ .applyInit) (hrest : microRest op (next :: rest) s = next :: rest)
    (hstep : turnStep .seq s = .next u) :
    u.busy = true ∧ u.cont = next :: rest ∧ u = continueWith (next :: rest) (microEffect op s) := by
  rw [turnStep_seq_cons hbusy hcont hop, hrest] at hstep
  cases hstep
  exact ⟨by rw [continueWith_busy, microEffect_busy, hbusy]; rfl, continueWith_cont _ _, rfl⟩

/-- Settles O45: of a run that is about to complete DLYMS, the first SEQ step is TickStart and the second SetTick, and the spin
behind it lasts until as many ticks have come. -/
theorem dlymsNeverReturnsBeforeItsTicks : Obligations.DlymsNeverReturnsBeforeItsTicks := by
  unfold Obligations.DlymsNeverReturnsBeforeItsTicks
  intro s t v u n ts harm hexec hts hrun hbusy hlast hidle
  obtain ⟨-, rfl⟩ := exec_eq_latched_cases hexec
  have still_busy {z : State} {op next : MicroOp} {rest : List MicroOp} (hz : SeqSame z v) (hcont : z.cont = op :: next :: rest)
      (hop : op ≠ .applyInit) (hrest : microRest op (next :: rest) v = next :: rest) : False := by
    have hv := busy_after_micro hbusy (hz.cont.trans hcont) hop hrest hlast
    simp [hidle] at hv
  obtain hsame | ⟨before, after, x, w, rfl, hx, hsx, hw, hv, hafter⟩ := runTurns_first_seq hts hrun
  · exact (still_busy hsame rfl nofun (microRest_tickStart_of_armable (by rw [hsame.cfg]; exact harm) _ _)).elim
  have hxcfg : tickArmable x.cfg = true := by rw [hsx.cfg]; exact harm
  obtain ⟨hwbusy, hwcont, rfl⟩ := busy_after_micro (hsx.busy.trans rfl) (hsx.cont.trans rfl) nofun
    (microRest_tickStart_of_armable hxcfg _ _) hw
  obtain hsame | ⟨before', after', x', w', rfl, hx', hsx', hw', hv', hafter'⟩ := runTurns_first_seq hafter hv
  · exact (still_busy hsame rfl nofun rfl).elim
  have hx'cont := hsx'.cont.trans hwcont
  obtain ⟨hw'busy, hw'cont, hw'eq⟩ := busy_after_micro (hsx'.busy.trans hwbusy) hx'cont nofun rfl hw'
  have ha0 : x'.a0 = n := by rw [hsx'.a0, continueWith_a0]; exact hsx.a0
  have hcount : w'.tickcnt = n := by rw [hw'eq]; exact ha0
  refine ⟨before ++ .seq :: before', after', x', w', by simp, ?_, hx'cont, hw', hcount, hv', ?_⟩
  · rw [runTurns_append_next hx, runTurns_cons_next hw, hx']
  · have hstart : SpinningSince w' w' := fun _ => ⟨hw'cont, List.prefix_rfl, Nat.le_add_right _ _⟩
    have hspin : SpinningSince w' v :=
      runTurns_invariant (SpinningSince w') (fun a ha _ _ hz hstep => hz.of_turnStep (hafter' a ha) hstep) hstart hv'
    rw [← hcount]
    exact hspin.ticks_of_completes hbusy hlast hidle

/-- DLYMS n after `k` SEQ steps and no tick: at its first, its second, or, for ever, its third micro-step. -/
structure Hanging (n : Word) (k : ℕ) (z : State) : Prop where
  busy : z.busy = true
  respPort : z.respPort = none
  a0 : z.a0 = n
  armable : tickArmable z.cfg = true
  cont : z.cont = (delayBody .operand).drop (min k 2)
  count : 2 ≤ k → z.tickcnt = n

theorem Hanging.of_same {n : Word} {k : ℕ} {z z' : State} (h : Hanging n k z) (hs : SeqSame z z')
    (hcount : z'.tickcnt = z.tickcnt) : Hanging n k z' where
  busy := hs.busy.trans h.busy
  respPort := hs.respPort.trans h.respPort
  a0 := hs.a0.trans h.a0
  armable := by rw [hs.cfg]; exact h.armable
  cont := hs.cont.trans h.cont
  count hk := hcount.trans (h.count hk)

/-- SEQ goes from TickStart to SetTick, from there to the spin, and stays in it. -/
theorem Hanging.seq {n : Word} (hn : n ≠ 0) {k : ℕ} {z : State} (h : Hanging n k z) :
    ∃ z', turnStep .seq z = .next z' ∧ Hanging n (k + 1) z' := by
  match k, h with
  | 0, h =>
    refine ⟨_, turnStep_seq_cons h.busy h.cont nofun, ?_⟩
    rw [microRest_tickStart_of_armable h.armable]
    exact ⟨h.busy, h.respPort, h.a0, h.armable, rfl, nofun⟩
  | 1, h =>
    refine ⟨_, turnStep_seq_cons h.busy h.cont nofun, ?_⟩
    exact ⟨h.busy, h.respPort, h.a0, h.armable, rfl, fun _ => h.a0⟩
  | k + 2, h =>
    have hdrop : min (k + 2) 2 = 2 ∧ min (k + 2 + 1) 2 = 2 := by omega
    have hcont : z.cont = [.readTick] := by rw [h.cont, hdrop.1]; rfl
    have hne : z.tickcnt ≠ 0 := by rw [h.count (by omega)]; exact hn
    refine ⟨_, turnStep_seq_cons h.busy hcont nofun, ?_⟩
    rw [microRest_readTick_of_ne_zero hne]
    exact ⟨h.busy, h.respPort, h.a0, h.armable, by rw [hdrop.2]; rfl, fun _ => h.count (by omega)⟩

theorem Hanging.runTurns {n : Word} (hn : n ≠ 0) {ts : List Turn} (hts : DuringCommand ts) (hticks : Turn.tick ∉ ts) {k : ℕ}
    {z : State} (h : Hanging n k z) : ∃ u, runTurns ts z = .next u ∧ Hanging n (k + ts.count .seq) u := by
  induction ts generalizing k z with
  | nil => exact ⟨z, rfl, h⟩
  | cons t ts ih =>
    obtain ⟨ht, hrest⟩ := List.forall_mem_cons.mp hts
    obtain ⟨htick, hticks'⟩ := List.ne_and_not_mem_of_not_mem_cons hticks
    cases t with
    | host => exact absurd rfl ht.1
    | rst params => cases ht.2
    | tick => exact absurd rfl htick
    | shifter =>
      obtain ⟨u, hrun, hu⟩ := ih hrest hticks' (h.of_same (shifterStep_seqSame z) (shifterStep_tickcnt z))
      exact ⟨u, hrun, by rwa [List.count_cons_of_ne (by decide)]⟩
    | seq =>
      obtain ⟨z', hstep, hz'⟩ := h.seq hn
      obtain ⟨u, hrun, hu⟩ := ih hrest hticks' hz'
      refine ⟨u, by rw [runTurns_cons_next hstep, hrun], ?_⟩
      rwa [List.count_cons_self, Nat.add_comm _ 1, ← Nat.add_assoc]

/-- Settles O47: without a tick the counter stays at n, and the spin reads it for ever. -/
theorem dlymsHangsWithoutTicks : Obligations.DlymsHangsWithoutTicks := by
  unfold Obligations.DlymsHangsWithoutTicks
  intro s t n ts harm hn hexec hts hticks
  obtain ⟨-, rfl⟩ := exec_eq_latched_cases hexec
  have hstart : Hanging n 0 (continueWith (commandProgram s.cfg (.dlyms n)) (latched (.dlyms n) s)) :=
    ⟨rfl, rfl, rfl, harm, rfl, nofun⟩
  obtain ⟨u, hrun, hu⟩ := hstart.runTurns hn hts hticks
  rw [Nat.zero_add] at hu
  refine ⟨u, hrun, hu.busy, hu.respPort, fun hseq => ⟨hu.count hseq, ?_⟩⟩
  rw [hu.cont, Nat.min_eq_right hseq]
  rfl

/-! ### DLYS -/

/-- Where DLYS stands, with the ticks and the SEQ steps that it needs from there at least: before a body with `m` bodies to go, at
a body's SetTick, or in its spin. -/
inductive DlysAt (z : State) : ℕ → ℕ → Prop
  | body (m : ℕ) (hcont : z.cont = delayBodies m) : DlysAt z m (3 * m)
  | set (m : ℕ) (hcont : z.cont = .setTick .one :: .readTick :: delayBodies m) : DlysAt z (m + 1) (3 * m + 2)
  | spin (m : ℕ) (hcont : z.cont = .readTick :: delayBodies m) : DlysAt z (m + z.tickcnt.toNat) (3 * m + 1)

/-- DLYS in execution or complete, where its generator can be armed. -/
structure InDlys (z : State) (ticks steps : ℕ) : Prop where
  armable : tickArmable z.cfg = true
  busy_iff : z.busy = true ↔ z.cont ≠ []
  needs : DlysAt z ticks steps

/-- Complete, it needs nothing more. -/
theorem InDlys.eq_zero_of_idle {z : State} {ticks steps : ℕ} (h : InDlys z ticks steps) (hidle : z.busy = false) :
    ticks = 0 ∧ steps = 0 := by
  have hnil : z.cont = [] := by
    by_contra hne
    simp [h.busy_iff.2 hne] at hidle
  cases h.needs with
  | body _ hcont =>
    cases ticks with
    | zero => exact ⟨rfl, rfl⟩
    | succ m => rw [hnil] at hcont; cases hcont
  | set m hcont => rw [hnil] at hcont; cases hcont
  | spin m hcont => rw [hnil] at hcont; cases hcont

/-- A step of another agent: what it takes from the counter it records. -/
theorem InDlys.of_same {z z' : State} {ticks steps : ℕ} (h : InDlys z ticks steps) (k : SeqSame z z') {c : ℕ}
    (hcount : z.tickcnt.toNat ≤ z'.tickcnt.toNat + c) : ∃ ticks', InDlys z' ticks' steps ∧ ticks ≤ ticks' + c := by
  have harm : tickArmable z'.cfg = true := by rw [k.cfg]; exact h.armable
  have hbusy : z'.busy = true ↔ z'.cont ≠ [] := by rw [k.busy, k.cont]; exact h.busy_iff
  cases h.needs with
  | body _ hcont => exact ⟨ticks, ⟨harm, hbusy, .body ticks (k.cont.trans hcont)⟩, Nat.le_add_right _ _⟩
  | set m hcont => exact ⟨m + 1, ⟨harm, hbusy, .set m (k.cont.trans hcont)⟩, Nat.le_add_right _ _⟩
  | spin m hcont => exact ⟨_, ⟨harm, hbusy, .spin m (k.cont.trans hcont)⟩, by omega⟩

theorem busy_iff_continueWith {z : State} (hbusy : z.busy = true) (rest : List MicroOp) :
    (continueWith rest z).busy = true ↔ (continueWith rest z).cont ≠ [] := by
  rw [continueWith_busy, continueWith_cont, hbusy]
  simp

/-- A SEQ step of DLYS makes one step of what it needs, or spins; SetTick's one tick is one of those it needed. -/
theorem InDlys.seq {z z' : State} {ticks steps : ℕ} (h : InDlys z ticks steps) (hstep : turnStep .seq z = .next z') :
    ∃ ticks' steps', InDlys z' ticks' steps' ∧ ticks ≤ ticks' ∧ steps ≤ steps' + (performed .seq z).length := by
  cases hbusy : z.busy with
  | false =>
    rw [turnStep_seq, seqStep_idle z hbusy] at hstep
    cases hstep
    exact ⟨ticks, steps, h, le_rfl, Nat.le_add_right _ _⟩
  | true =>
    have next {op : MicroOp} {rest : List MicroOp} (hcont : z.cont = op :: rest) (hop : op ≠ .applyInit) :
        z' = continueWith (microRest op rest z) (microEffect op z) ∧ (performed .seq z).length = 1 := by
      rw [turnStep_seq_cons hbusy hcont hop] at hstep
      cases hstep
      exact ⟨rfl, by rw [performed_seq_cons hbusy hcont]; rfl⟩
    have keeps (op : MicroOp) (rest : List MicroOp) : tickArmable (continueWith rest (microEffect op z)).cfg = true ∧
        ((continueWith rest (microEffect op z)).busy = true ↔ (continueWith rest (microEffect op z)).cont ≠ []) := by
      refine ⟨?_, busy_iff_continueWith ((microEffect_busy op z).trans hbusy) rest⟩
      rw [continueWith_cfg, microEffect_cfg]; exact h.armable
    cases h.needs with
    | body _ hcont =>
      cases ticks with
      | zero => exact absurd hcont (h.busy_iff.1 hbusy)
      | succ m =>
        obtain ⟨rfl, hone⟩ := next hcont nofun
        rw [microRest_tickStart_of_armable h.armable, hone]
        obtain ⟨harm, hiff⟩ := keeps (.tickStart 2) (.setTick .one :: .readTick :: delayBodies m)
        exact ⟨m + 1, 3 * m + 2, ⟨harm, hiff, .set m rfl⟩, le_rfl, by omega⟩
    | set m hcont =>
      obtain ⟨rfl, hone⟩ := next hcont nofun
      rw [hone]
      obtain ⟨harm, hiff⟩ := keeps (.setTick .one) (.readTick :: delayBodies m)
      exact ⟨m + 1, 3 * m + 1, ⟨harm, hiff, .spin m rfl⟩, le_rfl, le_rfl⟩
    | spin m hcont =>
      obtain ⟨rfl, hone⟩ := next hcont nofun
      rw [hone]
      by_cases hzero : z.tickcnt = 0
      · rw [microRest_readTick_of_zero hzero, hzero]
        obtain ⟨harm, hiff⟩ := keeps .readTick (delayBodies m)
        exact ⟨m, 3 * m, ⟨harm, hiff, .body m (continueWith_cont _ _)⟩, le_rfl, le_rfl⟩
      · rw [microRest_readTick_of_ne_zero hzero]
        obtain ⟨harm, hiff⟩ := keeps .readTick (.readTick :: delayBodies m)
        exact ⟨m + z.tickcnt.toNat, 3 * m + 1, ⟨harm, hiff, .spin m rfl⟩, le_rfl, Nat.le_add_right _ _⟩

/-- A step of any agent during DLYS: the ticks recorded and the micro-steps performed make up for what is needed less. -/
theorem InDlys.turnStep {t : Turn} {z z' : State} {ticks steps : ℕ} (h : InDlys z ticks steps)
    (ht : t ≠ .host ∧ t.isReset = false) (hstep : turnStep t z = .next z') :
    ∃ ticks' steps' e, InDlys z' ticks' steps' ∧ z'.hist = z.hist ++ e ∧ ticks ≤ ticks' + e.count Event.tick ∧
      steps ≤ steps' + (performed t z).length := by
  cases t with
  | host => exact absurd rfl ht.1
  | rst params => cases ht.2
  | shifter =>
    cases hstep
    obtain ⟨e, hhist, hcount⟩ := shifterStep_hist z
    obtain ⟨ticks', h', hle⟩ := h.of_same (shifterStep_seqSame z) (c := 0) (by simp)
    exact ⟨ticks', steps, e, h', hhist, by omega, Nat.le_add_right _ _⟩
  | tick =>
    cases hstep
    obtain ⟨e, hhist, hcount⟩ := tickStep_hist z
    obtain ⟨ticks', h', hle⟩ := h.of_same (tickStep_seqSame z) hcount
    exact ⟨ticks', steps, e, h', hhist, hle, Nat.le_add_right _ _⟩
  | seq =>
    obtain ⟨e, hhist⟩ := (turnStep_keepsSetup hstep rfl).hist
    obtain ⟨ticks', steps', h', hticks, hsteps⟩ := h.seq hstep
    exact ⟨ticks', steps', e, h', hhist.symm, by omega, hsteps⟩

theorem InDlys.runTurns {ts : List Turn} (hts : DuringCommand ts) {z u : State} {ticks steps : ℕ} (h : InDlys z ticks steps)
    (hrun : runTurns ts z = .next u) :
    ∃ ticks' steps' e, InDlys u ticks' steps' ∧ u.hist = z.hist ++ e ∧ ticks ≤ ticks' + e.count Event.tick ∧
      steps ≤ steps' + (microTrace ts z).length := by
  induction ts generalizing z ticks steps with
  | nil => cases hrun; exact ⟨ticks, steps, [], h, (List.append_nil _).symm, Nat.le_add_right _ _, Nat.le_add_right _ _⟩
  | cons t ts ih =>
    obtain ⟨ht, hrest⟩ := List.forall_mem_cons.mp hts
    obtain ⟨z', hstep, hrun⟩ := runTurns_cons_cases hrun
    obtain ⟨ticks1, steps1, e1, h1, hhist1, hticks1, hsteps1⟩ := h.turnStep ht hstep
    obtain ⟨ticks2, steps2, e2, h2, hhist2, hticks2, hsteps2⟩ := ih hrest h1 hrun
    refine ⟨ticks2, steps2, e1 ++ e2, h2, by rw [hhist2, hhist1, List.append_assoc], ?_, ?_⟩
    · rw [List.count_append]; omega
    · rw [microTrace_cons_next hstep, List.length_append]; omega

/-- Settles O49: at its issue DLYS needs a thousand ticks and three thousand SEQ steps, and it is complete only when it needs no
more of either. -/
theorem dlysNeedsThousandTicks : Obligations.DlysNeedsThousandTicks := by
  unfold Obligations.DlysNeedsThousandTicks
  intro s t u ts harm hexec hts hrun hfew
  obtain ⟨-, rfl⟩ := exec_eq_latched_cases hexec
  have hstart : InDlys (continueWith (delayBodies 1000) (latched .dlys s)) 1000 (3 * 1000) :=
    ⟨by rw [continueWith_cfg]; exact harm, busy_iff_continueWith rfl _, .body 1000 (continueWith_cont _ _)⟩
  obtain ⟨ticks, steps, e, hu, hhist, hticks, hsteps⟩ := hstart.runTurns hts hrun
  by_contra hbusy
  obtain ⟨rfl, rfl⟩ := hu.eq_zero_of_idle (Bool.eq_false_iff.2 hbusy)
  have hprogram : commandProgram s.cfg .dlys = delayBodies 1000 := rfl
  rw [hprogram, hhist, ticksSince_append List.prefix_rfl, ticksSince_self] at hfew
  omega

end Sys2Proof.Machine
end

section
/-! The frame that carries a byte: from its SendByte over LOAD to END (42_transactions.md R172). -/

namespace Sys2Proof.Machine

/-! ### Frame events -/

theorem frameEvents_append_hist {s t : State} {e : List Event} (h : t.hist = s.hist ++ e) :
    frameEvents t = frameEvents s ++ e.filter isFrameEvent := by
  rw [frameEvents, frameEvents, h, List.filter_append]

theorem frameEvents_shifterLoad (s : State) : frameEvents (shifterLoad s) = frameEvents s ++ [.xstart s.txdr] :=
  frameEvents_append_hist (shifterLoad_hist s)

theorem frameEvents_shifterEnd (s : State) : frameEvents (shifterEnd s) = frameEvents s ++ [.xend s.shrx] :=
  frameEvents_append_hist (shifterEnd_hist s)

theorem frameEvents_tickStep (s : State) : frameEvents (tickStep s) = frameEvents s := by
  obtain ⟨-, h⟩ | ⟨-, h⟩ := tickStep_cases s
  · rw [h, frameEvents_append_hist (takeTick_hist s)]; exact List.append_nil _
  · rw [h]

/-- A completion is no frame event. -/
@[simp] theorem frameEvents_continueWith (rest : List MicroOp) (s : State) :
    frameEvents (continueWith rest s) = frameEvents s := by
  rw [frameEvents_append_hist (continueWith_hist rest s)]
  split <;> exact List.append_nil _

/-! ### A byte on its way -/

/-- The byte `v` of a SendByte on its way, `base` being the frame events of the frames before its own: it waits in TXDR, its frame
is in flight, or its frame has ended and nothing came after. -/
inductive Carrying (v : Byte) (base : List Event) (z : State) : Prop
  | waiting (hpend : z.txpend = true) (hbyte : z.txdr = v) (hevents : frameEvents z = base)
  | inFlight (hpend : z.txpend = false) (hbusy : z.shbusy = true) (hbyte : z.shtx = v)
      (hevents : frameEvents z = base ++ [.xstart v])
  | ended (hquiet : Quiescent z) (hrxne : z.rxne = true) (hevents : frameEvents z = base ++ [.xstart v, .xend z.rxdr])

/-- From `z` to `z'` the registers of a frame, TXDR and RXDR, the flags and the frame events stay. -/
structure FrameSame (z z' : State) : Prop where
  txpend : z'.txpend = z.txpend
  txdr : z'.txdr = z.txdr
  shbusy : z'.shbusy = z.shbusy
  shtx : z'.shtx = z.shtx
  rxne : z'.rxne = z.rxne
  rxdr : z'.rxdr = z.rxdr
  events : frameEvents z' = frameEvents z

theorem tickStep_frameSame (z : State) : FrameSame z (tickStep z) :=
  ⟨tickStep_txpend z, tickStep_txdr z, tickStep_shbusy z, tickStep_shtx z, tickStep_rxne z, tickStep_rxdr z,
    frameEvents_tickStep z⟩

theorem continueWith_frameSame (rest : List MicroOp) (z : State) : FrameSame z (continueWith rest z) :=
  ⟨by simp, by simp, by simp, by simp, by simp, by simp, frameEvents_continueWith rest z⟩

section
variable {v : Byte} {base : List Event} {z z' : State}

theorem Carrying.of_same (h : Carrying v base z) (k : FrameSame z z') : Carrying v base z' := by
  cases h with
  | waiting hpend hbyte hevents => exact .waiting (k.txpend.trans hpend) (k.txdr.trans hbyte) (k.events.trans hevents)
  | inFlight hpend hbusy hbyte hevents =>
    exact .inFlight (k.txpend.trans hpend) (k.shbusy.trans hbusy) (k.shtx.trans hbyte) (k.events.trans hevents)
  | ended hquiet hrxne hevents =>
    exact .ended ⟨k.txpend.trans hquiet.1, k.shbusy.trans hquiet.2⟩ (k.rxne.trans hrxne) (by rw [k.events, k.rxdr, hevents])

/-- A SHIFTER step takes the byte along; while it waits for an older frame, that frame's END may come before its own events. -/
theorem Carrying.shifterStep (h : Carrying v base z) :
    ∃ e, Carrying v (base ++ e) (shifterStep z) ∧ (¬(z.txpend = true ∧ z.shbusy = true) → e = []) := by
  have same (hs : Machine.shifterStep z = z) :
      ∃ e, Carrying v (base ++ e) (Machine.shifterStep z) ∧ (¬(z.txpend = true ∧ z.shbusy = true) → e = []) :=
    ⟨[], by rw [hs, List.append_nil]; exact h, fun _ => rfl⟩
  cases h with
  | waiting hpend hbyte hevents =>
    obtain ⟨-, hs⟩ | ⟨-, hs⟩ | ⟨hend, hs⟩ | ⟨-, -, -, hs⟩ := shifterStep_cases z
    · refine ⟨[], ?_, fun _ => rfl⟩
      rw [hs, List.append_nil]
      exact .inFlight rfl rfl hbyte (by rw [frameEvents_shifterLoad, hevents, hbyte])
    · exact ⟨[], by rw [hs, List.append_nil]; exact .waiting hpend hbyte hevents, fun _ => rfl⟩
    · refine ⟨[.xend z.shrx], ?_, fun hidle => absurd ⟨hpend, ((endEnabled_iff z).1 hend).1⟩ hidle⟩
      rw [hs]
      exact .waiting hpend hbyte (by rw [frameEvents_shifterEnd, hevents])
    · exact same hs
  | inFlight hpend hbusy hbyte hevents =>
    obtain ⟨hload, -⟩ | ⟨-, hs⟩ | ⟨-, hs⟩ | ⟨-, -, -, hs⟩ := shifterStep_cases z
    · simp [hbusy] at hload
    · exact ⟨[], by rw [hs, List.append_nil]; exact .inFlight hpend hbusy hbyte hevents, fun _ => rfl⟩
    · refine ⟨[], ?_, fun _ => rfl⟩
      rw [hs, List.append_nil]
      exact .ended ⟨hpend, rfl⟩ rfl (by rw [frameEvents_shifterEnd, hevents]; simp)
    · exact same hs
  | ended hquiet _ _ => exact same (shifterStep_quiescent z hquiet.1 hquiet.2)

/-- TXE is 1 only when the byte's own frame has ended. -/
theorem Carrying.of_txe (h : Carrying v base z) (htxe : txe z = true) :
    Quiescent z ∧ z.rxne = true ∧ frameEvents z = base ++ [.xstart v, .xend z.rxdr] := by
  cases h with
  | waiting hpend _ _ => simp [txe, hpend] at htxe
  | inFlight _ hbusy _ _ => simp [txe, hbusy] at htxe
  | ended hquiet hrxne hevents => exact ⟨hquiet, hrxne, hevents⟩

end

/-! ### The poll that follows a SendByte -/

theorem length_microRest_le (op : MicroOp) (rest : List MicroOp) (s : State) :
    (microRest op rest s).length ≤ rest.length + 1 := by
  cases op <;> simp only [microRest, afterFlagCheck]
  case flagCheck | readTick | spinIter => split <;> simp
  case tickStart onFail =>
    split
    · exact Nat.le_succ _
    · rw [List.length_drop]; omega
  all_goals exact Nat.le_succ _

/-- In the TXE poll of the byte `v` with `rest` behind it, or past it. -/
def PollingOrPast (v : Byte) (base : List Event) (rest : List MicroOp) (z : State) : Prop :=
  (∃ k e, z.cont = .flagCheck .txe k :: rest ∧ Carrying v (base ++ e) z) ∨ z.cont.length ≤ rest.length

theorem PollingOrPast.of_same {v : Byte} {base : List Event} {rest : List MicroOp} {z z' : State}
    (h : PollingOrPast v base rest z) (hcont : z'.cont = z.cont)
    (hcarry : ∀ e, Carrying v (base ++ e) z → ∃ e', Carrying v (base ++ e ++ e') z') : PollingOrPast v base rest z' := by
  obtain ⟨k, e, hk, hz⟩ | hlen := h
  · obtain ⟨e', hz'⟩ := hcarry e hz
    exact .inl ⟨k, e ++ e', hcont.trans hk, by rwa [← List.append_assoc]⟩
  · exact .inr (hcont ▸ hlen)

/-- The poll stays the same poll until it ends, for what is pending never grows. -/
theorem PollingOrPast.turnStep {v : Byte} {base : List Event} {rest : List MicroOp} {z z' : State}
    (h : PollingOrPast v base rest z) {t : Turn} (ht : t ≠ .host ∧ t.isReset = false) (hstep : turnStep t z = .next z') :
    PollingOrPast v base rest z' := by
  cases t with
  | host => exact absurd rfl ht.1
  | rst params => cases ht.2
  | shifter =>
    cases hstep
    exact h.of_same (shifterStep_seqSame z).cont fun e hz => let ⟨e', hz', _⟩ := hz.shifterStep; ⟨e', hz'⟩
  | tick =>
    cases hstep
    exact h.of_same (tickStep_cont z) fun e hz => ⟨[], by rw [List.append_nil]; exact hz.of_same (tickStep_frameSame z)⟩
  | seq =>
    obtain ⟨-, rfl⟩ | ⟨-, -, rfl⟩ | ⟨op, ops, -, hcont, -, rfl⟩ := seqStep_cases hstep
    · exact h
    · exact .inr (Nat.zero_le _)
    · obtain ⟨k, e, hk, hz⟩ | hlen := h
      · obtain ⟨rfl, rfl⟩ := List.cons.inj (hcont.symm.trans hk)
        rw [microEffect, PollingOrPast, continueWith_cont, microRest, afterFlagCheck]
        split
        · exact .inr le_rfl
        · exact .inl ⟨k + 1, e, rfl, hz.of_same (continueWith_frameSame _ z)⟩
      · refine .inr ?_
        rw [hcont] at hlen
        rw [continueWith_cont]
        exact (length_microRest_le op ops z).trans hlen

/-- Settles O31: the byte waits, is in flight or has been carried; only the last shows TXE = 1. -/
theorem seenTxeMeansOwnFrameEnded : Obligations.SeenTxeMeansOwnFrameEnded := by
  unfold Obligations.SeenTxeMeansOwnFrameEnded
  intro s t w src rest k ts hbusy hcont hsend hts hrun hwbusy hwcont htxe
  rw [turnStep_seq_cons hbusy hcont nofun] at hsend
  cases hsend
  have hstart : PollingOrPast (readByteSrc src s) (frameEvents s) rest
      (continueWith (.flagCheck .txe 0 :: rest) (sendByte (readByteSrc src s) s)) :=
    .inl ⟨0, [], rfl, .waiting rfl rfl (List.append_nil _).symm⟩
  have hend : PollingOrPast (readByteSrc src s) (frameEvents s) rest w :=
    runTurns_invariant _ (fun a ha _ _ hz hstep => hz.turnStep (hts a ha) hstep) hstart hrun
  obtain ⟨_, e, -, hcarry⟩ | hlen := hend
  · obtain ⟨-, hrxne, hevents⟩ := hcarry.of_txe htxe
    exact ⟨hrxne, e, hevents⟩
  · rw [hwcont] at hlen
    exact absurd hlen (Nat.not_succ_le_self _)

end Sys2Proof.Machine
end

section
/-! Transaction commands under every schedule: their micro-steps, in order, and their bound (42_transactions.md R162, R168). -/

namespace Sys2Proof.Machine

/-! ### What a list of transfer micro-steps still takes -/

/-- The checks a poll has left, at most. -/
def checkWeight (p : Params) : MicroOp → ℕ
  | .flagCheck _ count => p.retryBudget - count
  | _ => 0

/-- The FlagChecks that pending micro-steps take, at most. -/
def checksLeft (p : Params) (ops : List MicroOp) : ℕ := (ops.map (checkWeight p)).sum

@[simp] theorem checksLeft_cons (p : Params) (op : MicroOp) (ops : List MicroOp) :
    checksLeft p (op :: ops) = checkWeight p op + checksLeft p ops := by simp [checksLeft]

@[simp] theorem checksLeft_append (p : Params) (as bs : List MicroOp) :
    checksLeft p (as ++ bs) = checksLeft p as + checksLeft p bs := by simp [checksLeft]

@[simp] theorem checksLeft_nil (p : Params) : checksLeft p [] = 0 := rfl

/-- The SEQ steps that pending transfer micro-steps take, at most. -/
def stepsLeft (p : Params) (ops : List MicroOp) : ℕ := ops.countP isSend + ops.countP isReceive + checksLeft p ops

/-- A poll with budget left (10_state.md R34). -/
def pollOk (p : Params) : MicroOp → Bool
  | .flagCheck _ count => count < p.retryBudget
  | _ => true

/-- The indexes that pending ReceiveBytes store at, in order. -/
def storeIndexes (ops : List MicroOp) : List ℕ :=
  ops.filterMap fun
    | .receiveByte dst => dst
    | _ => none

@[simp] theorem storeIndexes_nil : storeIndexes [] = [] := rfl

/-- Each transfer micro-step is of one of the three kinds. -/
theorem length_eq_of_all_isTransfer {ops : List MicroOp} (h : ops.all isTransfer = true) :
    ops.length = ops.countP isSend + ops.countP isReceive + ops.countP isFlagCheck := by
  induction ops with
  | nil => rfl
  | cons op ops ih =>
    rw [List.all_cons, Bool.and_eq_true] at h
    obtain ⟨hop, hops⟩ := h
    have hlen := ih hops
    cases op with
    | sendByte src => simp only [List.length_cons, List.countP_cons, isSend, isReceive, isFlagCheck, hlen]; simp; omega
    | receiveByte dst => simp only [List.length_cons, List.countP_cons, isSend, isReceive, isFlagCheck, hlen]; simp; omega
    | flagCheck f count => simp only [List.length_cons, List.countP_cons, isSend, isReceive, isFlagCheck, hlen]; simp; omega
    | _ => cases hop

/-- A pending transfer micro-step takes a SEQ step at least. -/
theorem stepsLeft_pos {p : Params} {ops : List MicroOp} (htransfer : ops.all isTransfer = true)
    (hpolls : ops.all (pollOk p) = true) (hne : ops ≠ []) : 0 < stepsLeft p ops := by
  cases ops with
  | nil => exact absurd rfl hne
  | cons op ops =>
    rw [List.all_cons, Bool.and_eq_true] at htransfer hpolls
    cases op with
    | sendByte src => simp [stepsLeft, List.countP_cons, isSend]
    | receiveByte dst => simp [stepsLeft, List.countP_cons, isReceive]
    | flagCheck f count =>
      have hcount : count < p.retryBudget := of_decide_eq_true hpolls.1
      simp [stepsLeft, checkWeight]; omega
    | _ => cases htransfer.1

/-! ### Progress -/

/-- Performing `trace` leads from the pending micro-steps `before` to `after`: the SendBytes and the ReceiveBytes in order, and the
FlagChecks within the bounds of R168. -/
structure Progress (p : Params) (before trace after : List MicroOp) : Prop where
  transfers : trace.all isTransfer = true
  sends : trace.filter isSend ++ after.filter isSend = before.filter isSend
  receives : trace.filter isReceive ++ after.filter isReceive = before.filter isReceive
  checks_least : before.countP isFlagCheck ≤ trace.countP isFlagCheck + after.countP isFlagCheck
  checks_most : trace.countP isFlagCheck + checksLeft p after ≤ checksLeft p before

theorem Progress.refl (p : Params) (ops : List MicroOp) : Progress p ops [] ops :=
  ⟨rfl, rfl, rfl, (Nat.zero_add _).ge, (Nat.zero_add _).le⟩

theorem Progress.trans {p : Params} {a b c tr tr' : List MicroOp} (h : Progress p a tr b) (k : Progress p b tr' c) :
    Progress p a (tr ++ tr') c where
  transfers := by rw [List.all_append, h.transfers, k.transfers]; rfl
  sends := by rw [List.filter_append, List.append_assoc, k.sends, h.sends]
  receives := by rw [List.filter_append, List.append_assoc, k.receives, h.receives]
  checks_least := by
    have h1 := h.checks_least
    have h2 := k.checks_least
    rw [List.countP_append]; omega
  checks_most := by
    have h1 := h.checks_most
    have h2 := k.checks_most
    rw [List.countP_append]; omega

section
variable {p : Params} {before trace after : List MicroOp}

theorem Progress.countP_isSend (h : Progress p before trace after) :
    trace.countP isSend + after.countP isSend = before.countP isSend := by
  simp only [List.countP_eq_length_filter, ← h.sends, List.length_append]

theorem Progress.countP_isReceive (h : Progress p before trace after) :
    trace.countP isReceive + after.countP isReceive = before.countP isReceive := by
  simp only [List.countP_eq_length_filter, ← h.receives, List.length_append]

/-- Every micro-step performed is one of those that were to come. -/
theorem Progress.length_add_stepsLeft_le (h : Progress p before trace after) :
    trace.length + stepsLeft p after ≤ stepsLeft p before := by
  have hlen := length_eq_of_all_isTransfer h.transfers
  have hsend := h.countP_isSend
  have hreceive := h.countP_isReceive
  have hcheck := h.checks_most
  unfold stepsLeft
  omega

end

@[simp] theorem microRest_sendByte (src : ByteSrc) (rest : List MicroOp) (s : State) :
    microRest (.sendByte src) rest s = rest := rfl

@[simp] theorem microRest_receiveByte (dst : Option ℕ) (rest : List MicroOp) (s : State) :
    microRest (.receiveByte dst) rest s = rest := rfl

/-- One transfer micro-step. -/
theorem progress_microRest {op : MicroOp} {rest : List MicroOp} {s : State} (hop : isTransfer op = true)
    (hpoll : pollOk s.cfg op = true) : Progress s.cfg (op :: rest) [op] (microRest op rest s) := by
  cases op with
  | sendByte src => exact ⟨rfl, rfl, rfl, by simp [microRest, isFlagCheck], by simp [microRest, isFlagCheck]⟩
  | receiveByte dst => exact ⟨rfl, rfl, rfl, by simp [microRest, isFlagCheck], by simp [microRest, isFlagCheck]⟩
  | flagCheck f count =>
    have hcount : count < s.cfg.retryBudget := of_decide_eq_true hpoll
    rw [microRest, afterFlagCheck]
    split
    · exact ⟨rfl, rfl, rfl, by simp [List.countP_cons, isFlagCheck], by simp [isFlagCheck, checkWeight]; omega⟩
    · exact ⟨rfl, rfl, rfl, by simp [List.countP_cons, isFlagCheck], by simp [isFlagCheck, checkWeight]; omega⟩
  | _ => cases hop

/-! ### A transaction command in execution -/

/-- The bytes of SEQ.RSP that the command's response takes (20_memory.md R74). -/
def responseCount (s : State) : ℕ := if s.op = opcodeByte .rd ∨ s.op = opcodeByte .wrrd then s.a1.toNat else 0

theorem response_eq_take (s : State) : response s = s.rsp.take (responseCount s) := by
  rw [response, responseCount]
  split
  · rfl
  · rw [List.take_zero]

/-- A transaction command that answers `n` bytes, in execution or complete: its pending micro-steps are transfers whose stores fill
SEQ.RSP from its end up to `n` bytes. -/
structure Transferring (n : ℕ) (z : State) : Prop where
  busy_iff : z.busy = true ↔ z.cont ≠ []
  transfers : z.cont.all isTransfer = true
  polls : z.cont.all (pollOk z.cfg) = true
  stores : storeIndexes z.cont = List.range' z.rsp.length (n - z.rsp.length)
  rsp_le : z.rsp.length ≤ n
  count : responseCount z = n
  answered : z.busy = false → z.respPort = some z.rsp

section
variable {n : ℕ} {z z' : State}

theorem Transferring.of_same (h : Transferring n z) (k : SeqSame z z') : Transferring n z' where
  busy_iff := by rw [k.busy, k.cont]; exact h.busy_iff
  transfers := by rw [k.cont]; exact h.transfers
  polls := by rw [k.cont, k.cfg]; exact h.polls
  stores := by rw [k.cont, k.rsp]; exact h.stores
  rsp_le := by rw [k.rsp]; exact h.rsp_le
  count := by rw [responseCount, k.op, k.a1]; exact h.count
  answered := by rw [k.busy, k.respPort, k.rsp]; exact h.answered

/-- Complete, nothing is pending and all bytes are there. -/
theorem Transferring.of_idle (h : Transferring n z) (hidle : z.busy = false) :
    z.cont = [] ∧ z.rsp.length = n ∧ z.respPort = some z.rsp := by
  have hnil : z.cont = [] := by
    by_contra hne
    simp [h.busy_iff.2 hne] at hidle
  have hstores := h.stores
  rw [hnil] at hstores
  have hfull : n - z.rsp.length = 0 := by simpa using (congrArg List.length hstores).symm
  have hle := h.rsp_le
  exact ⟨hnil, by omega, h.answered hidle⟩

theorem all_pollOk_microRest {op : MicroOp} {rest : List MicroOp} {s : State}
    (h : (op :: rest).all (pollOk s.cfg) = true) : (microRest op rest s).all (pollOk s.cfg) = true := by
  rw [List.all_cons, Bool.and_eq_true] at h
  obtain ⟨hop, hrest⟩ := h
  cases op <;> simp only [microRest, afterFlagCheck]
  case flagCheck f count =>
    split
    · exact hrest
    · next hgoes =>
      have hbudget : count + 1 < s.cfg.retryBudget := by simp at hgoes; exact hgoes.2
      simpa [pollOk, hbudget] using hrest
  case tickStart onFail =>
    split
    · exact hrest
    · exact List.all_eq_true.2 fun x hx => List.all_eq_true.1 hrest x (List.mem_of_mem_drop hx)
  case readTick | spinIter => split <;> simpa [pollOk] using hrest
  all_goals exact hrest

/-- The next store goes to the end of SEQ.RSP. -/
theorem Transferring.store_index {j : ℕ} {rest : List MicroOp} (h : Transferring n z)
    (hcont : z.cont = .receiveByte (some j) :: rest) :
    j = z.rsp.length ∧ z.rsp.length < n ∧ storeIndexes rest = List.range' (z.rsp.length + 1) (n - (z.rsp.length + 1)) := by
  have hstores := h.stores
  rw [hcont] at hstores
  obtain ⟨left, hleft⟩ : ∃ left, n - z.rsp.length = left + 1 := by
    refine Nat.exists_eq_succ_of_ne_zero fun hzero => ?_
    rw [hzero] at hstores
    cases hstores
  have hcons : j :: storeIndexes rest = z.rsp.length :: List.range' (z.rsp.length + 1) left := by
    rw [hleft] at hstores; exact hstores
  obtain ⟨hj, hrest⟩ := List.cons.inj hcons
  refine ⟨hj, by omega, hrest.trans ?_⟩
  congr 1; omega

/-- A ReceiveByte with a store appends RXDR. -/
theorem Transferring.rsp_receiveByte {j : ℕ} {rest : List MicroOp} (h : Transferring n z)
    (hcont : z.cont = .receiveByte (some j) :: rest) : (receiveByte (some j) z).rsp = z.rsp ++ [z.rxdr] := by
  rw [receiveByte_some_rsp, (h.store_index hcont).1, bufWrite_length_self]

/-- A transfer micro-step either stores RXDR at the end of SEQ.RSP, or leaves SEQ.RSP and the stores to come alone. -/
theorem Transferring.rsp_after {op : MicroOp} {rest : List MicroOp} (h : Transferring n z) (hcont : z.cont = op :: rest) :
    (microEffect op z).rsp.length ≤ n ∧ storeIndexes (microRest op rest z) =
        List.range' (microEffect op z).rsp.length (n - (microEffect op z).rsp.length) ∧
      ((microEffect op z).rsp = z.rsp ∨ (microEffect op z).rsp = z.rsp ++ [z.rxdr]) := by
  have hstores := h.stores
  have htransfer := h.transfers
  rw [hcont] at hstores htransfer
  have hop : isTransfer op = true := List.all_eq_true.1 htransfer op List.mem_cons_self
  cases op with
  | sendByte src => exact ⟨h.rsp_le, hstores, .inl rfl⟩
  | flagCheck f count =>
    refine ⟨h.rsp_le, ?_, .inl rfl⟩
    rw [microRest, afterFlagCheck]
    split <;> exact hstores
  | receiveByte dst =>
    cases dst with
    | none => exact ⟨h.rsp_le, hstores, .inl rfl⟩
    | some j =>
      obtain ⟨-, hlt, hrest⟩ := h.store_index hcont
      have hrsp : (microEffect (.receiveByte (some j)) z).rsp = z.rsp ++ [z.rxdr] := h.rsp_receiveByte hcont
      rw [hrsp, List.length_append, List.length_singleton, microRest_receiveByte]
      exact ⟨hlt, hrest, .inr rfl⟩
  | _ => cases hop

@[simp] theorem microEffect_op (op : MicroOp) (s : State) : (microEffect op s).op = s.op := by cases op <;> rfl
@[simp] theorem microEffect_a0 (op : MicroOp) (s : State) : (microEffect op s).a0 = s.a0 := by cases op <;> rfl
@[simp] theorem microEffect_a1 (op : MicroOp) (s : State) : (microEffect op s).a1 = s.a1 := by cases op <;> rfl

theorem responseCount_microEffect (op : MicroOp) (s : State) : responseCount (microEffect op s) = responseCount s := by
  rw [responseCount, microEffect_op, microEffect_a1, responseCount]

theorem Transferring.microStep {op : MicroOp} {rest : List MicroOp} (h : Transferring n z) (hbusy : z.busy = true)
    (hcont : z.cont = op :: rest) : Transferring n (continueWith (microRest op rest z) (microEffect op z)) := by
  obtain ⟨hle, hstores, -⟩ := h.rsp_after hcont
  refine ⟨?_, ?_, ?_, ?_, ?_, ?_, ?_⟩
  · exact busy_iff_continueWith ((microEffect_busy op z).trans hbusy) _
  · rw [continueWith_cont]; exact all_microRest (P := isTransfer) (fun _ _ _ => rfl) (fun _ h => h) (hcont ▸ h.transfers) z
  · rw [continueWith_cont, continueWith_cfg, microEffect_cfg]; exact all_pollOk_microRest (hcont ▸ h.polls)
  · rw [continueWith_cont, continueWith_rsp]; exact hstores
  · rw [continueWith_rsp]; exact hle
  · rw [responseCount, continueWith_op, continueWith_a1]; exact (responseCount_microEffect op z).trans h.count
  · intro hidle
    rw [continueWith_busy, microEffect_busy, hbusy] at hidle
    have hnil : microRest op rest z = [] := by simpa using hidle
    have hcount := (responseCount_microEffect op z).trans h.count
    rw [continueWith_respPort, if_pos hnil, continueWith_rsp, response_eq_take, hcount, List.take_of_length_le hle]

/-- A step during the command: not refused, and progress. -/
theorem Transferring.turnStep (h : Transferring n z) {t : Turn} (ht : t ≠ .host ∧ t.isReset = false) :
    ∃ z', turnStep t z = .next z' ∧ Transferring n z' ∧ z'.cfg = z.cfg ∧
      Progress z.cfg z.cont (performed t z) z'.cont := by
  by_cases hseq : t = .seq
  · subst hseq
    cases hbusy : z.busy with
    | false => exact ⟨z, seqStep_idle z hbusy, h, rfl, by rw [performed_of_idle hbusy]; exact .refl _ _⟩
    | true =>
      obtain ⟨op, rest, hcont⟩ := List.exists_cons_of_ne_nil (h.busy_iff.1 hbusy)
      have hop : isTransfer op = true := List.all_eq_true.1 h.transfers op (by simp [hcont])
      have hpoll : pollOk z.cfg op = true := List.all_eq_true.1 h.polls op (by simp [hcont])
      have hinit : op ≠ .applyInit := by rintro rfl; cases hop
      refine ⟨_, turnStep_seq_cons hbusy hcont hinit, h.microStep hbusy hcont, by simp, ?_⟩
      rw [performed_seq_cons hbusy hcont, continueWith_cont, hcont]
      exact progress_microRest hop hpoll
  · obtain ⟨z', hstep⟩ : ∃ z', Machine.turnStep t z = .next z' := by
      cases t with
      | host => exact absurd rfl ht.1
      | seq => exact absurd rfl hseq
      | rst params => cases ht.2
      | shifter => exact ⟨_, rfl⟩
      | tick => exact ⟨_, rfl⟩
    have hsame := turnStep_seqSame hstep ht hseq
    refine ⟨z', hstep, h.of_same hsame, hsame.cfg, ?_⟩
    rw [performed_of_ne_seq hseq, hsame.cont]
    exact .refl _ _

/-- While the command is in execution every SEQ step performs a micro-step; once complete it stays so. -/
theorem busy_of_turnStep {t : Turn} (ht : t ≠ .host ∧ t.isReset = false) (hstep : Machine.turnStep t z = .next z')
    (hbusy : z'.busy = true) : z.busy = true := by
  by_cases hseq : t = .seq
  · subst hseq
    obtain ⟨-, rfl⟩ | ⟨hz, -, -⟩ | ⟨_, _, hz, -, -, -⟩ := seqStep_cases hstep
    · exact hbusy
    · exact hz
    · exact hz
  · rwa [(turnStep_seqSame hstep ht hseq).busy] at hbusy

/-- A run during the command: not refused, and progress. -/
theorem Transferring.runTurns {ts : List Turn} (hts : DuringCommand ts) (h : Transferring n z) :
    ∃ u, runTurns ts z = .next u ∧ Transferring n u ∧ Progress z.cfg z.cont (microTrace ts z) u.cont ∧
      (u.busy = true → ts.count .seq ≤ (microTrace ts z).length ∧ z.busy = true) := by
  induction ts generalizing z with
  | nil => exact ⟨z, rfl, h, .refl _ _, fun hbusy => ⟨Nat.zero_le _, hbusy⟩⟩
  | cons t ts ih =>
    obtain ⟨ht, hrest⟩ := List.forall_mem_cons.mp hts
    obtain ⟨z', hstep, hz', hcfg, hprogress⟩ := h.turnStep ht
    obtain ⟨u, hrun, hu, hprogress', hsteps⟩ := ih hrest hz'
    refine ⟨u, by rw [runTurns_cons_next hstep, hrun], hu, ?_, fun hbusy => ?_⟩
    · rw [microTrace_cons_next hstep]
      exact hprogress.trans (hcfg ▸ hprogress')
    · obtain ⟨hcount, hz'busy⟩ := hsteps hbusy
      have hzbusy := busy_of_turnStep ht hstep hz'busy
      refine ⟨?_, hzbusy⟩
      rw [microTrace_cons_next hstep, List.length_append, List.count_cons]
      by_cases hseq : t = .seq
      · subst hseq
        obtain ⟨op, rest, hcont⟩ := List.exists_cons_of_ne_nil (h.busy_iff.1 hzbusy)
        rw [performed_seq_cons hzbusy hcont]
        simp; omega
      · simp [hseq]; omega

/-- With as many SEQ steps as the pending micro-steps can take the command completes. -/
theorem Transferring.completes {ts : List Turn} (hts : DuringCommand ts) (h : Transferring n z)
    (hsteps : stepsLeft z.cfg z.cont ≤ ts.count .seq) :
    ∃ u, Machine.runTurns ts z = .next u ∧ u.busy = false ∧ Transferring n u ∧
      Progress z.cfg z.cont (microTrace ts z) [] := by
  obtain ⟨u, hrun, hu, hprogress, hcount⟩ := h.runTurns hts
  have hidle : u.busy = false := by
    by_contra hbusy
    obtain ⟨hle, -⟩ := hcount (Bool.eq_true_of_not_eq_false hbusy)
    have hcfg : u.cfg = z.cfg :=
      runTurns_invariant (fun x => x.cfg = z.cfg)
        (fun a ha _ _ hx hstep => (turnStep_keepsSetup hstep (hts a ha).2).cfg.trans hx) rfl hrun
    have hpos := stepsLeft_pos hu.transfers (hcfg ▸ hu.polls) (hu.busy_iff.1 (Bool.eq_true_of_not_eq_false hbusy))
    have hlen := hprogress.length_add_stepsLeft_le
    omega
  obtain ⟨hnil, -, -⟩ := hu.of_idle hidle
  exact ⟨u, hrun, hidle, hu, hnil ▸ hprogress⟩

end

/-! ### The programs of the four commands -/

theorem countP_flatMap_range {q : MicroOp → Bool} {body : ℕ → List MicroOp} {c : ℕ} (hc : ∀ i, (body i).countP q = c)
    (n : ℕ) :
    ((List.range n).flatMap body).countP q = n * c := by
  induction n with
  | zero => simp
  | succ n ih => rw [List.range_succ, List.flatMap_append, List.countP_append, ih]; simp [hc]; ring

theorem checksLeft_flatMap_range {p : Params} {body : ℕ → List MicroOp} {c : ℕ} (hc : ∀ i, checksLeft p (body i) = c)
    (n : ℕ) :
    checksLeft p ((List.range n).flatMap body) = n * c := by
  induction n with
  | zero => simp
  | succ n ih => rw [List.range_succ, List.flatMap_append, checksLeft_append, ih]; simp [hc]; ring

theorem checksLeft_writeByteProc (p : Params) (src : ByteSrc) : checksLeft p (writeByteProc src) = p.retryBudget := by
  simp [writeByteProc, pollFlag, checkWeight]

theorem checksLeft_exchangeByte (p : Params) (src : ByteSrc) (dst : Option ℕ) :
    checksLeft p (exchangeByte src dst) = 2 * p.retryBudget := by
  simp [exchangeByte, readByteProc, checksLeft_writeByteProc, pollFlag, checkWeight]; ring

theorem counts_transmitLoop (p : Params) (n : ℕ) :
    (transmitLoop n).countP isSend = n ∧ (transmitLoop n).countP isReceive = 0 ∧ (transmitLoop n).countP isFlagCheck = n ∧
      checksLeft p (transmitLoop n) = n * p.retryBudget := by
  refine ⟨?_, ?_, ?_, checksLeft_flatMap_range (fun i => checksLeft_writeByteProc p (.txbuf i)) n⟩
  · exact (countP_flatMap_range (c := 1) (fun _ => rfl) n).trans (Nat.mul_one n)
  · exact countP_flatMap_range (c := 0) (fun _ => rfl) n
  · exact (countP_flatMap_range (c := 1) (fun _ => rfl) n).trans (Nat.mul_one n)

theorem counts_receiveLoop (p : Params) (n : ℕ) :
    (receiveLoop n).countP isSend = n ∧ (receiveLoop n).countP isReceive = n ∧ (receiveLoop n).countP isFlagCheck = n * 2 ∧
      checksLeft p (receiveLoop n) = n * (2 * p.retryBudget) := by
  refine ⟨?_, ?_, ?_, checksLeft_flatMap_range (fun i => checksLeft_exchangeByte p .dummy (some i)) n⟩
  · exact (countP_flatMap_range (c := 1) (fun _ => rfl) n).trans (Nat.mul_one n)
  · exact (countP_flatMap_range (c := 1) (fun _ => rfl) n).trans (Nat.mul_one n)
  · exact countP_flatMap_range (c := 2) (fun _ => rfl) n

/-- The table of 42_transactions.md R168 counts the micro-steps of the programs. -/
theorem counts_commandProgram (p : Params) {i : Instr} (hi : isTransaction i = true) :
    ((commandProgram p i).countP isSend, (commandProgram p i).countP isReceive, (commandProgram p i).countP isFlagCheck,
      checksLeft p (commandProgram p i)) = transactionCounts p.retryBudget i := by
  cases i
  case wrb value =>
    simp only [commandProgram, transactionCounts, checksLeft_writeByteProc]
    rfl
  case rd command length =>
    obtain ⟨hs, hr, hf, hc⟩ := counts_receiveLoop p length.toNat
    have hs1 : (exchangeByte .value none).countP isSend = 1 := rfl
    have hr1 : (exchangeByte .value none).countP isReceive = 1 := rfl
    have hf1 : (exchangeByte .value none).countP isFlagCheck = 2 := rfl
    simp only [commandProgram, transactionCounts, List.countP_append, checksLeft_append, checksLeft_exchangeByte, hs, hr, hf, hc,
      hs1, hr1, hf1, Prod.mk.injEq]
    refine ⟨by ring, by ring, by ring, by ring⟩
  case wra data =>
    obtain ⟨hs, hr, hf, hc⟩ := counts_transmitLoop p data.length
    simp only [commandProgram, transactionCounts, hs, hr, hf, hc]
  case wrrd data rxlen =>
    obtain ⟨hs, hr, hf, hc⟩ := counts_transmitLoop p data.length
    obtain ⟨hs', hr', hf', hc'⟩ := counts_receiveLoop p rxlen.toNat
    simp only [commandProgram, transactionCounts, List.countP_append, checksLeft_append, hs, hr, hf, hc, hs', hr', hf', hc',
      Nat.zero_add, Prod.mk.injEq, true_and]
    refine ⟨by ring, by ring⟩
  all_goals cases hi

/-- The bound of the table is what the program can take. -/
theorem stepsLeft_commandProgram {p : Params} {i : Instr} (hi : isTransaction i = true) {bound : ℕ}
    (hbound : maxMicroSteps p i = some bound) : stepsLeft p (commandProgram p i) = bound := by
  have hcounts := counts_commandProgram p hi
  simp only [stepsLeft]
  cases i
  case wrb | rd | wra | wrrd =>
    simp only [transactionCounts, Prod.mk.injEq] at hcounts
    obtain ⟨hs, hr, -, hc⟩ := hcounts
    rw [hs, hr, hc]
    simp only [maxMicroSteps, Option.some.injEq] at hbound
    subst hbound
    ring
  all_goals cases hi

theorem all_pollOk_commandProgram (p : Params) {i : Instr} (hi : isTransaction i = true) :
    (commandProgram p i).all (pollOk p) = true := by
  have hw (src : ByteSrc) : (writeByteProc src).all (pollOk p) = true := by simp [writeByteProc, pollFlag, pollOk]
  have hx (src : ByteSrc) (dst : Option ℕ) : (exchangeByte src dst).all (pollOk p) = true := by
    rw [exchangeByte, List.all_append, hw]; simp [readByteProc, pollFlag, pollOk]
  have ht (n : ℕ) : (transmitLoop n).all (pollOk p) = true := by
    rw [transmitLoop, List.all_flatMap, List.all_eq_true]; exact fun i _ => hw _
  have hr (n : ℕ) : (receiveLoop n).all (pollOk p) = true := by
    rw [receiveLoop, List.all_flatMap, List.all_eq_true]; exact fun i _ => hx _ _
  cases i
  case wrb value => exact hw .value
  case rd command length => rw [commandProgram, List.all_append, hx, hr]; rfl
  case wra data => exact ht data.length
  case wrrd data rxlen => rw [commandProgram, List.all_append, ht, hr]; rfl
  all_goals cases hi

@[simp] theorem storeIndexes_append (as bs : List MicroOp) : storeIndexes (as ++ bs) = storeIndexes as ++ storeIndexes bs :=
  List.filterMap_append

theorem storeIndexes_transmitLoop (n : ℕ) : storeIndexes (transmitLoop n) = [] := by
  rw [storeIndexes, transmitLoop, List.filterMap_flatMap]
  exact List.flatMap_eq_nil_iff.2 fun _ _ => rfl

theorem storeIndexes_receiveLoop (n : ℕ) : storeIndexes (receiveLoop n) = List.range n := by
  rw [storeIndexes, receiveLoop, List.filterMap_flatMap]
  exact List.flatMap_singleton' (List.range n)

/-- The stores of a program fill the response from its beginning. -/
theorem storeIndexes_commandProgram (p : Params) {i : Instr} (hi : isTransaction i = true) :
    storeIndexes (commandProgram p i) = List.range (responseLength i) := by
  cases i
  case wrb value => rfl
  case rd command length => rw [commandProgram, storeIndexes_append, storeIndexes_receiveLoop]; rfl
  case wra data => exact storeIndexes_transmitLoop data.length
  case wrrd data rxlen =>
    rw [commandProgram, storeIndexes_append, storeIndexes_transmitLoop, storeIndexes_receiveLoop]; rfl
  all_goals cases hi

/-- The issue of a transaction command begins its execution. -/
theorem transferring_of_exec {i : Instr} {s t : State} (hi : isTransaction i = true) (hexec : exec i s = .next t) :
    Transferring (responseLength i) t := by
  obtain ⟨-, rfl⟩ := exec_eq_latched_cases hexec
  have hrsp : (continueWith (commandProgram s.cfg i) (latched i s)).rsp = [] := continueWith_rsp _ _
  have hcount : responseCount (latched i s) = responseLength i := by cases i <;> rfl
  refine ⟨busy_iff_continueWith rfl _, ?_, ?_, ?_, ?_, ?_, ?_⟩
  · rw [continueWith_cont]; exact all_isTransfer_commandProgram s.cfg hi
  · rw [continueWith_cont, continueWith_cfg, latched_eq]; exact all_pollOk_commandProgram s.cfg hi
  · rw [continueWith_cont, hrsp, storeIndexes_commandProgram s.cfg hi]; exact List.range_eq_range'
  · rw [hrsp]; exact Nat.zero_le _
  · rw [responseCount, continueWith_op, continueWith_a1]; exact hcount
  · intro hidle
    rw [continueWith_busy] at hidle
    have hnil : commandProgram s.cfg i = [] := by simpa [latched] using hidle
    rw [hrsp, continueWith_respPort, if_pos hnil, response_of_rsp_nil rfl]

/-- Settles O22: a SEQ step of a busy sequencer performs one of the micro-steps still to come, of which R168 counts at most
`bound`. -/
theorem transactionsCompleteWithinBudget : Obligations.TransactionsCompleteWithinBudget := by
  unfold Obligations.TransactionsCompleteWithinBudget
  intro i s ts bound hi hidle hbound hts hsteps
  have hexec := exec_eq_latched (i := i) hidle
  have hstart := transferring_of_exec hi hexec
  have hprogram : (continueWith (commandProgram s.cfg i) (latched i s)).cont = commandProgram s.cfg i := continueWith_cont _ _
  have hcfg : (continueWith (commandProgram s.cfg i) (latched i s)).cfg = s.cfg := by rw [continueWith_cfg, latched_eq]
  have hleft := stepsLeft_commandProgram hi hbound
  obtain ⟨u, hrun, hu, hend, hprogress⟩ := hstart.completes hts (by rw [hprogram, hcfg, hleft]; exact hsteps)
  rw [hprogram, hcfg] at hprogress
  obtain ⟨-, hlen, hport⟩ := hend.of_idle hu
  have hmost := hprogress.length_add_stepsLeft_le
  have hsend := hprogress.countP_isSend
  have hreceive := hprogress.countP_isReceive
  have hleast := hprogress.checks_least
  have hchecks := hprogress.checks_most
  simp only [List.countP_nil, checksLeft_nil, Nat.add_zero] at hsend hreceive hleast hchecks
  rw [← counts_commandProgram s.cfg hi]
  exact ⟨_, u, u.rsp, hexec, hrun, hu, hport, hlen, by omega, hsend, hreceive, hleast, hchecks⟩

/-! ### RD's micro-steps in order -/

theorem filter_isSend_receiveLoop (n : ℕ) : (receiveLoop n).filter isSend = List.replicate n (.sendByte .dummy) := by
  rw [receiveLoop, List.filter_flatMap]
  calc (List.range n).flatMap (fun i => (exchangeByte .dummy (some i)).filter isSend)
      = (List.range n).map fun _ => MicroOp.sendByte .dummy := (List.map_eq_flatMap ..).symm
    _ = _ := by rw [List.map_const', List.length_range]

theorem filter_isReceive_receiveLoop (n : ℕ) :
    (receiveLoop n).filter isReceive = (List.range n).map fun j => .receiveByte (some j) := by
  rw [receiveLoop, List.filter_flatMap]
  exact (List.map_eq_flatMap ..).symm

/-- Settles O23: a completed command has performed the SendBytes and the ReceiveBytes of its program, in order. -/
theorem rdSendsCommandThenDummies : Obligations.RdSendsCommandThenDummies := by
  unfold Obligations.RdSendsCommandThenDummies
  intro s t u command length ts hexec hts hrun hidle
  obtain ⟨u', hrun', hu, hprogress, -⟩ := (transferring_of_exec rfl hexec).runTurns hts
  obtain rfl : u' = u := by rw [hrun] at hrun'; cases hrun'; rfl
  obtain ⟨hnil, -, -⟩ := hu.of_idle hidle
  have hprogram : t.cont = exchangeByte .value none ++ receiveLoop length.toNat := by
    obtain ⟨-, rfl⟩ := exec_eq_latched_cases hexec
    exact continueWith_cont _ _
  have hsends := hprogress.sends
  have hreceives := hprogress.receives
  rw [hnil, hprogram, List.filter_nil, List.append_nil, List.filter_append] at hsends hreceives
  rw [filter_isSend_receiveLoop] at hsends
  rw [filter_isReceive_receiveLoop] at hreceives
  exact ⟨hsends, hreceives, readByteSrc_value_of_exec_rd hexec, rfl⟩

end Sys2Proof.Machine
end

section
/-! RD of a peripheral that is not clocked or not enabled (42_transactions.md R169). -/

namespace Sys2Proof.Machine

/-! ### Polls whose flag is never seen -/

/-- A check that does not end its poll by the flag takes exactly one of the checks left. -/
theorem checksLeft_microRest_of_unset {op : MicroOp} {rest : List MicroOp} {s : State} (hop : isTransfer op = true)
    (hpoll : pollOk s.cfg op = true) (hunset : ∀ f k, op = .flagCheck f k → flagValue f s = false) :
    [op].countP isFlagCheck + checksLeft s.cfg (microRest op rest s) = checksLeft s.cfg (op :: rest) := by
  cases op with
  | sendByte src => simp [isFlagCheck, checkWeight]
  | receiveByte dst => simp [isFlagCheck, checkWeight]
  | flagCheck f count =>
    have hcount : count < s.cfg.retryBudget := of_decide_eq_true hpoll
    have hflag := hunset f count rfl
    rw [microRest]
    by_cases hlast : s.cfg.retryBudget ≤ count + 1
    · rw [afterFlagCheck_of_ends rest (.inr hlast)]
      simp [isFlagCheck, checkWeight]; omega
    · rw [afterFlagCheck_of_continues rest hflag (by omega)]
      simp [isFlagCheck, checkWeight]; omega
  | _ => cases hop

/-! ### The byte that is sent last -/

/-- TXDR at the end of the command: what the last SendByte to come sends, and TXDR itself when none is to come. -/
def lastByte (z : State) : Byte :=
  match (z.cont.filter isSend).getLast? with
  | some (.sendByte src) => readByteSrc src z
  | _ => z.txdr

theorem lastByte_of_cont_nil {z : State} (hnil : z.cont = []) : lastByte z = z.txdr := by
  rw [lastByte, hnil]; rfl

theorem lastByte_of_same {z z' : State} (k : SeqSame z z') (htxdr : z'.txdr = z.txdr) : lastByte z' = lastByte z := by
  have hsrc (src : ByteSrc) : readByteSrc src z' = readByteSrc src z := by
    cases src with
    | value => rw [readByteSrc, k.a0, readByteSrc]
    | dummy => rfl
    | txbuf i => rw [readByteSrc, k.txbuf, readByteSrc]
  rw [lastByte, k.cont, htxdr, lastByte]
  simp only [hsrc]

theorem readByteSrc_microEffect (src : ByteSrc) (op : MicroOp) (s : State) :
    readByteSrc src (microEffect op s) = readByteSrc src s := by
  cases src with
  | value => rw [readByteSrc, microEffect_a0, readByteSrc]
  | dummy => rfl
  | txbuf i => rw [readByteSrc, microEffect_txbuf, readByteSrc]

theorem readByteSrc_continueWith (src : ByteSrc) (rest : List MicroOp) (s : State) :
    readByteSrc src (continueWith rest s) = readByteSrc src s := by
  cases src with
  | value => rw [readByteSrc, continueWith_a0, readByteSrc]
  | dummy => rfl
  | txbuf i => rw [readByteSrc, continueWith_txbuf, readByteSrc]

/-- Transfers do not change which byte is last. -/
theorem lastByte_microStep {op : MicroOp} {rest : List MicroOp} {z : State} (hcont : z.cont = op :: rest)
    (hop : isTransfer op = true) : lastByte (continueWith (microRest op rest z) (microEffect op z)) = lastByte z := by
  rw [lastByte, lastByte, hcont]
  simp only [readByteSrc_continueWith, readByteSrc_microEffect, continueWith_cont, continueWith_txdr]
  cases op with
  | receiveByte dst => rfl
  | flagCheck f count =>
    have hsends : (microRest (.flagCheck f count) rest z).filter isSend = rest.filter isSend := by
      rw [microRest, afterFlagCheck]; split <;> rfl
    rw [hsends]; rfl
  | sendByte src =>
    have hcons : (MicroOp.sendByte src :: rest).filter isSend = .sendByte src :: rest.filter isSend := rfl
    rw [hcons, List.getLast?_cons, microRest_sendByte]
    cases hlast : (rest.filter isSend).getLast? with
    | none => rfl
    | some x =>
      obtain ⟨src', rfl⟩ : ∃ src', x = .sendByte src' := by
        have hx : isSend x = true := (List.mem_filter.1 (List.mem_of_getLast? hlast)).2
        cases x with
        | sendByte src' => exact ⟨src', rfl⟩
        | _ => cases hx
      rfl
  | _ => cases hop

/-! ### A command that no frame serves -/

/-- RD's execution with SHIFTER unable to start a frame: RXDR holds `x`, which is all that is stored, no flag that is polled is set
once a byte has been sent, and the frame events stay `base`. -/
structure Unserved (x last : Byte) (base : List Event) (z : State) : Prop where
  unready : spicfgSpe z = false ∨ clkenSpi z = false
  shbusy : z.shbusy = false
  rxne : z.rxne = false
  rxdr : z.rxdr = x
  events : frameEvents z = base
  rsp : z.rsp = List.replicate z.rsp.length x
  last : lastByte z = last
  sent : z.txpend = true ∨ ∃ src rest, z.cont = .sendByte src :: rest

section
variable {x last : Byte} {base : List Event} {z z' : State} {n : ℕ}

theorem Unserved.shifterStep (h : Unserved x last base z) : Machine.shifterStep z = z := by
  refine shifterStep_of_none_enabled ?_ (by simp [edgeEnabled, h.shbusy]) (by simp [endEnabled, h.shbusy])
  obtain hoff | hoff := h.unready <;> simp [loadEnabled, hoff]

theorem Unserved.tickStep (h : Unserved x last base z) : Unserved x last base (tickStep z) where
  unready := by rw [spicfgSpe, clkenSpi, tickStep_eq]; exact h.unready
  shbusy := (tickStep_shbusy z).trans h.shbusy
  rxne := (tickStep_rxne z).trans h.rxne
  rxdr := (tickStep_rxdr z).trans h.rxdr
  events := (frameEvents_tickStep z).trans h.events
  rsp := by rw [(tickStep_seqSame z).rsp]; exact h.rsp
  last := (lastByte_of_same (tickStep_seqSame z) (tickStep_txdr z)).trans h.last
  sent := by rw [tickStep_txpend, tickStep_cont]; exact h.sent

/-- Neither flag is set when it is polled: TXPEND keeps TXE 0, and no END has set RXNE. -/
theorem Unserved.flagValue_eq_false (h : Unserved x last base z) {f : Flag} {k : ℕ} {rest : List MicroOp}
    (hcont : z.cont = .flagCheck f k :: rest) : flagValue f z = false := by
  cases f with
  | rxne => exact h.rxne
  | txe =>
    obtain hpend | ⟨src, rest', hsend⟩ := h.sent
    · exact txe_of_txpend hpend
    · rw [hcont] at hsend; cases hsend

theorem microEffect_of_isTransfer {op : MicroOp} (hop : isTransfer op = true) (s : State) :
    (microEffect op s).spicfg = s.spicfg ∧ (microEffect op s).clken = s.clken ∧ (microEffect op s).rxdr = s.rxdr ∧
      frameEvents (microEffect op s) = frameEvents s := by
  cases op with
  | sendByte src => exact ⟨rfl, rfl, rfl, rfl⟩
  | receiveByte dst => exact ⟨rfl, rfl, rfl, rfl⟩
  | flagCheck f count => exact ⟨rfl, rfl, rfl, rfl⟩
  | _ => cases hop

theorem Unserved.microStep (h : Unserved x last base z) (ht : Transferring n z) {op : MicroOp} {rest : List MicroOp}
    (hcont : z.cont = op :: rest) (hop : isTransfer op = true) :
    Unserved x last base (continueWith (microRest op rest z) (microEffect op z)) := by
  obtain ⟨hspi, hclk, hrxdr, hevents⟩ := microEffect_of_isTransfer hop z
  obtain ⟨-, -, hrsp⟩ := ht.rsp_after hcont
  refine ⟨?_, ?_, ?_, ?_, ?_, ?_, ?_, .inl ?_⟩
  · rw [spicfgSpe, clkenSpi, continueWith_spicfg, continueWith_clken, hspi, hclk]; exact h.unready
  · rw [continueWith_shbusy, microEffect_shbusy]; exact h.shbusy
  · rw [continueWith_rxne, microEffect_rxne, h.rxne, Bool.and_false]
  · rw [continueWith_rxdr, hrxdr]; exact h.rxdr
  · rw [frameEvents_continueWith, hevents]; exact h.events
  · rw [continueWith_rsp]
    obtain hsame | hstored := hrsp
    · rw [hsame]; exact h.rsp
    · rw [hstored, h.rxdr, List.length_append, List.length_singleton, List.replicate_succ', ← h.rsp]
  · rw [lastByte_microStep hcont hop]; exact h.last
  · rw [continueWith_txpend, microEffect_txpend]
    obtain hpend | ⟨src, rest', hsend⟩ := h.sent
    · rw [hpend, Bool.or_true]
    · obtain ⟨rfl, -⟩ := List.cons.inj (hcont.symm.trans hsend)
      rfl

/-- A step during the command: nothing is served, and every FlagChecks left is taken one by one. -/
theorem Unserved.turnStep (h : Unserved x last base z) (ht : Transferring n z) {t : Turn}
    (hagent : t ≠ .host ∧ t.isReset = false)
    (hstep : turnStep t z = .next z') : Unserved x last base z' ∧
      (performed t z).countP isFlagCheck + checksLeft z.cfg z'.cont = checksLeft z.cfg z.cont := by
  cases t with
  | host => exact absurd rfl hagent.1
  | rst params => cases hagent.2
  | shifter =>
    cases hstep
    rw [h.shifterStep, performed_of_ne_seq (by decide)]
    exact ⟨h, Nat.zero_add _⟩
  | tick =>
    cases hstep
    rw [tickStep_cont, performed_of_ne_seq (by decide)]
    exact ⟨h.tickStep, Nat.zero_add _⟩
  | seq =>
    cases hbusy : z.busy with
    | false =>
      rw [turnStep_seq, seqStep_idle z hbusy] at hstep
      cases hstep
      rw [performed_of_idle hbusy]
      exact ⟨h, Nat.zero_add _⟩
    | true =>
      obtain ⟨op, rest, hcont⟩ := List.exists_cons_of_ne_nil (ht.busy_iff.1 hbusy)
      have hop : isTransfer op = true := List.all_eq_true.1 ht.transfers op (by simp [hcont])
      have hpoll : pollOk z.cfg op = true := List.all_eq_true.1 ht.polls op (by simp [hcont])
      rw [turnStep_seq_cons hbusy hcont (by rintro rfl; cases hop)] at hstep
      cases hstep
      refine ⟨h.microStep ht hcont hop, ?_⟩
      rw [performed_seq_cons hbusy hcont, continueWith_cont, hcont]
      exact checksLeft_microRest_of_unset hop hpoll fun f k hf => h.flagValue_eq_false (hf ▸ hcont)

theorem Unserved.runTurns {ts : List Turn} (hts : DuringCommand ts) {u : State} (h : Unserved x last base z)
    (ht : Transferring n z) (hrun : runTurns ts z = .next u) : Unserved x last base u ∧
      (microTrace ts z).countP isFlagCheck + checksLeft z.cfg u.cont = checksLeft z.cfg z.cont := by
  induction ts generalizing z with
  | nil => cases hrun; exact ⟨h, Nat.zero_add _⟩
  | cons t ts ih =>
    obtain ⟨hagent, hrest⟩ := List.forall_mem_cons.mp hts
    obtain ⟨z', hstep, ht', hcfg, -⟩ := ht.turnStep hagent
    rw [runTurns_cons_next hstep] at hrun
    obtain ⟨h', hcount⟩ := h.turnStep ht hagent hstep
    obtain ⟨hu, hcount'⟩ := ih hrest h' ht' hrun
    refine ⟨hu, ?_⟩
    rw [microTrace_cons_next hstep, List.countP_append]
    rw [hcfg] at hcount'
    omega

end

/-- What RD sends last. -/
theorem lastByte_of_exec_rd {command length : Byte} {s t : State} (hexec : exec (.rd command length) s = .next t) :
    lastByte t = if length = 0 then command else 0xFF := by
  have hvalue := readByteSrc_value_of_exec_rd hexec
  obtain ⟨-, rfl⟩ := exec_eq_latched_cases hexec
  have hsends : (commandProgram s.cfg (.rd command length)).filter isSend =
      .sendByte .value :: List.replicate length.toNat (.sendByte .dummy) := by
    rw [commandProgram, List.filter_append, filter_isSend_receiveLoop]; rfl
  rw [lastByte, continueWith_cont, hsends]
  by_cases hzero : length = 0
  · rw [if_pos hzero, hzero]
    exact hvalue
  · obtain ⟨m, hm⟩ : ∃ m, length.toNat = m + 1 :=
      Nat.exists_eq_succ_of_ne_zero fun h => hzero (BitVec.eq_of_toNat_eq h)
    rw [if_neg hzero, hm, List.replicate_succ', ← List.cons_append, List.getLast?_append]
    rfl

/-- Settles O29: no frame begins, so no poll sees its flag, and every byte stored is the one that RXDR holds. -/
theorem rdOfUnreadyPeripheralReturnsStaleData : Obligations.RdOfUnreadyPeripheralReturnsStaleData := by
  unfold Obligations.RdOfUnreadyPeripheralReturnsStaleData
  intro s command length ts hidle hoff hshift hrxne hts hsteps
  have hexec := exec_eq_latched (i := .rd command length) hidle
  have hstart := transferring_of_exec rfl hexec
  have hprogram : (continueWith (commandProgram s.cfg (.rd command length)) (latched (.rd command length) s)).cont =
      commandProgram s.cfg (.rd command length) := continueWith_cont _ _
  have hcfg : (continueWith (commandProgram s.cfg (.rd command length)) (latched (.rd command length) s)).cfg = s.cfg := by
    rw [continueWith_cfg, latched_eq]
  have hleft : stepsLeft s.cfg (commandProgram s.cfg (.rd command length)) = _ :=
    stepsLeft_commandProgram (i := .rd command length) rfl rfl
  have hcounts := counts_commandProgram s.cfg (i := .rd command length) rfl
  simp only [transactionCounts, Prod.mk.injEq] at hcounts
  obtain ⟨hsends, hreceives, -, hchecks⟩ := hcounts
  obtain ⟨u, hrun, hu, hend, hprogress⟩ := hstart.completes hts (by rw [hprogram, hcfg, hleft]; exact hsteps)
  obtain ⟨hnil, hlen, hport⟩ := hend.of_idle hu
  have hunserved : Unserved s.rxdr (if length = 0 then command else 0xFF) (frameEvents s)
      (continueWith (commandProgram s.cfg (.rd command length)) (latched (.rd command length) s)) :=
    ⟨hoff, hshift, hrxne, rfl, frameEvents_continueWith _ _, rfl, lastByte_of_exec_rd hexec, .inr ⟨_, _, hprogram⟩⟩
  obtain ⟨hfinal, hexact⟩ := hunserved.runTurns hts hstart hrun
  have hsend := hprogress.countP_isSend
  have hreceive := hprogress.countP_isReceive
  rw [hprogram, List.countP_nil, Nat.add_zero] at hsend hreceive
  rw [hprogram, hcfg, hnil, checksLeft_nil, Nat.add_zero] at hexact
  have hpend : u.txpend = true := hfinal.sent.resolve_right fun ⟨src, rest, hcont⟩ => by rw [hnil] at hcont; cases hcont
  refine ⟨_, u, hexec, hrun, hu, ?_, hfinal.rxdr, hfinal.rxne, hpend, ?_, hfinal.shbusy, hfinal.events, hsend.trans hsends,
    hexact.trans hchecks, hreceive.trans hreceives⟩
  · rw [hport, hfinal.rsp, hlen]; rfl
  · rw [← lastByte_of_cont_nil hnil]; exact hfinal.last

end Sys2Proof.Machine
end

section
/-! Responsive runs: one frame per SendByte, whose END every poll sees (42_transactions.md R165 to R167). -/

namespace Sys2Proof.Machine

/-! ### The rest of a responsive run -/

/-- A responsive run from `z`, by the agents of `ts`, to the completion in `u` of a transaction command that answers `n` bytes. -/
structure RunsTo (n : ℕ) (u : State) (ts : List Turn) (z : State) : Prop where
  during : DuringCommand ts
  run : runTurns ts z = .next u
  idle : u.busy = false
  transferring : Transferring n z
  inited : Inited z
  within : framesEndWithin (fun p => p.retryBudget - 1) ts z = true

section
variable {n : ℕ} {u z : State}

/-- Its first step leads to a run of the same kind. -/
theorem RunsTo.cons {t : Turn} {ts : List Turn} (h : RunsTo n u (t :: ts) z) :
    ∃ z', turnStep t z = .next z' ∧ RunsTo n u ts z' ∧ (t ≠ .host ∧ t.isReset = false) ∧ z'.cfg = z.cfg ∧
      ((performed t z).any isSend = true → frameEnds (z.cfg.retryBudget - 1) false ts z' = true) := by
  obtain ⟨ht, hrest⟩ := List.forall_mem_cons.mp h.during
  obtain ⟨z', hstep, hz', hcfg, -⟩ := h.transferring.turnStep ht
  have hwithin := h.within
  rw [framesEndWithin_cons_next hstep, Bool.and_eq_true] at hwithin
  obtain ⟨hsend, hwithin'⟩ := hwithin
  have hrun := h.run
  rw [runTurns_cons_next hstep] at hrun
  refine ⟨z', hstep, ⟨hrest, hrun, h.idle, hz', (turnStep_keepsSetup hstep ht.2).inited h.inited, hwithin'⟩, ht, hcfg,
    fun hany => ?_⟩
  simpa [hany] using hsend

/-- With something pending the run has a step left. -/
theorem RunsTo.exists_cons {ts : List Turn} (h : RunsTo n u ts z) (hcont : z.cont ≠ []) : ∃ t ts', ts = t :: ts' := by
  cases ts with
  | cons t ts' => exact ⟨t, ts', rfl⟩
  | nil =>
    have hrun := h.run
    cases hrun
    have hbusy := h.transferring.busy_iff.2 hcont
    simp [h.idle] at hbusy

end

/-! ### While nothing is under way -/

theorem FrameSame.refl (z : State) : FrameSame z z := ⟨rfl, rfl, rfl, rfl, rfl, rfl, rfl⟩

theorem FrameSame.trans {z z' z'' : State} (h : FrameSame z z') (k : FrameSame z' z'') : FrameSame z z'' :=
  ⟨k.txpend.trans h.txpend, k.txdr.trans h.txdr, k.shbusy.trans h.shbusy, k.shtx.trans h.shtx, k.rxne.trans h.rxne,
    k.rxdr.trans h.rxdr, k.events.trans h.events⟩

theorem FrameSame.quiescent {z z' : State} (h : FrameSame z z') (hquiet : Quiescent z) : Quiescent z' :=
  ⟨h.txpend.trans hquiet.1, h.shbusy.trans hquiet.2⟩

/-- In a quiescent state SHIFTER and TICK touch neither the sequencer nor the wire. -/
theorem same_of_turnStep_of_quiescent {t : Turn} {z z' : State} (hquiet : Quiescent z) (ht : t ≠ .host ∧ t.isReset = false)
    (hseq : t ≠ .seq) (hstep : turnStep t z = .next z') : SeqSame z z' ∧ FrameSame z z' := by
  refine ⟨turnStep_seqSame hstep ht hseq, ?_⟩
  cases t with
  | host => exact absurd rfl ht.1
  | seq => exact absurd rfl hseq
  | rst params => cases ht.2
  | tick => cases hstep; exact tickStep_frameSame z
  | shifter => cases hstep; rw [shifterStep_quiescent z hquiet.1 hquiet.2]; exact .refl z

section
variable {n : ℕ} {u z : State} {ts : List Turn}

/-- From a quiescent state with a micro-step pending the run goes on to SEQ's next step. -/
theorem RunsTo.to_seq (h : RunsTo n u ts z) (hquiet : Quiescent z) (hcont : z.cont ≠ []) :
    ∃ after x, RunsTo n u (.seq :: after) x ∧ SeqSame z x ∧ FrameSame z x := by
  induction ts generalizing z with
  | nil =>
    obtain ⟨t, ts', hnil⟩ := h.exists_cons hcont
    cases hnil
  | cons t ts ih =>
    by_cases hseq : t = .seq
    · subst hseq
      exact ⟨ts, z, h, .refl z, .refl z⟩
    · obtain ⟨z', hstep, h', ht, -, -⟩ := h.cons
      obtain ⟨hsame, hframe⟩ := same_of_turnStep_of_quiescent hquiet ht hseq hstep
      obtain ⟨after, x, hx, hzx, hfx⟩ := ih h' (hframe.quiescent hquiet) (hsame.cont ▸ hcont)
      exact ⟨after, x, hx, hsame.trans hzx, hframe.trans hfx⟩

/-- A SEQ step with a transfer pending. -/
theorem RunsTo.seq {after : List Turn} {op : MicroOp} {rest : List MicroOp} (h : RunsTo n u (.seq :: after) z)
    (hcont : z.cont = op :: rest) :
    RunsTo n u after (continueWith (microRest op rest z) (microEffect op z)) ∧
      (isSend op = true →
        frameEnds (z.cfg.retryBudget - 1) false after (continueWith (microRest op rest z) (microEffect op z)) = true) := by
  obtain ⟨z', hstep, h', -, -, hsend⟩ := h.cons
  have hbusy : z.busy = true := h.transferring.busy_iff.2 (by simp [hcont])
  have hop : isTransfer op = true := List.all_eq_true.1 h.transferring.transfers op (by simp [hcont])
  rw [turnStep_seq_cons hbusy hcont (by rintro rfl; cases hop)] at hstep
  cases hstep
  refine ⟨h', fun his => hsend ?_⟩
  rw [performed_seq_cons hbusy hcont]
  simpa using his

/-- After its completion a quiescent run changes nothing more of what counts. -/
theorem RunsTo.same_of_done (h : RunsTo n u ts z) (hquiet : Quiescent z) (hcont : z.cont = []) :
    SeqSame z u ∧ FrameSame z u := by
  have hidle : z.busy = false := by
    by_contra hbusy
    exact h.transferring.busy_iff.1 (Bool.eq_true_of_not_eq_false hbusy) hcont
  refine runTurns_invariant (fun x => SeqSame z x ∧ FrameSame z x) (fun t ht x x' hx hstep => ?_)
    ⟨.refl z, .refl z⟩ h.run
  obtain ⟨hsame, hframe⟩ := hx
  by_cases hseq : t = .seq
  · subst hseq
    rw [turnStep_seq, seqStep_idle x (hsame.busy.trans hidle)] at hstep
    cases hstep
    exact ⟨hsame, hframe⟩
  · obtain ⟨hsame', hframe'⟩ := same_of_turnStep_of_quiescent (hframe.quiescent hquiet) (h.during t ht) hseq hstep
    exact ⟨hsame.trans hsame', hframe.trans hframe'⟩

end

/-! ### The frame of one SendByte -/

@[simp] theorem shifterStep_txdr (s : State) : (shifterStep s).txdr = s.txdr := by rw [shifterStep_eq]

/-- Byte and frame never wait together in a responsive run: LOAD empties TXDR, and SendByte finds no frame in flight. -/
def OneAtATime (z : State) : Prop := ¬(z.txpend = true ∧ z.shbusy = true)

theorem OneAtATime.shifterStep {z : State} (h : OneAtATime z) : OneAtATime (shifterStep z) := by
  obtain ⟨-, hs⟩ | ⟨-, hs⟩ | ⟨-, hs⟩ | ⟨-, -, -, hs⟩ := shifterStep_cases z <;> rw [hs]
  · simp [OneAtATime]
  · exact h
  · simp [OneAtATime]
  · exact h

theorem OneAtATime.of_same {z z' : State} (h : OneAtATime z) (k : FrameSame z z') : OneAtATime z' := by
  rw [OneAtATime, k.txpend, k.shbusy]; exact h

/-- What is still to come of the byte's frame: nothing, or its END within `checks` FlagChecks. -/
def EndsWithin (checks : ℕ) (ts : List Turn) (z : State) : Prop := Quiescent z ∨ frameEnds checks z.shbusy ts z = true

/-- TXE is the quiet of the transmit side. -/
theorem txe_iff_quiescent (z : State) : txe z = true ↔ Quiescent z := by simp [txe]

section
variable {checks : ℕ} {ts : List Turn} {z : State}

theorem EndsWithin.tick (h : EndsWithin checks (.tick :: ts) z) : EndsWithin checks ts (tickStep z) := by
  obtain hquiet | hends := h
  · exact .inl ((tickStep_frameSame z).quiescent hquiet)
  · right
    rw [frameEnds_cons_next (turnStep_tick z) (by simp)] at hends
    simpa [performed_of_ne_seq, Turn.isReset] using hends

/-- SHIFTER's step is the LOAD that the premise waits for, a step of the frame, or its END. -/
theorem EndsWithin.shifter (h : EndsWithin checks (.shifter :: ts) z) (hone : OneAtATime z) :
    EndsWithin checks ts (shifterStep z) := by
  obtain hquiet | hends := h
  · left; rw [shifterStep_quiescent z hquiet.1 hquiet.2]; exact hquiet
  by_cases hend : endEnabled z = true
  · left
    obtain ⟨hbusy, hlast⟩ := (endEnabled_iff z).1 hend
    rw [shifterStep_end z hbusy hlast]
    exact ⟨Bool.eq_false_iff.2 fun hpend => hone ⟨hpend, hbusy⟩, rfl⟩
  · right
    have hloaded : (z.shbusy || loadEnabled z) = (shifterStep z).shbusy := by
      obtain ⟨hload, hs⟩ | ⟨hedge, hs⟩ | ⟨hend', -⟩ | ⟨hload, -, -, hs⟩ := shifterStep_cases z
      · rw [hs, hload, Bool.or_true]; rfl
      · rw [hs, ((edgeEnabled_iff z).1 hedge).1]; exact ((edgeEnabled_iff z).1 hedge).1.symm
      · exact absurd hend' hend
      · rw [hs, hload, Bool.or_false]
    rw [frameEnds_cons_next (turnStep_shifter z) (by simp [hend])] at hends
    simpa [performed_of_ne_seq, Turn.isReset, ← hloaded] using hends

/-- A FlagCheck before the END is one of those that the premise allows. -/
theorem EndsWithin.flagCheck {f : Flag} {k : ℕ} {rest : List MicroOp} {z' : State}
    (h : EndsWithin checks (.seq :: ts) z) (hnot : ¬Quiescent z) (hbusy : z.busy = true)
    (hcont : z.cont = .flagCheck f k :: rest) (hstep : turnStep .seq z = .next z') (hframe : FrameSame z z') :
    1 ≤ checks ∧ EndsWithin (checks - 1) ts z' := by
  have hends := h.resolve_left hnot
  rw [frameEnds_cons_next hstep (by simp), performed_seq_cons hbusy hcont] at hends
  simp only [Bool.and_eq_true, decide_eq_true_eq] at hends
  obtain ⟨⟨⟨hone, -⟩, -⟩, hrest⟩ := hends
  refine ⟨hone, .inr ?_⟩
  rw [hframe.shbusy]
  simpa [isFlagCheck] using hrest

end

/-- The operands of the command in execution stay. -/
structure SameOperands (z y : State) : Prop where
  a0 : y.a0 = z.a0
  txbuf : y.txbuf = z.txbuf

theorem SameOperands.trans {x y z : State} (h : SameOperands x y) (k : SameOperands y z) : SameOperands x z :=
  ⟨k.a0.trans h.a0, k.txbuf.trans h.txbuf⟩

theorem SeqSame.operands {z y : State} (h : SeqSame z y) : SameOperands z y := ⟨h.a0, h.txbuf⟩

theorem SameOperands.readByteSrc_eq {z y : State} (h : SameOperands z y) (src : ByteSrc) :
    readByteSrc src y = readByteSrc src z := by
  cases src with
  | value => rw [readByteSrc, h.a0, readByteSrc]
  | dummy => rfl
  | txbuf i => rw [readByteSrc, h.txbuf, readByteSrc]

theorem continueWith_operands (rest : List MicroOp) (z : State) : SameOperands z (continueWith rest z) :=
  ⟨continueWith_a0 rest z, continueWith_txbuf rest z⟩

section
variable {n : ℕ} {u z : State} {ts : List Turn} {v : Byte} {base : List Event} {rest : List MicroOp}

/-- The poll of a byte on its way, `k` of its checks done: it sees the END of the byte's frame, for the budget is not reached
before. -/
theorem RunsTo.poll_txe {k b : ℕ} (h : RunsTo n u ts z) (hcont : z.cont = .flagCheck .txe k :: rest)
    (hb : z.cfg.retryBudget = b) (hcarry : Carrying v base z) (hone : OneAtATime z) (hends : EndsWithin (b - 1 - k) ts z) :
    ∃ after y, RunsTo n u after y ∧ y.cont = rest ∧ Quiescent y ∧ y.rxne = true ∧ y.txdr = z.txdr ∧ y.rsp = z.rsp ∧
      frameEvents y = base ++ [.xstart v, .xend y.rxdr] ∧ SameOperands z y := by
  induction ts generalizing z k with
  | nil =>
    obtain ⟨t, ts', hnil⟩ := h.exists_cons (by simp [hcont])
    cases hnil
  | cons t ts ih =>
    obtain ⟨z', hstep, h', ht, hcfg, -⟩ := h.cons
    cases t with
    | host => exact absurd rfl ht.1
    | rst params => cases ht.2
    | tick =>
      cases hstep
      have hsame := tickStep_seqSame z
      have hframe := tickStep_frameSame z
      obtain ⟨after, y, hy, hrest, hquiet, hrxne, htxdr, hrsp, hevents, hops⟩ :=
        ih h' (hsame.cont.trans hcont) (by rw [hcfg, hb]) (hcarry.of_same hframe) (hone.of_same hframe) hends.tick
      exact ⟨after, y, hy, hrest, hquiet, hrxne, htxdr.trans hframe.txdr, hrsp.trans hsame.rsp, hevents,
        hsame.operands.trans hops⟩
    | shifter =>
      cases hstep
      have hsame := shifterStep_seqSame z
      obtain ⟨e, hcarry', he⟩ := hcarry.shifterStep
      rw [he hone, List.append_nil] at hcarry'
      obtain ⟨after, y, hy, hrest, hquiet, hrxne, htxdr, hrsp, hevents, hops⟩ :=
        ih h' (hsame.cont.trans hcont) (by rw [hcfg, hb]) hcarry' hone.shifterStep (hends.shifter hone)
      exact ⟨after, y, hy, hrest, hquiet, hrxne, htxdr.trans (shifterStep_txdr z), hrsp.trans hsame.rsp, hevents,
        hsame.operands.trans hops⟩
    | seq =>
      obtain ⟨hseq, -⟩ := h.seq hcont
      have hbusy : z.busy = true := h.transferring.busy_iff.2 (by simp [hcont])
      have hstep' := turnStep_seq_cons hbusy hcont nofun
      by_cases hquiet : Quiescent z
      · have hrest : microRest (.flagCheck .txe k) rest z = rest :=
          afterFlagCheck_of_ends rest (.inl ((txe_iff_quiescent z).2 hquiet))
        rw [hrest, microEffect] at hseq
        obtain ⟨-, hrxne, hevents⟩ := hcarry.of_txe ((txe_iff_quiescent z).2 hquiet)
        have hframe := continueWith_frameSame rest z
        refine ⟨ts, _, hseq, continueWith_cont rest z, hframe.quiescent hquiet, hframe.rxne.trans hrxne, hframe.txdr,
          continueWith_rsp rest z, ?_, continueWith_operands rest z⟩
        rw [hframe.events, hframe.rxdr, hevents]
      · have hflag : flagValue .txe z = false := Bool.eq_false_iff.2 fun htxe => hquiet ((txe_iff_quiescent z).1 htxe)
        obtain ⟨hleft, hends'⟩ := hends.flagCheck hquiet hbusy hcont hstep' (continueWith_frameSame _ z)
        have hrest : microRest (.flagCheck .txe k) rest z = .flagCheck .txe (k + 1) :: rest :=
          afterFlagCheck_of_continues rest hflag (by omega)
        rw [hrest, microEffect] at hseq hends'
        have hframe := continueWith_frameSame (.flagCheck .txe (k + 1) :: rest) z
        obtain ⟨after, y, hy, hrest', hquiet', hrxne, htxdr, hrsp, hevents, hops⟩ :=
          ih hseq rfl hb (hcarry.of_same hframe) (hone.of_same hframe) (by rwa [← Nat.sub_sub])
        exact ⟨after, y, hy, hrest', hquiet', hrxne, htxdr, hrsp, hevents, (continueWith_operands _ z).trans hops⟩

/-- 42_transactions.md R165: a WriteByteProc of a responsive run puts one frame on the wire, with its byte. -/
theorem RunsTo.writeByteProc {src : ByteSrc} (h : RunsTo n u ts z) (hquiet : Quiescent z)
    (hcont : z.cont = writeByteProc src ++ rest) :
    ∃ after y, RunsTo n u after y ∧ y.cont = rest ∧ Quiescent y ∧ y.rxne = true ∧ y.txdr = readByteSrc src z ∧
      y.rsp = z.rsp ∧ frameEvents y = frameEvents z ++ [.xstart (readByteSrc src z), .xend y.rxdr] ∧ SameOperands z y := by
  obtain ⟨after, x, hx, hsame, hframe⟩ := h.to_seq hquiet (by simp [hcont, Machine.writeByteProc])
  have hsrc := hsame.operands.readByteSrc_eq src
  obtain ⟨hseq, hends⟩ := hx.seq (op := .sendByte src) (rest := .flagCheck .txe 0 :: rest) (hsame.cont.trans hcont)
  have hidle : x.shbusy = false := hframe.shbusy.trans hquiet.2
  rw [microRest_sendByte, microEffect, hsrc] at hseq hends
  have hcarry : Carrying (readByteSrc src z) (frameEvents z)
      (continueWith (.flagCheck .txe 0 :: rest) (sendByte (readByteSrc src z) x)) := .waiting rfl rfl hframe.events
  have hwithin : EndsWithin (x.cfg.retryBudget - 1 - 0) after
      (continueWith (.flagCheck .txe 0 :: rest) (sendByte (readByteSrc src z) x)) := by
    right
    have hbusy : (continueWith (.flagCheck .txe 0 :: rest) (sendByte (readByteSrc src z) x)).shbusy = false := hidle
    rw [hbusy]
    exact hends rfl
  obtain ⟨after', y, hy, hrest, hyquiet, hrxne, htxdr, hrsp, hevents, hops⟩ :=
    hseq.poll_txe rfl rfl hcarry (fun hboth => by simp [hidle] at hboth) hwithin
  exact ⟨after', y, hy, hrest, hyquiet, hrxne, htxdr, hrsp.trans hsame.rsp, hevents,
    hsame.operands.trans ⟨hops.a0, hops.txbuf⟩⟩

/-- 42_transactions.md R166: with RXNE = 1 a ReadByteProc ends its poll at once and reads RXDR. -/
theorem RunsTo.readByteProc {dst : Option ℕ} (h : RunsTo n u ts z) (hquiet : Quiescent z) (hrxne : z.rxne = true)
    (hcont : z.cont = readByteProc dst ++ rest) :
    ∃ after y, RunsTo n u after y ∧ y.cont = rest ∧ Quiescent y ∧ frameEvents y = frameEvents z ∧
      y.rsp = z.rsp ++ (if dst.isSome then [z.rxdr] else []) ∧ SameOperands z y := by
  have hpoll : z.cont = .flagCheck .rxne 0 :: .receiveByte dst :: rest := hcont
  obtain ⟨after, x, hx, hsame, hframe⟩ := h.to_seq hquiet (by simp [hpoll])
  have hends : microRest (.flagCheck .rxne 0) (.receiveByte dst :: rest) x = .receiveByte dst :: rest :=
    afterFlagCheck_of_ends _ (.inl (hframe.rxne.trans hrxne))
  obtain ⟨hseq, -⟩ := hx.seq (hsame.cont.trans hpoll)
  rw [hends, microEffect, continueWith_cons] at hseq
  have hquiet' : Quiescent { x with cont := .receiveByte dst :: rest } := hframe.quiescent hquiet
  obtain ⟨after', x', hx', hsame', hframe'⟩ := hseq.to_seq hquiet' (by simp)
  obtain ⟨hread, -⟩ := hx'.seq (op := .receiveByte dst) (rest := rest) hsame'.cont
  rw [microRest_receiveByte, microEffect] at hread
  refine ⟨after', _, hread, continueWith_cont _ _, ?_, ?_, ?_, ?_⟩
  · have hquiet'' := hframe'.quiescent hquiet'
    exact ⟨by rw [continueWith_txpend]; exact hquiet''.1, by rw [continueWith_shbusy]; exact hquiet''.2⟩
  · rw [frameEvents_continueWith]
    exact hframe'.events.trans hframe.events
  · have hrsp : x'.rsp = z.rsp := hsame'.rsp.trans hsame.rsp
    have hrxdr : x'.rxdr = z.rxdr := hframe'.rxdr.trans hframe.rxdr
    rw [continueWith_rsp]
    cases dst with
    | none => rw [receiveByte_none_rsp, hrsp]; simp
    | some j => rw [hx'.transferring.rsp_receiveByte hsame'.cont, hrsp, hrxdr]; rfl
  · have hreceived : SameOperands x (receiveByte dst x') := ⟨hsame'.a0, hsame'.txbuf⟩
    exact hsame.operands.trans (hreceived.trans (continueWith_operands rest (receiveByte dst x')))

/-- 42_transactions.md R157: an ExchangeByte is one frame whose byte is stored or dropped. -/
theorem RunsTo.exchangeByte {src : ByteSrc} {dst : Option ℕ} (h : RunsTo n u ts z) (hquiet : Quiescent z)
    (hcont : z.cont = exchangeByte src dst ++ rest) :
    ∃ after y r, RunsTo n u after y ∧ y.cont = rest ∧ Quiescent y ∧
      frameEvents y = frameEvents z ++ [.xstart (readByteSrc src z), .xend r] ∧
      y.rsp = z.rsp ++ (if dst.isSome then [r] else []) ∧ SameOperands z y := by
  obtain ⟨after, x, hx, hxcont, hxquiet, hrxne, -, hxrsp, hxevents, hxops⟩ :=
    h.writeByteProc (rest := Machine.readByteProc dst ++ rest) hquiet (by rw [hcont, Machine.exchangeByte, List.append_assoc])
  obtain ⟨after', y, hy, hycont, hyquiet, hyevents, hyrsp, hyops⟩ := hx.readByteProc hxquiet hrxne hxcont
  exact ⟨after', y, x.rxdr, hy, hycont, hyquiet, hyevents.trans hxevents, by rw [hyrsp, hxrsp], hxops.trans hyops⟩

/-- The transmit loop: one frame per byte, in order, the last one's byte left unread. -/
theorem RunsTo.transmit {js : List ℕ} (h : RunsTo n u ts z) (hquiet : Quiescent z)
    (hcont : z.cont = js.flatMap (fun j => Machine.writeByteProc (.txbuf j)) ++ rest) :
    ∃ (after : List Turn) (y : State) (unread : List Byte), RunsTo n u after y ∧ y.cont = rest ∧ Quiescent y ∧
      y.rsp = z.rsp ∧ unread.length = js.length ∧
      frameEvents y = frameEvents z ++ ((js.map (bufRead z.txbuf)).zip unread).flatMap (fun p => [.xstart p.1, .xend p.2]) ∧
      (∀ r, unread.getLast? = some r → y.rxne = true ∧ y.rxdr = r) := by
  induction js generalizing z ts with
  | nil => exact ⟨ts, z, [], h, hcont, hquiet, rfl, rfl, (List.append_nil _).symm, nofun⟩
  | cons j js ih =>
    obtain ⟨after, x, hx, hxcont, hxquiet, hrxne, -, hxrsp, hxevents, hxops⟩ := h.writeByteProc (src := .txbuf j) hquiet
      (hcont.trans (by rw [List.flatMap_cons, List.append_assoc]))
    cases js with
    | nil =>
      refine ⟨after, x, [x.rxdr], hx, hxcont, hxquiet, hxrsp, rfl, hxevents, ?_⟩
      rintro r hr
      cases hr
      exact ⟨hrxne, rfl⟩
    | cons j' js =>
      obtain ⟨after', y, unread, hy, hycont, hyquiet, hyrsp, hylen, hyevents, hylast⟩ := ih hx hxquiet hxcont
      refine ⟨after', y, x.rxdr :: unread, hy, hycont, hyquiet, hyrsp.trans hxrsp, congrArg Nat.succ hylen, ?_,
        fun r hr => ?_⟩
      · rw [hyevents, hxevents, hxops.txbuf, List.append_assoc]
        rfl
      · have hne : unread ≠ [] := fun hnil => by simp [hnil] at hylen
        rw [List.getLast?_cons_of_ne_nil hne] at hr
        exact hylast r hr

/-- The receive loop: one dummy frame per byte, the bytes appended to SEQ.RSP in order. -/
theorem RunsTo.receive {js : List ℕ} (h : RunsTo n u ts z) (hquiet : Quiescent z)
    (hcont : z.cont = js.flatMap (fun j => Machine.exchangeByte .dummy (some j)) ++ rest) :
    ∃ (after : List Turn) (y : State) (bytes : List Byte), RunsTo n u after y ∧ y.cont = rest ∧ Quiescent y ∧
      y.rsp = z.rsp ++ bytes ∧ bytes.length = js.length ∧
      frameEvents y = frameEvents z ++ bytes.flatMap (fun r => [.xstart 0xFF, .xend r]) := by
  induction js generalizing z ts with
  | nil => exact ⟨ts, z, [], h, hcont, hquiet, (List.append_nil _).symm, rfl, (List.append_nil _).symm⟩
  | cons j js ih =>
    obtain ⟨after, x, r, hx, hxcont, hxquiet, hxevents, hxrsp, -⟩ := h.exchangeByte (src := .dummy) (dst := some j) hquiet
      (hcont.trans (by rw [List.flatMap_cons, List.append_assoc]))
    obtain ⟨after', y, bytes, hy, hycont, hyquiet, hyrsp, hylen, hyevents⟩ := ih hx hxquiet hxcont
    refine ⟨after', y, r :: bytes, hy, hycont, hyquiet, ?_, congrArg Nat.succ hylen, ?_⟩
    · rw [hyrsp, hxrsp, List.append_assoc]; rfl
    · rw [hyevents, hxevents, List.append_assoc]; rfl

end

/-! ### The four commands -/

/-- A responsive run of a transaction command issued in an initialised quiescent state. -/
theorem runsTo_of_exec {i : Instr} {s t u : State} {ts : List Turn} (hi : isTransaction i = true) (hinit : Inited s)
    (hquiet : Quiescent s) (hexec : exec i s = .next t) (hts : DuringCommand ts) (hresponsive : responsive ts t = true)
    (hrun : runTurns ts t = .next u) (hidle : u.busy = false) :
    RunsTo (responseLength i) u ts t ∧ Quiescent t ∧ t.cont = commandProgram s.cfg i ∧ t.rsp = [] ∧
      frameEvents t = frameEvents s := by
  have hwithin := (Bool.and_eq_true _ _ ▸ hresponsive : _ ∧ framesEndWithin (fun p => p.retryBudget - 1) ts t = true).2
  refine ⟨⟨hts, hrun, hidle, transferring_of_exec hi hexec, (exec_keepsSetup hexec).inited hinit, hwithin⟩, ?_⟩
  obtain ⟨-, rfl⟩ := exec_eq_latched_cases hexec
  rw [latched_eq]
  exact ⟨⟨by rw [continueWith_txpend]; exact hquiet.1, by rw [continueWith_shbusy]; exact hquiet.2⟩, continueWith_cont _ _,
    continueWith_rsp _ _, frameEvents_continueWith _ _⟩

/-- The end of such a run, where the last micro-step has left it. -/
theorem RunsTo.done {n : ℕ} {u z : State} {ts : List Turn} (h : RunsTo n u ts z) (hquiet : Quiescent z) (hcont : z.cont = []) :
    Quiescent u ∧ u.respPort = some z.rsp ∧ FrameSame z u := by
  obtain ⟨hsame, hframe⟩ := h.same_of_done hquiet hcont
  have hidle : z.busy = false := hsame.busy.symm.trans h.idle
  exact ⟨hframe.quiescent hquiet, hsame.respPort.trans (h.transferring.answered hidle), hframe⟩

/-- The bytes that a transmit loop reads are the command's data. -/
theorem map_bufRead_of_exec {i : Instr} {data : List Byte} {s t : State} (hexec : exec i s = .next t)
    (hi : i = .wra data ∨ ∃ rxlen, i = .wrrd data rxlen) : (List.range data.length).map (bufRead t.txbuf) = data := by
  refine List.ext_getElem (by simp) fun j h₁ h₂ => ?_
  rw [List.getElem_map, List.getElem_range]
  exact readByteSrc_txbuf_of_exec hexec hi h₂

/-- Settles O27: WRB is one WriteByteProc. -/
theorem wrbSendsItsByteOnce : Obligations.WrbSendsItsByteOnce := by
  unfold Obligations.WrbSendsItsByteOnce
  intro s t u value ts hinit hquiet hexec hts hresponsive hrun hidle
  obtain ⟨ht, htquiet, htcont, htrsp, htevents⟩ := runsTo_of_exec rfl hinit hquiet hexec hts hresponsive hrun hidle
  obtain ⟨after, y, hy, hycont, hyquiet, hrxne, htxdr, hyrsp, hyevents, -⟩ := ht.writeByteProc (rest := []) htquiet htcont
  obtain ⟨huquiet, huport, hframe⟩ := hy.done hyquiet hycont
  rw [readByteSrc_value_of_exec_wrb hexec] at htxdr hyevents
  refine ⟨huquiet, by rw [huport, hyrsp, htrsp], hframe.txdr.trans htxdr, hframe.rxne.trans hrxne, ?_⟩
  rw [hframe.events, hframe.rxdr, hyevents, htevents]

/-- Settles O26: WRA is a transmit loop. -/
theorem wraSendsItsBytesInOrder : Obligations.WraSendsItsBytesInOrder := by
  unfold Obligations.WraSendsItsBytesInOrder
  intro s t u data ts hinit hquiet hexec hts hresponsive hrun hidle
  obtain ⟨ht, htquiet, htcont, htrsp, htevents⟩ := runsTo_of_exec rfl hinit hquiet hexec hts hresponsive hrun hidle
  obtain ⟨after, y, unread, hy, hycont, hyquiet, hyrsp, hylen, hyevents, hylast⟩ :=
    ht.transmit (js := List.range data.length) htquiet (htcont.trans (List.append_nil _).symm)
  obtain ⟨huquiet, huport, hframe⟩ := hy.done hyquiet hycont
  refine ⟨huquiet, by rw [huport, hyrsp, htrsp], unread, by simpa using hylen, ?_, fun r hr => ?_⟩
  · rw [hframe.events, hyevents, htevents, map_bufRead_of_exec hexec (.inl rfl)]
  · rw [hframe.rxne, hframe.rxdr]; exact hylast r hr

/-- Settles O25: WRRD is a transmit loop and a receive loop; the first stores nothing. -/
theorem wrrdReturnsItsDummyFrames : Obligations.WrrdReturnsItsDummyFrames := by
  unfold Obligations.WrrdReturnsItsDummyFrames
  intro s t u data rxlen ts hinit hquiet hexec hts hresponsive hrun hidle
  obtain ⟨ht, htquiet, htcont, htrsp, htevents⟩ := runsTo_of_exec rfl hinit hquiet hexec hts hresponsive hrun hidle
  obtain ⟨after, x, unread, hx, hxcont, hxquiet, hxrsp, hxlen, hxevents, -⟩ :=
    ht.transmit (js := List.range data.length) htquiet htcont
  obtain ⟨after', y, bytes, hy, hycont, hyquiet, hyrsp, hylen, hyevents⟩ :=
    hx.receive (js := List.range rxlen.toNat) hxquiet (hxcont.trans (List.append_nil _).symm)
  obtain ⟨huquiet, huport, hframe⟩ := hy.done hyquiet hycont
  refine ⟨huquiet, unread, bytes, by simpa using hxlen, by simpa using hylen, ?_, ?_⟩
  · rw [huport, hyrsp, hxrsp, htrsp, List.nil_append]
  · rw [hframe.events, hyevents, hxevents, htevents, map_bufRead_of_exec hexec (.inr ⟨rxlen, rfl⟩)]

/-- Settles O24: RD is an exchange whose byte is dropped and a receive loop. -/
theorem rdReturnsItsDummyFrames : Obligations.RdReturnsItsDummyFrames := by
  unfold Obligations.RdReturnsItsDummyFrames
  intro s t u command length ts hinit hquiet hexec hts hresponsive hrun hidle
  obtain ⟨ht, htquiet, htcont, htrsp, htevents⟩ := runsTo_of_exec rfl hinit hquiet hexec hts hresponsive hrun hidle
  obtain ⟨after, x, first, hx, hxcont, hxquiet, hxevents, hxrsp, -⟩ := ht.exchangeByte htquiet htcont
  obtain ⟨after', y, bytes, hy, hycont, hyquiet, hyrsp, hylen, hyevents⟩ :=
    hx.receive (js := List.range length.toNat) hxquiet (hxcont.trans (List.append_nil _).symm)
  obtain ⟨huquiet, huport, hframe⟩ := hy.done hyquiet hycont
  refine ⟨huquiet, first, bytes, by simpa using hylen, ?_, ?_⟩
  · rw [huport, hyrsp, hxrsp, htrsp]; rfl
  · rw [hframe.events, hyevents, hxevents, htevents, readByteSrc_value_of_exec_rd hexec]

end Sys2Proof.Machine
end

section
/-! RD under the eager schedule: every byte's frame is over before the poll that waits for it (42_transactions.md R166). -/

namespace Sys2Proof.Machine

/-! ### Legs of a responsive run -/

/-- Without a reset an initialised state stays so, whatever is issued. -/
theorem initedFrom_of_inited {ts : List Turn} (hts : ∀ t ∈ ts, t.isReset = false) {s : State} (hinit : Inited s)
    (begun : Bool) :
    initedFrom begun ts s = true := by
  induction ts generalizing s begun with
  | nil => simp [initedFrom, hinit]
  | cons t ts ih =>
    obtain ⟨ht, hrest⟩ := List.forall_mem_cons.mp hts
    cases hstep : turnStep t s with
    | next s' =>
      rw [initedFrom_cons_next hstep, ih hrest ((turnStep_keepsSetup hstep ht).inited hinit)]
      simp [hinit]
    | fault r => simp [initedFrom, hstep, hinit]
    | refused r => simp [initedFrom, hstep, hinit]

/-- A leg of a run from `z` to `z'` on which every SendByte's frame ends before the next FlagCheck. -/
structure PromptLeg (as : List Turn) (z z' : State) : Prop where
  run : runTurns as z = .next z'
  within {bound : Params → ℕ} {ts : List Turn} :
    framesEndWithin bound ts z' = true → framesEndWithin bound (as ++ ts) z = true

theorem PromptLeg.nil (z : State) : PromptLeg [] z z := ⟨rfl, id⟩

theorem PromptLeg.append {as bs : List Turn} {x y z : State} (h : PromptLeg as x y) (k : PromptLeg bs y z) :
    PromptLeg (as ++ bs) x z where
  run := by rw [runTurns_append_next h.run, k.run]
  within hts := by rw [List.append_assoc]; exact h.within (k.within hts)

/-- A step that sends nothing. -/
theorem PromptLeg.of_turnStep {t : Turn} {z z' : State} (hstep : turnStep t z = .next z')
    (hsilent : (performed t z).any isSend = false) : PromptLeg [t] z z' where
  run := runTurns_cons_next hstep
  within hts := by
    rw [List.singleton_append, framesEndWithin_cons_next hstep, hsilent, hts]
    rfl

/-- SHIFTER sends nothing. -/
theorem PromptLeg.shifter {n : ℕ} {z z' : State} (hrun : runTurns (List.replicate n .shifter) z = .next z') :
    PromptLeg (List.replicate n .shifter) z z' := by
  induction n generalizing z with
  | zero => cases hrun; exact .nil _
  | succ n ih =>
    obtain ⟨x, hstep, hrest⟩ := runTurns_cons_cases hrun
    exact (PromptLeg.of_turnStep hstep (by rw [performed_of_ne_seq (by simp)]; rfl)).append (ih hrest)

/-! ### A whole frame ends in time -/

section
variable {s : State} {ts : List Turn} {checks : ℕ}

/-- With `k` transitions to come, `k` SHIFTER steps and END. -/
theorem frameEnds_inFrame (hmiso : 8 ≤ s.miso.given.length) {j k : ℕ} (hjk : j + k = 16) :
    frameEnds checks true (List.replicate (k + 1) .shifter ++ ts) (inFrame s j) = true := by
  have hedge := toNat_inFrame_edge s (j := j) (by omega)
  induction k generalizing j with
  | zero =>
    have hend : endEnabled (inFrame s j) = true := (endEnabled_iff _).2 ⟨rfl, hedge.trans hjk⟩
    rw [List.replicate_succ, List.cons_append, frameEnds, if_pos ⟨rfl, rfl, hend⟩]
  | succ k ih =>
    have hstep : turnStep .shifter (inFrame s j) = .next (inFrame s (j + 1)) :=
      congrArg Host.Outcome.next (shifterStep_inFrame hmiso (by omega))
    have hgoes : ¬(true = true ∧ Turn.shifter = .shifter ∧ endEnabled (inFrame s j) = true) := by
      rw [endEnabled_iff, hedge]; omega
    rw [List.replicate_succ, List.cons_append, frameEnds_cons_next hstep hgoes, performed_of_ne_seq (by simp)]
    exact ih (by omega) (toNat_inFrame_edge s (by omega))

/-- LOAD's guard and eighteen SHIFTER steps. -/
theorem frameEnds_frame (hload : loadEnabled s = true) (hmiso : 8 ≤ s.miso.given.length) :
    frameEnds checks false (List.replicate 18 .shifter ++ ts) s = true := by
  have hstep : turnStep .shifter s = .next (inFrame s 0) := by
    rw [turnStep_shifter, shifterStep_load s hload, inFrame_zero]
  rw [List.replicate_succ, List.cons_append, frameEnds_cons_next hstep (by simp), performed_of_ne_seq (by simp), hload]
  exact frameEnds_inFrame hmiso rfl

end

/-! ### The blocks of the eager schedule -/

theorem eagerTurns_add (m n : ℕ) : eagerTurns (m + n) = eagerTurns m ++ eagerTurns n := by
  rw [eagerTurns, List.replicate_add, List.flatten_append, eagerTurns, eagerTurns]

theorem eagerTurns_one : eagerTurns 1 = .seq :: List.replicate 18 .shifter := rfl

theorem isReset_of_mem_eagerTurns {n : ℕ} {t : Turn} (ht : t ∈ eagerTurns n) : t.isReset = false := by
  obtain ⟨block, hblock, ht⟩ := List.mem_flatten.1 ht
  rw [List.eq_of_mem_replicate hblock] at ht
  obtain rfl | ht := List.mem_cons.1 ht
  · rfl
  · rw [List.eq_of_mem_replicate ht]; rfl

section
variable {s : State} {rest : List MicroOp}

/-- A SEQ step that sends nothing and leaves no transfer under way: SHIFTER's eighteen steps change nothing. -/
theorem PromptLeg.quietStep {op : MicroOp} (hbusy : s.busy = true) (hop : op ≠ .applyInit) (hsilent : isSend op = false)
    (hquiet : Quiescent (microEffect op s)) :
    PromptLeg (eagerTurns 1) (continueWith (op :: rest) s) (continueWith (microRest op rest s) (microEffect op s)) := by
  have hperformed : performed .seq (continueWith (op :: rest) s) = [op] := performed_seq_cons hbusy rfl
  have hstep : PromptLeg [.seq] (continueWith (op :: rest) s) (continueWith (microRest op rest s) (microEffect op s)) :=
    .of_turnStep (turnStep_seq_continueWith hbusy hop rest) (by rw [hperformed, List.any_cons, hsilent]; rfl)
  refine hstep.append (bs := List.replicate 18 .shifter) (.shifter (runTurns_of_stutter fun t ht => ?_))
  obtain ⟨hpend, hidle⟩ := (continueWith_frameSame (microRest op rest s) (microEffect op s)).quiescent hquiet
  rw [List.eq_of_mem_replicate ht, turnStep_shifter, shifterStep_quiescent _ hpend hidle]

/-- A SendByte and the whole frame of its byte, to which RESPONDER answers `r`. -/
theorem PromptLeg.sendByte {src : ByteSrc} {op : MicroOp} {r : Byte} {later : List Bool} (hbusy : s.busy = true)
    (hinit : Inited s) (hquiet : Quiescent s) (hmiso : s.miso.given = byteBits r ++ later) :
    PromptLeg (eagerTurns 1) (continueWith (.sendByte src :: op :: rest) s)
      (continueWith (op :: rest) (afterFrame (Machine.sendByte (readByteSrc src s) s) r later)) := by
  have hstep := turnStep_seq_continueWith hbusy (op := .sendByte src) nofun (op :: rest)
  rw [microRest_sendByte, microEffect] at hstep
  have hload : loadEnabled (continueWith (op :: rest) (Machine.sendByte (readByteSrc src s) s)) = true :=
    (loadEnabled_iff _).2 ⟨clkenSpi_of_inited hinit, spicfgSpe_of_inited hinit, rfl, hquiet.2⟩
  have hlen : 8 ≤ (continueWith (op :: rest) (Machine.sendByte (readByteSrc src s) s)).miso.given.length :=
    le_of_le_of_eq (by simp [hmiso]) rfl
  have hframe := runTurns_frame hload (r := r) (later := later) hmiso
  refine ⟨(runTurns_cons_next hstep).trans hframe, fun hts => ?_⟩
  rw [eagerTurns_one, List.cons_append, framesEndWithin_cons_next hstep, frameEnds_frame hload hlen,
    (PromptLeg.shifter hframe).within hts, Bool.or_true]
  rfl

/-! ### One exchange -/

/-- The state after an ExchangeByte from `s`, the micro-steps behind it aside. -/
def afterExchange (src : ByteSrc) (dst : Option ℕ) (r : Byte) (later : List Bool) (s : State) : State :=
  receiveByte dst (afterFrame (sendByte (readByteSrc src s) s) r later)

/-- Each poll sees its flag at its first check. -/
theorem PromptLeg.exchangeByte {src : ByteSrc} {dst : Option ℕ} {r : Byte} {later : List Bool} (hbusy : s.busy = true)
    (hinit : Inited s) (hquiet : Quiescent s) (hmiso : s.miso.given = byteBits r ++ later) :
    PromptLeg (eagerTurns 4) (continueWith (Machine.exchangeByte src dst ++ rest) s)
      (continueWith rest (afterExchange src dst r later s)) := by
  set x := afterFrame (Machine.sendByte (readByteSrc src s) s) r later with hx
  have hxbusy : x.busy = true := hbusy
  have hxquiet : Quiescent x := ⟨rfl, hquiet.2⟩
  have htxe : microRest (.flagCheck .txe 0) (.flagCheck .rxne 0 :: .receiveByte dst :: rest) x =
      .flagCheck .rxne 0 :: .receiveByte dst :: rest := afterFlagCheck_of_ends _ (.inl ((txe_iff_quiescent x).2 hxquiet))
  have hrxne : microRest (.flagCheck .rxne 0) (.receiveByte dst :: rest) x = .receiveByte dst :: rest :=
    afterFlagCheck_of_ends _ (.inl rfl)
  have hsend : PromptLeg (eagerTurns 1) (continueWith (Machine.exchangeByte src dst ++ rest) s)
      (continueWith (.flagCheck .txe 0 :: .flagCheck .rxne 0 :: .receiveByte dst :: rest) x) :=
    .sendByte hbusy hinit hquiet hmiso
  have hpoll := PromptLeg.quietStep (op := .flagCheck .txe 0) (rest := .flagCheck .rxne 0 :: .receiveByte dst :: rest) hxbusy
    nofun rfl hxquiet
  have hpoll' := PromptLeg.quietStep (op := .flagCheck .rxne 0) (rest := .receiveByte dst :: rest) hxbusy nofun rfl hxquiet
  have hreceive := PromptLeg.quietStep (op := .receiveByte dst) (rest := rest) hxbusy nofun rfl hxquiet
  rw [htxe] at hpoll
  rw [hrxne] at hpoll'
  exact hsend.append (hpoll.append (hpoll'.append hreceive))

end

/-! ### Answers -/

theorem responderBits_cons_append (r : Byte) (bytes : List Byte) (later : List Bool) :
    responderBits (r :: bytes) ++ later = byteBits r ++ (responderBits bytes ++ later) := by
  rw [responderBits, List.flatMap_cons, List.append_assoc, responderBits]

/-- From `s` to `y` the frames `frames` were on the wire, SEQ.RSP grew by `stored`, and MISO has `later` left; the sequencer is
where it may send the next byte. -/
structure Answered (frames : List Event) (stored : List Byte) (later : List Bool) (s y : State) : Prop where
  busy : y.busy = true
  inited : Inited y
  quiet : Quiescent y
  rxne : y.rxne = false
  miso : y.miso.given = later
  rsp : y.rsp = s.rsp ++ stored
  count : responseCount y = responseCount s
  csout : y.csout = s.csout
  events : frameEvents y = frameEvents s ++ frames

theorem Answered.trans {f f' : List Event} {b b' : List Byte} {l l' : List Bool} {s x y : State} (h : Answered f b l s x)
    (k : Answered f' b' l' x y) : Answered (f ++ f') (b ++ b') l' s y where
  busy := k.busy
  inited := k.inited
  quiet := k.quiet
  rxne := k.rxne
  miso := k.miso
  rsp := by rw [k.rsp, h.rsp, List.append_assoc]
  count := k.count.trans h.count
  csout := k.csout.trans h.csout
  events := by rw [k.events, h.events, List.append_assoc]

section
variable {s : State} {r : Byte} {later : List Bool}

/-- One exchange, whose byte is dropped or stored at the end of SEQ.RSP. -/
theorem answered_afterExchange (hbusy : s.busy = true) (hinit : Inited s) (hquiet : Quiescent s) (src : ByteSrc)
    {dst : Option ℕ} (hdst : ∀ j, dst = some j → j = s.rsp.length) :
    Answered [.xstart (readByteSrc src s), .xend r] (if dst.isSome then [r] else []) later s
      (afterExchange src dst r later s) where
  busy := hbusy
  inited := hinit
  quiet := ⟨rfl, hquiet.2⟩
  rxne := rfl
  miso := rfl
  rsp := by
    cases dst with
    | none => exact (List.append_nil _).symm
    | some j => rw [hdst j rfl]; exact bufWrite_length_self s.rsp r
  count := rfl
  csout := rfl
  events := frameEvents_append_hist (e := [.xstart (readByteSrc src s), .xend r]) rfl

/-- The receive loop returns the responder's bytes in order. -/
theorem PromptLeg.receiveLoop {bytes : List Byte} (hbusy : s.busy = true) (hinit : Inited s) (hquiet : Quiescent s)
    (hrxne : s.rxne = false) (hmiso : s.miso.given = responderBits bytes ++ later) :
    ∃ y, PromptLeg (eagerTurns (4 * bytes.length))
        (continueWith ((List.range' s.rsp.length bytes.length).flatMap fun j => Machine.exchangeByte .dummy (some j)) s)
        (complete y) ∧
      Answered (bytes.flatMap fun r => [.xstart 0xFF, .xend r]) bytes later s y := by
  induction bytes generalizing s with
  | nil =>
    exact ⟨s, .nil _, hbusy, hinit, hquiet, hrxne, hmiso, (List.append_nil _).symm, rfl, rfl, (List.append_nil _).symm⟩
  | cons r bytes ih =>
    have hbits : s.miso.given = byteBits r ++ (responderBits bytes ++ later) :=
      hmiso.trans (responderBits_cons_append r bytes later)
    have hanswer := answered_afterExchange (r := r) (later := responderBits bytes ++ later) hbusy hinit hquiet .dummy
      (dst := some s.rsp.length) (by rintro j ⟨⟩; rfl)
    obtain ⟨y, hleg, hy⟩ := ih hanswer.busy hanswer.inited hanswer.quiet hanswer.rxne hanswer.miso
    refine ⟨y, ?_, hanswer.trans hy⟩
    rw [hanswer.rsp] at hleg
    have hfirst := PromptLeg.exchangeByte (src := .dummy) (dst := some s.rsp.length)
      (rest := (List.range' (s.rsp.length + 1) bytes.length).flatMap fun j => Machine.exchangeByte .dummy (some j))
      hbusy hinit hquiet hbits
    rw [List.length_cons, Nat.mul_add, Nat.add_comm, eagerTurns_add, List.range'_succ, List.flatMap_cons]
    rw [List.length_append] at hleg
    exact hfirst.append hleg

/-- RD's micro-steps: the answer to the command is dropped, those to the dummies are returned. -/
theorem PromptLeg.rd {bytes : List Byte} (hbusy : s.busy = true) (hinit : Inited s) (hquiet : Quiescent s) (hrsp : s.rsp = [])
    (hmiso : s.miso.given = responderBits (r :: bytes) ++ later) :
    ∃ y, PromptLeg (eagerTurns (4 * (bytes.length + 1)))
        (continueWith (Machine.exchangeByte .value none ++ Machine.receiveLoop bytes.length) s) (complete y) ∧
      Answered ([.xstart (readByteSrc .value s), .xend r] ++ bytes.flatMap fun r => [.xstart 0xFF, .xend r]) bytes later s y := by
  have hbits := hmiso.trans (responderBits_cons_append r bytes later)
  have hcommand := answered_afterExchange (r := r) (later := responderBits bytes ++ later) hbusy hinit hquiet .value
    (dst := none) nofun
  obtain ⟨y, hloop, hbytes⟩ :=
    PromptLeg.receiveLoop hcommand.busy hcommand.inited hcommand.quiet hcommand.rxne hcommand.miso
  refine ⟨y, ?_, hcommand.trans hbytes⟩
  have hempty : (afterExchange .value none r (responderBits bytes ++ later) s).rsp = [] := hcommand.rsp.trans (by simp [hrsp])
  rw [hempty, List.length_nil, ← List.range_eq_range'] at hloop
  have hrun := (PromptLeg.exchangeByte hbusy hinit hquiet hbits).append hloop
  rwa [← eagerTurns_add, Nat.add_comm 4] at hrun

end

/-- Settles O28: RD's leg, from the state that its issue leaves. -/
theorem rdUnderEagerScheduleReturnsResponderBytes : Obligations.RdUnderEagerScheduleReturnsResponderBytes := by
  unfold Obligations.RdUnderEagerScheduleReturnsResponderBytes
  intro s command length first bytes later hidle hinit hquiet hlen hmiso
  have hexec := exec_eq_latched (i := .rd command length) hidle
  have hvalue : readByteSrc .value (latched (.rd command length) s) = command := by simp [readByteSrc, latched, commandLatch]
  rw [commandProgram, ← hlen] at hexec
  rw [← hlen]
  have hbits : (latched (.rd command length) s).miso.given = responderBits (first :: bytes) ++ later := by
    rw [latched_eq]; exact hmiso
  obtain ⟨y, hleg, hy⟩ := PromptLeg.rd (s := latched (.rd command length) s) rfl (by rw [latched_eq]; exact hinit)
    (by rw [latched_eq]; exact hquiet) rfl hbits
  rw [hvalue] at hy
  have hresponse : response y = bytes := by
    have hcount : responseCount y = bytes.length := hy.count.trans hlen.symm
    rw [response_eq_take, hcount, hy.rsp]
    exact List.take_length
  have hinited := initedFrom_of_inited (fun _ ht => isReset_of_mem_eagerTurns (n := 4 * (bytes.length + 1)) ht)
    ((exec_keepsSetup hexec).inited hinit) false
  have hends := hleg.within (bound := fun p => p.retryBudget - 1) (ts := []) rfl
  rw [List.append_nil] at hends
  refine ⟨_, _, hexec, hleg.run, Bool.and_eq_true_iff.2 ⟨hinited, hends⟩, rfl, congrArg some hresponse, hy.rxne, hy.quiet,
    hy.csout.trans (by rw [latched_eq]), hy.miso, ?_⟩
  have hissued : frameEvents (latched (.rd command length) s) = frameEvents s := by rw [latched_eq]; rfl
  have hdone : frameEvents (complete y) = frameEvents y := frameEvents_continueWith [] y
  rw [hdone, hy.events, hissued, List.append_assoc]

end Sys2Proof.Machine
end
